-- ==== Sys2Proof/Word.lean ====
section
/-! DEFINITION. The word types of the block and its parameters' fixed widths (spec/00_scope.md R4, R7, R8). -/

namespace Sys2Proof

/-- One byte of the register window (R52), also one character of HASH (R25). -/
abbrev Byte := BitVec 8

/-- A command word and the width of CMD, STATUS, LATFRAC and LNGFRAC (R21, R80). FRAC_W = 32 (R4). -/
abbrev Word := BitVec 32

/-- The width of KEY (KEY_W = 64, R4) and the data of the widest host access (R55). -/
abbrev DWord := BitVec 64

/-- The 64-bit encoding of a binary64 value, as LAT and LNG hold it (R8, R22). Its reading as a number
is in `Machine/Float64.lean`. -/
abbrev F64 := BitVec 64

/-- HASH's content: HASH_LEN = 12 character bytes, character 0 first (R4, R25). -/
abbrev Chars := Vector Byte 12

end Sys2Proof
end

