-- ==== Sys2Proof/Config.lean ====
section
/-! DEFINITION. What an implementation fixes (spec/00_scope.md R6) and the free values: what the spec leaves
open. The parameters are plain data that `State` carries and no step changes, so a statement about every
state is a statement about every value of them. -/

namespace Sys2Proof.Config

/-- `MapArith` (R6, R102): how map-to-fraction computes. This hardware uses `binary64`. -/
inductive MapArith where
  | binary64
  | exact
  deriving DecidableEq, Repr

/-- What becomes of a run in which an unwritten data-register byte is used. The model fault of spec/10_state.md R34 arises
in either case. `stop` is the spec's treatment (spec/93_implementation_defined.md U7), the one of `State.reset` and of the
invariant; `hold` is a second one of the model's own. It is no parameter of the machine (notes/assumptions/1.md). -/
inductive OnUnwritten where
  /-- The fault is recorded for the rest of the run, and the use reads the value the byte holds: "A real implementation
  may hold any value" (U7). DESIGN CHOICE, unsafe where it is used (notes/assumptions/1.md). -/
  | hold
  /-- The run ends in the fault: "the model stops with a named model fault" (spec/93_implementation_defined.md). -/
  | stop
  deriving DecidableEq, Repr

/-- The parameters of the machine, the three of R6: every other choice is fixed. -/
structure Params where
  /-- `BASE`, the bus address of the register window, OPEN (spec/20_memory.md R51). -/
  base : Nat
  /-- `HostCount`, the number of bus masters that may reach the window, OPEN (R6, R63). -/
  hostCount : Nat
  /-- `MapArith` (R102). -/
  mapArith : MapArith
  deriving DecidableEq, Repr

/-- FREE VALUE: the byte that reset number `k` leaves at window offset `o` of a data register, "one value per
byte, which a real implementation may choose freely" (spec/70_reset_and_hazards.md R232;
notes/assumptions/2.md). -/
opaque resetByte (k o : Nat) : Byte

/-- FREE VALUE: sign and payload of the NaN that a binary64 operation on `a` and `b` gives. R8 does not fix
them, and no command reaches one (R104; notes/assumptions/9.md). -/
opaque nanChoice (a b : F64) : F64

end Sys2Proof.Config
end

