-- ==== Sys2Proof/Syntax.lean ====
section
/-! DEFINITION. The commands of the block: one constructor per row of spec/opcode_table.json. -/

namespace Sys2Proof

/-- A command (spec/30_encoding.md R85). Operands are implicit, so no constructor has an argument (R83). -/
inductive Instr where
  /-- 0x00, does nothing but report (spec/43_composed.md R182). -/
  | nop
  /-- 0x01, LAT to LATFRAC (spec/40_mapper.md R106). -/
  | maplat
  /-- 0x02, LNG to LNGFRAC (R107). -/
  | maplng
  /-- 0x03, LATFRAC to LAT (R108). -/
  | unmaplat
  /-- 0x04, LNGFRAC to LNG (R109). -/
  | unmaplng
  /-- 0x05, LATFRAC and LNGFRAC to KEY (spec/41_interleave.md R130). -/
  | ilv
  /-- 0x06, KEY to LATFRAC and LNGFRAC (R131). -/
  | dilv
  /-- 0x07, KEY to HASH (spec/42_base32.md R155). -/
  | k2s
  /-- 0x08, HASH to KEY (R156). -/
  | s2k
  /-- 0x09, validates HASH (R157). -/
  | valid
  /-- 0x0A, LAT and LNG to LATFRAC, LNGFRAC, KEY and HASH (spec/43_composed.md R180). -/
  | enc
  /-- 0x0B, HASH to KEY, LATFRAC, LNGFRAC, LAT and LNG (R181). -/
  | dec
  deriving DecidableEq, Repr

end Sys2Proof
end

