-- ==== Sys2Proof/WellFormed.lean ====
section
/-! DEFINITION. What a legal command word, a command and a set of parameters must meet. -/

namespace Sys2Proof

/-- A command word that selects a command: RSVD (bits [31:8]) is zero and OPCODE (bits [7:0]) is assigned,
that is at most 0x0B (spec/30_encoding.md R84, R85). Written without the decoder, to be held against it. -/
def wellFormedWord (w : Word) : Bool :=
  (w >>> 8 == 0) && decide ((w &&& 0xFF).toNat ≤ 0x0B)

/-- Every command is well formed: the format has no operand field to get wrong (R80, R83). -/
def Instr.wellFormed : Instr → Bool
  | .nop | .maplat | .maplng | .unmaplat | .unmaplng | .ilv | .dilv | .k2s | .s2k | .valid | .enc | .dec => true

/-- `BASE` is a multiple of 64 (spec/20_memory.md R51) and there is at least one host
(spec/92_eei_decisions.md, Open parameters). -/
def Config.Params.wellFormed (p : Config.Params) : Bool :=
  decide (p.base % 64 = 0) && decide (1 ≤ p.hostCount)

end Sys2Proof
end

