-- ==== Sys2Proof/Decode.lean ====
section
/-! DEFINITION. The decoder, total on every word and every list of bytes, and the encoder
(spec/30_encoding.md R80 to R85). -/

namespace Sys2Proof

/-- Why a word or a list of bytes selects no command. -/
inductive Illegal where
  /-- RSVD is not zero (R84). -/
  | reservedBits
  /-- RSVD is zero and OPCODE is 0x0C to 0xFF (R85). -/
  | reservedOpcode
  /-- Not the four bytes of one word: "a decoder always takes exactly one 32-bit word" (R81). -/
  | notOneWord
  deriving DecidableEq, Repr

/-- What the decoder answers. -/
inductive Decoded where
  | command (i : Instr)
  | illegal (why : Illegal)
  deriving DecidableEq, Repr

/-- OPCODE, bits [7:0] of a command word (R80). -/
def opcodeField (w : Word) : Byte := w.extractLsb' 0 8

/-- RSVD, bits [31:8] of a command word (R80). -/
def rsvdField (w : Word) : BitVec 24 := w.extractLsb' 8 24

/-- The opcode map of R85, on OPCODE alone. -/
def opcodeMap (op : Byte) : Decoded :=
  match op.toNat with
  | 0x00 => .command .nop
  | 0x01 => .command .maplat
  | 0x02 => .command .maplng
  | 0x03 => .command .unmaplat
  | 0x04 => .command .unmaplng
  | 0x05 => .command .ilv
  | 0x06 => .command .dilv
  | 0x07 => .command .k2s
  | 0x08 => .command .s2k
  | 0x09 => .command .valid
  | 0x0A => .command .enc
  | 0x0B => .command .dec
  | _ => .illegal .reservedOpcode

/-- The decoder of R82: RSVD is checked first (R84), then OPCODE (R85). -/
def decode (w : Word) : Decoded :=
  if rsvdField w = 0 then opcodeMap (opcodeField w) else .illegal .reservedBits

/-- The little-endian bytes of an `n`-byte quantity (spec/20_memory.md R52). -/
def leBytes : Nat → Nat → List Byte
  | 0, _ => []
  | n + 1, w => BitVec.ofNat 8 w :: leBytes n (w / 256)

/-- The number whose little-endian bytes are given (R52). -/
def leNat : List Byte → Nat
  | [] => 0
  | b :: bs => b.toNat + 256 * leNat bs

/-- The decoder on the bytes of a CMD write, lowest address first. -/
def decodeBytes (bs : List Byte) : Decoded :=
  if bs.length = 4 then decode (BitVec.ofNat 32 (leNat bs)) else .illegal .notOneWord

/-- The word of a command: the "word" column of R85. -/
def encode : Instr → Word
  | .nop => 0x00000000
  | .maplat => 0x00000001
  | .maplng => 0x00000002
  | .unmaplat => 0x00000003
  | .unmaplng => 0x00000004
  | .ilv => 0x00000005
  | .dilv => 0x00000006
  | .k2s => 0x00000007
  | .s2k => 0x00000008
  | .valid => 0x00000009
  | .enc => 0x0000000A
  | .dec => 0x0000000B

/-- The bytes of a command as the host writes them to CMD, lowest address first (R52). -/
def encodeBytes (i : Instr) : List Byte := leBytes 4 (encode i).toNat

/-- The command the decoder reads from a table word of `nbits` bits. Every word of the table has 32 bits
(R81), so a longer one decodes to nothing. -/
def decodeTableWord (nbits w : Nat) : Option Instr :=
  if nbits ≤ 32 ∧ w < 2 ^ 32 then
    match decodeBytes (leBytes 4 w) with
    | .command i => some i
    | .illegal _ => none
  else none

end Sys2Proof
end

