-- ==== Sys2Proof/Machine/Flags.lean ====
section
/-! DEFINITION. STATUS, the block's only condition state (spec/10_state.md R28 to R30, R32): how a STATUS word is
put together, and its fields. -/

namespace Sys2Proof.Machine

open Sys2Proof

/-- The word that `setStatus` writes, given the OPCODE field of CMD (R30): DONE = 1, RSVD = 0. -/
def statusWord (op : Byte) (err : BitVec 3) (axis : BitVec 1) (idx : BitVec 4) (chr : Byte) : Word :=
  1#1 ++ 0#7 ++ op ++ chr ++ idx ++ axis ++ err

/-- DONE, bit [31]: 1 once any command has completed since reset (R28). -/
def statusDone (s : Word) : BitVec 1 := s.extractLsb' 31 1

/-- RSVD, bits [30:24]: always reads 0 (R28). -/
def statusRsvd (s : Word) : BitVec 7 := s.extractLsb' 24 7

/-- OP, bits [23:16] (R28). -/
def statusOp (s : Word) : Byte := s.extractLsb' 16 8

/-- CHAR, bits [15:8] (R28). -/
def statusChar (s : Word) : Byte := s.extractLsb' 8 8

/-- IDX, bits [7:4] (R28). -/
def statusIdx (s : Word) : BitVec 4 := s.extractLsb' 4 4

/-- AXIS, bit [3] (R28). -/
def statusAxis (s : Word) : BitVec 1 := s.extractLsb' 3 1

/-- ERR, bits [2:0] (R28, R29). -/
def statusErr (s : Word) : BitVec 3 := s.extractLsb' 0 3

/-- ERR = 0, the command succeeded (R29). -/
def errOk : BitVec 3 := 0

/-- ERR = 1, RANGE_ERROR (R29). -/
def errRange : BitVec 3 := 1

/-- ERR = 2, INVALID_CHARACTER (R29). -/
def errInvalidCharacter : BitVec 3 := 2

/-- ERR = 3, ILLEGAL_COMMAND (R29). -/
def errIllegalCommand : BitVec 3 := 3

end Sys2Proof.Machine
end

