-- ==== Sys2Proof/Machine/State.lean ====
section
/-! DEFINITION. The state of the machine as plain data: the block's registers and written marks, the accesses
that arrive at its window, the answers it has given, and the parameters (spec/10_state.md). -/

namespace Sys2Proof.Machine

open Sys2Proof

/-- The block (R21, R33, R34). The alphabet and the range constants are constants, not state (R26, R33). -/
structure Block where
  /-- CMD, offset 0x00: the last command word written (R27). -/
  cmd : Word
  /-- STATUS, offset 0x04: the outcome of the last command (R28). -/
  status : Word
  /-- LAT, offset 0x08: latitude, any 64-bit pattern (R22). -/
  lat : F64
  /-- LNG, offset 0x10: longitude, any 64-bit pattern (R22). -/
  lng : F64
  /-- LATFRAC, offset 0x18: latitude fraction (R23). -/
  latFrac : Word
  /-- LNGFRAC, offset 0x1C: longitude fraction (R23). -/
  lngFrac : Word
  /-- KEY, offset 0x20: the interleaved key (R24). -/
  key : DWord
  /-- HASH, offset 0x28: 12 character bytes, character 0 first (R25). -/
  hash : Chars
  /-- The written marks, one per byte of LAT to HASH: entry k is the mark of offset 0x08 + k, for the 44
  offsets 0x08 to 0x33 (R34; notes/assumptions/3.md). -/
  marks : Vector Bool 44
  deriving DecidableEq, Repr

/-- One host access to a bus address (spec/20_memory.md R55; R9's `MemRead` and `MemWrite`). The width `n` is
in bytes; a write's value is the low `8n` bits of `v`. -/
inductive Access where
  | read (addr n : Nat)
  | write (addr n : Nat) (v : DWord)
  deriving DecidableEq, Repr

/-- What arrives at the block, one at a time (R63): an access of a host, or the platform's reset, which falls
between two accesses (spec/70_reset_and_hazards.md R230). -/
inductive Event where
  | access (host : Nat) (a : Access)
  | reset
  deriving DecidableEq, Repr

/-- What the block answers to an access. -/
inductive Answer where
  /-- A read's data, zero-extended to 64 bits (R57). -/
  | data (n : Nat) (v : DWord)
  /-- A write has completed, its command included (R58). -/
  | written
  /-- The address is outside the window: the access does not reach the block, and what the platform answers is
  not said (R51; notes/assumptions/5.md). -/
  | notOurs
  deriving DecidableEq, Repr

/-- An answer and the host it went to. -/
structure Reply where
  host : Nat
  answer : Answer
  deriving DecidableEq, Repr

/-- The model faults of spec/60_exceptions.md R203. Each "errs toward unprovable", so each is safe. A fault that a step
ends in has no successor, and one that a step records is never cleared (R56, R203). -/
inductive Fault where
  /-- Arises when a command reads a data-register byte whose written mark is clear (R34): the step ends in it, or records
  it, as `Config.OnUnwritten` says. Safe. -/
  | unwrittenOperand
  /-- Arises when a read of `host` covers a data-register byte whose written mark is clear (R34, R57): the step ends in
  it, or records it, as `Config.OnUnwritten` says. Safe. -/
  | unwrittenRead (host : Nat)
  /-- Arises at an illegal access of `host` (R55, R56): the step ends in it. Safe. -/
  | busError (host : Nat)
  deriving DecidableEq, Repr

/-- The machine: the block and what stands at its window. -/
structure State where
  /-- The registers and marks of the block (R21, R34). -/
  block : Block
  /-- The first model fault that has arisen in the run, if any: never cleared, not even by a reset (R203). It is the
  model's bookkeeping, as the written marks are (R34; notes/assumptions/1.md). -/
  modelFault : Option Fault
  /-- The accesses and resets still to come, in arrival order. With several hosts this is an interleaving of
  their issue orders, and every list is one (R63; notes/assumptions/4.md). -/
  inbox : List Event
  /-- The model's own: the answers given so far, the latest first (notes/assumptions/6.md). -/
  replies : List Reply
  /-- The model's own: how many reset events have happened, the counter that selects the free values
  `Config.resetByte` (notes/assumptions/2.md). -/
  resets : Nat
  /-- The model's own: whether the run ends in the model fault of a use of an unwritten byte, as R34 and
  spec/93_implementation_defined.md U7 say, or keeps it and goes on. No step changes it, and the invariant fixes it at
  `stop` (notes/assumptions/1.md). -/
  onUnwritten : Config.OnUnwritten
  /-- The parameters of R6, which no step changes. -/
  params : Config.Params
  deriving DecidableEq, Repr

/-- Why a step has no meaning. -/
inductive Refusal where
  /-- Raised by an arm of `exec` whose command has no meaning yet; there is no such arm. Safe. -/
  | notModelled (mnemonic : String)
  deriving DecidableEq, Repr

/-- The block right after reset: CMD and STATUS are zero and every mark is clear (R35, R230). The data registers
hold unspecified contents, for which this model names zero (DESIGN CHOICE, unsafe; notes/assumptions/2.md). -/
def Block.reset : Block where
  cmd := 0
  status := 0
  lat := 0
  lng := 0
  latFrac := 0
  lngFrac := 0
  key := 0
  hash := Vector.replicate 12 0
  marks := Vector.replicate 44 false

/-- The parameters `State.reset` carries: `MapArith = binary64` is this hardware's (R6). `BASE` and `HostCount`
are OPEN, and 0 and 1 stand in for them (DESIGN CHOICE; notes/assumptions/7.md). -/
def resetParams : Config.Params where
  base := 0
  hostCount := 1
  mapArith := .binary64

/-- The machine right after reset (R35, R230): no access has arrived and no fault has arisen. -/
def State.reset : State where
  block := Block.reset
  modelFault := none
  inbox := []
  replies := []
  resets := 0
  onUnwritten := .stop
  params := resetParams

end Sys2Proof.Machine
end

