-- ==== Sys2Proof/Machine/Operands.lean ====
section
/-! DEFINITION. Where the registers stand in the window (spec/10_state.md R21), which accesses are legal
(spec/20_memory.md R55), and the bytes and written marks of the registers (R34, R52, R53). -/

namespace Sys2Proof.Machine

open Sys2Proof

/-- The data registers: those with written marks (R34). -/
inductive DataReg where
  | lat | lng | latFrac | lngFrac | key | hash
  deriving DecidableEq, Repr

/-- The rows of the access table (R55). -/
inductive Row where
  | cmd
  | status
  | data (r : DataReg)
  | reserved
  deriving DecidableEq, Repr

/-- The window offset of a data register's first byte (R21). -/
def DataReg.offset : DataReg → Nat
  | .lat => 0x08
  | .lng => 0x10
  | .latFrac => 0x18
  | .lngFrac => 0x1C
  | .key => 0x20
  | .hash => 0x28

/-- The width of a data register in bytes (R21). -/
def DataReg.bytes : DataReg → Nat
  | .lat => 8
  | .lng => 8
  | .latFrac => 4
  | .lngFrac => 4
  | .key => 8
  | .hash => 12

/-- The first offset of a row (R55). -/
def Row.first : Row → Nat
  | .cmd => 0x00
  | .status => 0x04
  | .data r => r.offset
  | .reserved => 0x34

/-- The number of bytes of a row (R55). -/
def Row.bytes : Row → Nat
  | .cmd => 4
  | .status => 4
  | .data r => r.bytes
  | .reserved => 12

/-- The row is a data register's (R58). -/
def Row.isData : Row → Bool
  | .data _ => true
  | .cmd | .status | .reserved => false

/-- The row that holds the byte at offset `o`, for `o` below 0x40 (R55). -/
def rowOf (o : Nat) : Row :=
  if o < 0x04 then .cmd
  else if o < 0x08 then .status
  else if o < 0x10 then .data .lat
  else if o < 0x18 then .data .lng
  else if o < 0x1C then .data .latFrac
  else if o < 0x20 then .data .lngFrac
  else if o < 0x28 then .data .key
  else if o < 0x34 then .data .hash
  else .reserved

/-- An access of `n` bytes at offset `o` is legal (R55): (a) its width, (b) its alignment, (c) it lies inside one
row, and on CMD it has 4 bytes. -/
def legal (o n : Nat) : Bool :=
  decide (n = 1 ∨ n = 2 ∨ n = 4 ∨ n = 8) && decide (o % n = 0)
    && decide (o + n ≤ (rowOf o).first + (rowOf o).bytes)
    && (decide (rowOf o ≠ .cmd) || decide (n = 4))

/-- Byte `k` of a register: bits [8k+7:8k] (R52). -/
def byteOf {w : Nat} (v : BitVec w) (k : Nat) : Byte := v.extractLsb' (8 * k) 8

/-- The register with byte `k` replaced and every other byte unchanged (R54). -/
def withByte {w : Nat} (v : BitVec w) (k : Nat) (x : Byte) : BitVec w :=
  (v &&& ~~~(BitVec.setWidth w (0xFF#8) <<< (8 * k))) ||| (BitVec.setWidth w x <<< (8 * k))

/-- Byte `k` of a data register; character `k` for HASH (R52, R53). -/
def Block.regByte (b : Block) : DataReg → Nat → Byte
  | .lat, k => byteOf b.lat k
  | .lng, k => byteOf b.lng k
  | .latFrac, k => byteOf b.latFrac k
  | .lngFrac, k => byteOf b.lngFrac k
  | .key, k => byteOf b.key k
  | .hash, k => b.hash[k]?.getD 0

/-- The byte a read finds at offset `o` of the window (R57). -/
def Block.windowByte (b : Block) (o : Nat) : Byte :=
  match rowOf o with
  | .cmd => byteOf b.cmd o
  | .status => byteOf b.status (o - 0x04)
  | .data r => b.regByte r (o - r.offset)
  | .reserved => 0

/-- The written mark of the byte at offset `o`: only the data registers' bytes have one (R34). -/
def Block.markAt (b : Block) (o : Nat) : Bool := decide (0x08 ≤ o) && b.marks[o - 0x08]?.getD false

/-- The marks with those of the `n` bytes from offset `o` set (R34). -/
def setMarks (m : Vector Bool 44) (o n : Nat) : Vector Bool 44 :=
  Vector.ofFn fun i => m[i] || (decide (o ≤ i.val + 0x08) && decide (i.val + 0x08 < o + n))

/-- Every one of the `n` bytes from offset `o` of the data registers is written (R34). -/
def Block.written (b : Block) (o n : Nat) : Bool := (List.range n).all fun k => b.markAt (o + k)

/-- Every byte of each of the registers `rs` is written (R34). -/
def Block.allWritten (b : Block) (rs : List DataReg) : Bool := rs.all fun r => b.written r.offset r.bytes

/-- A use of data-register bytes goes on: they are `written`, or `onUnwritten` says that the fault is recorded
(notes/assumptions/1.md). -/
def State.usable (s : State) (written : Bool) : Bool := written || decide (s.onUnwritten = .hold)

/-- The model fault `f` arises unless the bytes used are `written` (R203). The first to arise is kept for the rest of the
run. -/
def State.noting (s : State) (written : Bool) (f : Fault) : State :=
  if written then s else { s with modelFault := s.modelFault.or (some f) }

end Sys2Proof.Machine
end

