-- ==== Sys2Proof/Machine/Ops.lean ====
section
/-! DEFINITION. The operations the commands and the accesses share: writing a register with its marks, reporting
success, raising an error, reading operands, and reading and writing bytes of the window. -/

namespace Sys2Proof.Machine

open Sys2Proof

/-- A command's write of LAT, all its bytes marked (R34). -/
def Block.writeLat (b : Block) (v : F64) : Block :=
  { b with lat := v, marks := setMarks b.marks DataReg.lat.offset DataReg.lat.bytes }

/-- A command's write of LNG, all its bytes marked (R34). -/
def Block.writeLng (b : Block) (v : F64) : Block :=
  { b with lng := v, marks := setMarks b.marks DataReg.lng.offset DataReg.lng.bytes }

/-- A command's write of LATFRAC, all its bytes marked (R34). -/
def Block.writeLatFrac (b : Block) (v : Word) : Block :=
  { b with latFrac := v, marks := setMarks b.marks DataReg.latFrac.offset DataReg.latFrac.bytes }

/-- A command's write of LNGFRAC, all its bytes marked (R34). -/
def Block.writeLngFrac (b : Block) (v : Word) : Block :=
  { b with lngFrac := v, marks := setMarks b.marks DataReg.lngFrac.offset DataReg.lngFrac.bytes }

/-- A command's write of KEY, all its bytes marked (R34). -/
def Block.writeKey (b : Block) (v : DWord) : Block :=
  { b with key := v, marks := setMarks b.marks DataReg.key.offset DataReg.key.bytes }

/-- A command's write of HASH, all its bytes marked (R34). -/
def Block.writeHash (b : Block) (v : Chars) : Block :=
  { b with hash := v, marks := setMarks b.marks DataReg.hash.offset DataReg.hash.bytes }

/-- `setStatus` (R30): all of STATUS at once, OP from the OPCODE field of CMD. -/
def Block.setStatus (b : Block) (err : BitVec 3) (axis : BitVec 1) (idx : BitVec 4) (chr : Byte) : Block :=
  { b with status := statusWord (opcodeField b.cmd) err axis idx chr }

/-- `ok()` (R30). -/
def Block.ok (b : Block) : Block := b.setStatus errOk 0 0 0

/-- The errors of spec/60_exceptions.md R202, with the information each carries. -/
inductive CommandError where
  /-- RANGE_ERROR: axis 0 is latitude, 1 longitude. -/
  | range (axis : BitVec 1)
  /-- INVALID_CHARACTER: the first invalid byte `c` of HASH and its index `j`. -/
  | invalidCharacter (j : BitVec 4) (c : Byte)
  /-- ILLEGAL_COMMAND. -/
  | illegalCommand
  deriving DecidableEq, Repr

/-- `raise` (R30, R201): the block's whole answer to an error. It writes STATUS with the error's code and fields
and leaves every data register, every written mark and CMD unchanged. Nothing else is saved and there is nothing to
return to (R206, R207). -/
def Block.raise (b : Block) : CommandError → Block
  | .range axis => b.setStatus errRange axis 0 0
  | .invalidCharacter j c => b.setStatus errInvalidCharacter 0 j c
  | .illegalCommand => b.setStatus errIllegalCommand 0 0 0

/-- A command: it reads all its operand registers `rs` (R86, R204), where an unwritten byte is UnwrittenOperand before
anything else (R34, R204), then changes the block by `effect`, which looks at nothing but the block as it was. -/
def runCommand (rs : List DataReg) (effect : Block → Block) (s : State) : Host.Outcome State Fault Refusal :=
  let w := s.block.allWritten rs
  if s.usable w then .next { s.noting w .unwrittenOperand with block := effect s.block } else .fault .unwrittenOperand

/-- The block with the byte at offset `o` stored by a host, its mark set where it is a data register's byte; a write
to any other row stores nothing here (R58). -/
def Block.storeByte (b : Block) (o : Nat) (x : Byte) : Block :=
  match rowOf o with
  | .data .lat => { b with lat := withByte b.lat (o - 0x08) x, marks := setMarks b.marks o 1 }
  | .data .lng => { b with lng := withByte b.lng (o - 0x10) x, marks := setMarks b.marks o 1 }
  | .data .latFrac => { b with latFrac := withByte b.latFrac (o - 0x18) x, marks := setMarks b.marks o 1 }
  | .data .lngFrac => { b with lngFrac := withByte b.lngFrac (o - 0x1C) x, marks := setMarks b.marks o 1 }
  | .data .key => { b with key := withByte b.key (o - 0x20) x, marks := setMarks b.marks o 1 }
  | .data .hash => { b with hash := b.hash.setIfInBounds (o - 0x28) x, marks := setMarks b.marks o 1 }
  | .cmd | .status | .reserved => b

/-- The block with the `n` low bytes of `v` stored from offset `o` up, lowest byte first (R52, R58). -/
def Block.storeBytes (b : Block) (o : Nat) (v : DWord) : Nat → Block
  | 0 => b
  | n + 1 => (b.storeBytes o v n).storeByte (o + n) (byteOf v n)

/-- The `n` bytes from offset `o` as one value, lowest byte first, zero-extended to 64 bits (R52, R57). -/
def Block.loadBytes (b : Block) (o : Nat) : Nat → DWord
  | 0 => 0
  | n + 1 => b.loadBytes o n ||| (BitVec.setWidth 64 (b.windowByte (o + n)) <<< (8 * n))

/-- The block after reset event number `k` (R230): CMD and STATUS zero, every mark clear, and each byte of the data
registers a free value (R232; notes/assumptions/2.md). -/
def Block.afterReset (k : Nat) : Block :=
  let byte (r : DataReg) (i : Nat) : Byte := Config.resetByte k (r.offset + i)
  let dword (r : DataReg) : DWord := byte r 7 ++ byte r 6 ++ byte r 5 ++ byte r 4 ++ byte r 3 ++ byte r 2 ++ byte r 1 ++ byte r 0
  let word (r : DataReg) : Word := byte r 3 ++ byte r 2 ++ byte r 1 ++ byte r 0
  { cmd := 0
    status := 0
    lat := dword .lat
    lng := dword .lng
    latFrac := word .latFrac
    lngFrac := word .lngFrac
    key := dword .key
    hash := Vector.ofFn fun i => byte .hash i.val
    marks := Vector.replicate 44 false }

end Sys2Proof.Machine
end

