-- ==== Sys2Proof/Machine/Base32.lean ====
section
/-! DEFINITION. The base-32 codec: the alphabet, validation, integer-to-string, string-to-integer and the meanings
of K2S, S2K and VALID (spec/42_base32.md). -/

namespace Sys2Proof.Machine

open Sys2Proof

/-- The alphabet in byte codes, in index order (spec/00_scope.md R10, spec/42_base32.md R150): an immutable
constant (R33). -/
def alphabet : List Byte :=
  [0x30, 0x31, 0x32, 0x33, 0x34, 0x35, 0x36, 0x37]
    ++ [0x38, 0x39, 0x62, 0x63, 0x64, 0x65, 0x66, 0x67]
    ++ [0x68, 0x6A, 0x6B, 0x6D, 0x6E, 0x70, 0x71, 0x72]
    ++ [0x73, 0x74, 0x75, 0x76, 0x77, 0x78, 0x79, 0x7A]

/-- `ALPHAB` (R150): the byte code of the character at index `i`. -/
def alphab (i : BitVec 5) : Byte := alphabet.getD i.toNat 0

/-- The index of `c` in `cs`, whose first element has index `i`. -/
def indexFrom (c : Byte) : Nat → List Byte → Option (BitVec 5)
  | _, [] => none
  | i, x :: xs => if x = c then some (BitVec.ofNat 5 i) else indexFrom c (i + 1) xs

/-- `INDEXB` (R150): the index of the byte `c`, or none where `c` is no valid character. -/
def indexb (c : Byte) : Option (BitVec 5) := indexFrom c 0 alphabet

/-- The first byte of `cs` that is no valid character, with its index; the first element of `cs` has index `j`. -/
def firstInvalid : Nat → List Byte → Option (BitVec 4 × Byte)
  | _, [] => none
  | j, c :: cs => if indexb c = none then some (BitVec.ofNat 4 j, c) else firstInvalid (j + 1) cs

/-- `validate` (R151): none is `ok`. -/
def validate (h : Chars) : Option (BitVec 4 × Byte) := firstInvalid 0 h.toList

/-- `n` turns of `keyToString`'s loop from the value `v` (R153): the top 5 bits select a character, then the value
is shifted left by 5. -/
def keyChars : Nat → DWord → List Byte
  | 0, _ => []
  | n + 1, v => alphab (v.extractLsb' 59 5) :: keyChars n (v <<< 5)

/-- The loop gives one character a turn. -/
theorem keyChars_length (n : Nat) : ∀ v, (keyChars n v).length = n := by
  induction n with
  | zero => intro v; rfl
  | succ n ih => intro v; simp [keyChars, ih]

/-- `keyToString` (R153). -/
def keyToString (k : DWord) : Chars := ⟨(keyChars 12 k).toArray, by simp [keyChars_length]⟩

/-- `stringToKey`'s loop over the characters `cs` from the running result `r` (R154): shift left by 5, OR the index
in. Its precondition is that every character is valid, so `none` does not arise (R245; notes/assumptions/10.md). -/
def stringAccumulate : DWord → List Byte → DWord
  | r, [] => r
  | r, c :: cs => stringAccumulate ((r <<< 5) ||| BitVec.setWidth 64 ((indexb c).getD 0)) cs

/-- `stringToKey` (R154): the final shift is PAD_W = 64 - 5 * 12 = 4 (R4). -/
def stringToKey (h : Chars) : DWord := stringAccumulate 0 h.toList <<< (64 - 5 * 12)

/-- K2S (R155). -/
def execK2s (s : State) : Host.Outcome State Fault Refusal :=
  runCommand [.key] (fun b => (b.writeHash (keyToString b.key)).ok) s

/-- S2K (R156). -/
def execS2k (s : State) : Host.Outcome State Fault Refusal :=
  runCommand [.hash] (fun b =>
    match validate b.hash with
    | some (j, c) => b.raise (.invalidCharacter j c)
    | none => (b.writeKey (stringToKey b.hash)).ok) s

/-- VALID (R157). -/
def execValid (s : State) : Host.Outcome State Fault Refusal :=
  runCommand [.hash] (fun b =>
    match validate b.hash with
    | some (j, c) => b.raise (.invalidCharacter j c)
    | none => b.ok) s

end Sys2Proof.Machine
end

