-- ==== Sys2Proof/Machine/Interleave.lean ====
section
/-! DEFINITION. The bit interleaver: interleave, deinterleave and the meanings of ILV and DILV
(spec/41_interleave.md). -/

namespace Sys2Proof.Machine

open Sys2Proof

/-- Bit `i` of `v` moved to bit `p` of a 64-bit value of zeros. -/
def bitTo64 {w : Nat} (v : BitVec w) (i p : Nat) : DWord := BitVec.setWidth 64 (BitVec.ofBool (v.getLsbD i)) <<< p

/-- Bit `i` of `v` moved to bit `p` of a 32-bit value of zeros. -/
def bitTo32 {w : Nat} (v : BitVec w) (i p : Nat) : Word := BitVec.setWidth 32 (BitVec.ofBool (v.getLsbD i)) <<< p

/-- The first `n` turns of `interleave`'s loop (R132): bit i of `a` to key bit 2i, bit i of `b` to key bit 2i+1. -/
def interleaveBits (a b : Word) : Nat → DWord
  | 0 => 0
  | i + 1 => interleaveBits a b i ||| bitTo64 a i (2 * i) ||| bitTo64 b i (2 * i + 1)

/-- `interleave` (R132): `a` is the latitude fraction, `b` the longitude fraction. -/
def interleave (a b : Word) : DWord := interleaveBits a b 32

/-- The first `n` turns of `deinterleave`'s loop for the bits that start at key bit `odd`: 0 for the latitude
fraction, 1 for the longitude fraction (R132). -/
def deinterleaveBits (k : DWord) (odd : Nat) : Nat → Word
  | 0 => 0
  | i + 1 => deinterleaveBits k odd i ||| bitTo32 k (2 * i + odd) i

/-- `deinterleave` (R132): the latitude fraction, then the longitude fraction. -/
def deinterleave (k : DWord) : Word × Word := (deinterleaveBits k 0 32, deinterleaveBits k 1 32)

/-- ILV (R130). -/
def execIlv (s : State) : Host.Outcome State Fault Refusal :=
  runCommand [.latFrac, .lngFrac] (fun b => (b.writeKey (interleave b.latFrac b.lngFrac)).ok) s

/-- DILV (R131). -/
def execDilv (s : State) : Host.Outcome State Fault Refusal :=
  runCommand [.key] (fun b =>
    ((b.writeLatFrac (deinterleave b.key).1).writeLngFrac (deinterleave b.key).2).ok) s

end Sys2Proof.Machine
end

