-- ==== Sys2Proof/Machine/Float64.lean ====
section
/-! DEFINITION. IEEE 754 binary64 as spec/00_scope.md R8 uses it: `le64`, `add64`, `sub64`, `mul64`, `div64`
(round to nearest, ties to even), `toF64` and `floor` (spec/93_implementation_defined.md G1).

Every finite binary64 value is a whole number of units of 2^-1074, the smallest subnormal. An operation converts
its operands to units, computes exactly on integers, and rounds once. -/

namespace Sys2Proof.Machine.Float64

open Sys2Proof

/-- 2^n. Written with small exponents, because Lean's elaborator does not evaluate a power of 257 or more. -/
def pow2 (n : Nat) : Nat := 2 ^ (n % 64) * (2 ^ 64) ^ (n / 64)

/-- How many units make 1.0. -/
def one : Nat := pow2 1074

/-- The sign bit. -/
def sign (x : F64) : Bool := x.getLsbD 63

/-- Bits [62:0]: exponent and fraction, which order the magnitudes. -/
def magBits (x : F64) : Nat := x.toNat % 2 ^ 63

/-- The biased exponent, bits [62:52]. -/
def expField (x : F64) : Nat := magBits x / 2 ^ 52

/-- The fraction field, bits [51:0]. -/
def fracField (x : F64) : Nat := magBits x % 2 ^ 52

/-- Bits [62:0] of an infinity. -/
def infBits : Nat := 0x7FF0000000000000

/-- A NaN, of any sign and payload. -/
def isNaN (x : F64) : Bool := decide (infBits < magBits x)

/-- An infinity. -/
def isInf (x : F64) : Bool := decide (magBits x = infBits)

/-- Neither a NaN nor an infinity. -/
def isFinite (x : F64) : Bool := decide (magBits x < infBits)

/-- The magnitude that bits [62:0] of value `m` encode, in units: subnormal (exponent field 0) or normal. An
infinity's pattern comes out larger than every finite magnitude. -/
def magUnits (m : Nat) : Nat :=
  if m / 2 ^ 52 = 0 then m else (2 ^ 52 + m % 2 ^ 52) * pow2 (m / 2 ^ 52 - 1)

/-- The value of a finite `x` in units of 2^-1074. -/
def units (x : F64) : Int :=
  if sign x then -(magUnits (magBits x) : Int) else (magUnits (magBits x) : Int)

/-- `a / b` rounded to the nearest integer, ties to even. -/
def roundDiv (a b : Nat) : Nat :=
  if 2 * (a % b) < b then a / b
  else if b < 2 * (a % b) then a / b + 1
  else a / b + a / b % 2

/-- Bits [62:0] of the binary64 magnitude nearest to `num / den` units, ties to even. With `k` such that the
quotient has 53 significant bits above 2^k units, the encoding of `s * 2^k` units is `k * 2^52 + s`: a carry out
of the significand raises the exponent by itself, and k = 0 covers the subnormals. What is too large is an
infinity. -/
def roundMag (num den : Nat) : Nat :=
  let k := Nat.log2 (num / den) - 52
  min (k * 2 ^ 52 + roundDiv num (den * pow2 k)) infBits

/-- The encoding with sign `neg` and bits [62:0] of value `mag`. -/
def pack (neg : Bool) (mag : Nat) : F64 := BitVec.ofNat 64 ((if neg then 2 ^ 63 else 0) + mag)

/-- A quiet NaN whose sign and payload are free (`Config.nanChoice`; notes/assumptions/9.md). -/
def nan (a b : F64) : F64 := 0x7FF8000000000000 ||| (Config.nanChoice a b &&& 0x8007FFFFFFFFFFFF)

/-- `le64`: the ordered comparison a ≤ b, false when either operand is a NaN (R8). -/
def le64 (a b : F64) : Bool := !isNaN a && !isNaN b && decide (units a ≤ units b)

/-- -x: the sign bit complemented. -/
def neg64 (x : F64) : F64 := x ^^^ 0x8000000000000000

/-- `add64` (R8). An exact sum of zero is +0, but for (-0) + (-0) = -0. -/
def add64 (a b : F64) : F64 :=
  if isNaN a || isNaN b then nan a b
  else if isInf a then (if isInf b && (sign a != sign b) then nan a b else a)
  else if isInf b then b
  else
    let u := units a + units b
    if u = 0 then pack (sign a && sign b) 0
    else pack (decide (u < 0)) (roundMag u.natAbs 1)

/-- `sub64` (R8). -/
def sub64 (a b : F64) : F64 := add64 a (neg64 b)

/-- `mul64` (R8). -/
def mul64 (a b : F64) : F64 :=
  let s := sign a != sign b
  if isNaN a || isNaN b then nan a b
  else if isInf a then (if magBits b = 0 then nan a b else pack s infBits)
  else if isInf b then (if magBits a = 0 then nan a b else pack s infBits)
  else pack s (roundMag (magUnits (magBits a) * magUnits (magBits b)) one)

/-- `div64` (R8). -/
def div64 (a b : F64) : F64 :=
  let s := sign a != sign b
  if isNaN a || isNaN b then nan a b
  else if isInf a then (if isInf b then nan a b else pack s infBits)
  else if isInf b then pack s 0
  else if magBits b = 0 then (if magBits a = 0 then nan a b else pack s infBits)
  else pack s (roundMag (magUnits (magBits a) * one) (magUnits (magBits b)))

/-- `toF64`: an integer as binary64, exact below 2^53 (R8). -/
def toF64 (n : Nat) : F64 := pack false (roundMag (n * one) 1)

/-- `floor`: the largest integer not greater than the finite value `q` (R8). -/
def floor (q : F64) : Int := units q / (one : Int)

/-- The binary64 value nearest to ±`num`/`den`, ties to even: what a decimal literal stands for
(spec/30_encoding.md R87). -/
def nearest (neg : Bool) (num den : Nat) : F64 := pack neg (roundMag (num * one) den)

end Sys2Proof.Machine.Float64
end

