-- ==== Sys2Proof/Machine/Mapper.lean ====
section
/-! DEFINITION. The Coordinate Mapper: the primitives and the meanings of MAPLAT, MAPLNG, UNMAPLAT and UNMAPLNG
(spec/40_mapper.md). -/

namespace Sys2Proof.Machine

open Sys2Proof Sys2Proof.Machine.Float64

/-- LAT_MIN = -90.0 (spec/00_scope.md R5). -/
def latMin : F64 := 0xC056800000000000

/-- LAT_MAX = 90.0 (R5). -/
def latMax : F64 := 0x4056800000000000

/-- LAT_SPAN = 180.0 (R5). -/
def latSpan : F64 := 0x4066800000000000

/-- LNG_MIN = -180.0 (R5). -/
def lngMin : F64 := 0xC066800000000000

/-- LNG_MAX = 180.0 (R5). -/
def lngMax : F64 := 0x4066800000000000

/-- LNG_SPAN = 360.0 (R5). -/
def lngSpan : F64 := 0x4076800000000000

/-- 4294967296.0, that is 2^32 as binary64 (R100, R105). -/
def two32 : F64 := 0x41F0000000000000

/-- `inRange` (R103): ordered comparisons, both ends inclusive. -/
def inRange (v lo hi : F64) : Bool := le64 lo v && le64 v hi

/-- `checkLat` (R103). -/
def checkLat (v : F64) : Bool := inRange v latMin latMax

/-- `checkLng` (R103). -/
def checkLng (v : F64) : Bool := inRange v lngMin lngMax

/-- The fraction of the integer `i` in [0, 2^32]: 2^32 saturates to 0xFFFFFFFF (R101). -/
def saturate (i : Int) : Word := if i = 2 ^ 32 then 0xFFFFFFFF else BitVec.ofInt 32 i

/-- `i` of R100, the floor of the quotient in binary64 arithmetic, in the order the formula is written. -/
def quotientBinary64 (v lo span : F64) : Int :=
  let d := sub64 v lo
  let n := mul64 two32 d
  let q := div64 n span
  floor q

/-- `i` of R102, the floor of the quotient in exact rational arithmetic on the binary64 values. -/
def quotientExact (v lo span : F64) : Int := 2 ^ 32 * (units v - units lo) / units span

/-- `mapFrac` (R100, R102), under `MapArith`. Precondition: `inRange v lo (lo + span)`, which every command that
maps checks first (R104; notes/assumptions/9.md). -/
def mapFrac (arith : Config.MapArith) (v lo span : F64) : Word :=
  match arith with
  | .binary64 => saturate (quotientBinary64 v lo span)
  | .exact => saturate (quotientExact v lo span)

/-- `unmapFrac` (R105): min + (fraction / 2^32) * (max - min) in binary64, in the order written. -/
def unmapFrac (f : Word) (lo span : F64) : F64 :=
  let t := div64 (toF64 f.toNat) two32
  let u := mul64 t span
  add64 lo u

/-- The latitude fraction of `v` (R106). -/
def mapLat (arith : Config.MapArith) (v : F64) : Word := mapFrac arith v latMin latSpan

/-- The longitude fraction of `v` (R107). -/
def mapLng (arith : Config.MapArith) (v : F64) : Word := mapFrac arith v lngMin lngSpan

/-- The latitude of the fraction `f` (R108). -/
def unmapLat (f : Word) : F64 := unmapFrac f latMin latSpan

/-- The longitude of the fraction `f` (R109). -/
def unmapLng (f : Word) : F64 := unmapFrac f lngMin lngSpan

/-- MAPLAT (R106). -/
def execMaplat (s : State) : Host.Outcome State Fault Refusal :=
  runCommand [.lat] (fun b =>
    if checkLat b.lat then (b.writeLatFrac (mapLat s.params.mapArith b.lat)).ok else b.raise (.range 0)) s

/-- MAPLNG (R107). -/
def execMaplng (s : State) : Host.Outcome State Fault Refusal :=
  runCommand [.lng] (fun b =>
    if checkLng b.lng then (b.writeLngFrac (mapLng s.params.mapArith b.lng)).ok else b.raise (.range 1)) s

/-- UNMAPLAT (R108). -/
def execUnmaplat (s : State) : Host.Outcome State Fault Refusal :=
  runCommand [.latFrac] (fun b => (b.writeLat (unmapLat b.latFrac)).ok) s

/-- UNMAPLNG (R109). -/
def execUnmaplng (s : State) : Host.Outcome State Fault Refusal :=
  runCommand [.lngFrac] (fun b => (b.writeLng (unmapLng b.lngFrac)).ok) s

end Sys2Proof.Machine
end

