-- ==== Sys2Proof/Machine/Composed.lean ====
section
/-! DEFINITION. The meanings of ENC, DEC and NOP (spec/43_composed.md). -/

namespace Sys2Proof.Machine

open Sys2Proof

/-- ENC's results from the two fractions (R180): LATFRAC, LNGFRAC, KEY and HASH. -/
def Block.writeEncoded (b : Block) (a c : Word) : Block :=
  let k := interleave a c
  (((b.writeLatFrac a).writeLngFrac c).writeKey k).writeHash (keyToString k)

/-- DEC's results from the key (R181): KEY, LATFRAC, LNGFRAC, LAT and LNG. -/
def Block.writeDecoded (b : Block) (k : DWord) : Block :=
  let a := (deinterleave k).1
  let c := (deinterleave k).2
  ((((b.writeKey k).writeLatFrac a).writeLngFrac c).writeLat (unmapLat a)).writeLng (unmapLng c)

/-- ENC (R180): latitude is checked before longitude (R204). -/
def execEnc (s : State) : Host.Outcome State Fault Refusal :=
  runCommand [.lat, .lng] (fun b =>
    if !checkLat b.lat then b.raise (.range 0)
    else if !checkLng b.lng then b.raise (.range 1)
    else (b.writeEncoded (mapLat s.params.mapArith b.lat) (mapLng s.params.mapArith b.lng)).ok) s

/-- DEC (R181): it always validates first (R245). -/
def execDec (s : State) : Host.Outcome State Fault Refusal :=
  runCommand [.hash] (fun b =>
    match validate b.hash with
    | some (j, c) => b.raise (.invalidCharacter j c)
    | none => (b.writeDecoded (stringToKey b.hash)).ok) s

/-- NOP (R182). -/
def execNop (s : State) : Host.Outcome State Fault Refusal :=
  runCommand [] (fun b => b.ok) s

end Sys2Proof.Machine
end

