-- ==== Sys2Proof/Machine/Dispatch.lean ====
section
/-! DEFINITION. exec: one arm per command, each a direct call of its meaning. -/

namespace Sys2Proof.Machine

open Sys2Proof

def exec (i : Instr) (s : State) : Host.Outcome State Fault Refusal :=
  match i with
  | .nop => Sys2Proof.Machine.execNop s
  | .maplat => Sys2Proof.Machine.execMaplat s
  | .maplng => Sys2Proof.Machine.execMaplng s
  | .unmaplat => Sys2Proof.Machine.execUnmaplat s
  | .unmaplng => Sys2Proof.Machine.execUnmaplng s
  | .ilv => Sys2Proof.Machine.execIlv s
  | .dilv => Sys2Proof.Machine.execDilv s
  | .k2s => Sys2Proof.Machine.execK2s s
  | .s2k => Sys2Proof.Machine.execS2k s
  | .valid => Sys2Proof.Machine.execValid s
  | .enc => Sys2Proof.Machine.execEnc s
  | .dec => Sys2Proof.Machine.execDec s

end Sys2Proof.Machine
end

