-- ==== Sys2Proof/Machine/Bus.lean ====
section
/-! DEFINITION. What an arrival does: a command word executed, a host read, a host write, an access outside the
window, a reset (spec/20_memory.md R51 to R60, spec/30_encoding.md R82, spec/70_reset_and_hazards.md R230). -/

namespace Sys2Proof.Machine

open Sys2Proof

/-- An illegal command word (R84, R85): it reads no operand and reports ILLEGAL_COMMAND (R204). -/
def execIllegal (s : State) : Host.Outcome State Fault Refusal :=
  runCommand [] (fun b => b.raise .illegalCommand) s

/-- `execute` (R82): the command that `w` selects, or ILLEGAL_COMMAND. -/
def execute (w : Word) (s : State) : Host.Outcome State Fault Refusal :=
  match decode w with
  | .command i => exec i s
  | .illegal _ => execIllegal s

/-- CMD holds `w` (R27). -/
def State.storeCmd (s : State) (w : Word) : State := { s with block := { s.block with cmd := w } }

/-- The answer `a` goes to `host`. -/
def State.reply (s : State) (host : Nat) (a : Answer) : State := { s with replies := ⟨host, a⟩ :: s.replies }

/-- The outcome with the answer `a` given to `host` where the step goes on. -/
def answering (host : Nat) (a : Answer) : Host.Outcome State Fault Refusal → Host.Outcome State Fault Refusal
  | .next t => .next (t.reply host a)
  | .fault f => .fault f
  | .refused r => .refused r

/-- A legal read of `n` bytes at offset `o` (`MemRead`, R57). It changes nothing in the block. One that covers an
unwritten byte is UnwrittenRead. -/
def readWindow (host o n : Nat) (s : State) : Host.Outcome State Fault Refusal :=
  match rowOf o with
  | .data _ =>
    let w := s.block.written o n
    if s.usable w then .next ((s.noting w (.unwrittenRead host)).reply host (.data n (s.block.loadBytes o n)))
    else .fault (.unwrittenRead host)
  | .cmd | .status | .reserved => .next (s.reply host (.data n (s.block.loadBytes o n)))

/-- A legal write of the `n` low bytes of `v` at offset `o` (`MemWrite`, R58). A CMD write stores the word and
executes it in the same step, and is answered only then (R82). -/
def writeWindow (host o n : Nat) (v : DWord) (s : State) : Host.Outcome State Fault Refusal :=
  match rowOf o with
  | .cmd => answering host .written (execute (v.setWidth 32) (s.storeCmd (v.setWidth 32)))
  | .status | .reserved => .next (s.reply host .written)
  | .data _ => .next ({ s with block := s.block.storeBytes o v n }.reply host .written)

/-- The bus address of an access. -/
def Access.addr : Access → Nat
  | .read a _ => a
  | .write a _ _ => a

/-- The width of an access in bytes. -/
def Access.width : Access → Nat
  | .read _ n => n
  | .write _ n _ => n

/-- The address is in the window [BASE, BASE + 64) (R51). -/
def inWindow (base addr : Nat) : Bool := decide (base ≤ addr) && decide (addr < base + 64)

/-- An access of `host` arrives: outside the window it does not reach the block (R51; notes/assumptions/5.md), an
illegal one is a bus error that changes nothing (R56), and a legal one is a read or a write. -/
def access (host : Nat) (a : Access) (s : State) : Host.Outcome State Fault Refusal :=
  let o := a.addr - s.params.base
  if !inWindow s.params.base a.addr then .next (s.reply host .notOurs)
  else if !legal o a.width then .fault (.busError host)
  else match a with
    | .read _ n => readWindow host o n s
    | .write _ n v => writeWindow host o n v s

/-- The platform resets the block (R230). What is in `inbox` arrives after the reset, and the answers given and
a model fault that has arisen stay (R203). -/
def resetEvent (s : State) : State :=
  { s with block := Block.afterReset s.resets, resets := s.resets + 1 }

end Sys2Proof.Machine
end

