-- ==== Sys2Proof/Machine/HostNotation.lean ====
section
/-! DEFINITION. The host notation and its pseudo-instructions as lists of accesses (spec/30_encoding.md R87, R88). The
host's control flow (labels, `goto`, `halt`) is the host's own and out of scope; `checkok` gives its read and its
condition. -/

namespace Sys2Proof.Machine

open Sys2Proof

/-- `wr<8n> REG+k, v`, for the register at offset `reg` (R87). -/
def wr (base n reg k : Nat) (v : DWord) : Access := .write (base + reg + k) n v

/-- `rd<8n> REG+k` (R87). -/
def rd (base n reg k : Nat) : Access := .read (base + reg + k) n

/-- `cmd M`, that is `wr32 CMD, word(M)` (R87, R88). -/
def cmd (base : Nat) (i : Instr) : Access := wr base 4 Row.cmd.first 0 ((encode i).setWidth 64)

/-- `n` characters of `s` from character `j` as one value, the first in the low byte (R53). -/
def charsValue (s : Chars) (j : Nat) : Nat → DWord
  | 0 => 0
  | n + 1 => charsValue s j n ||| (BitVec.setWidth 64 (s[j + n]?.getD 0) <<< (8 * n))

/-- `sethash "s"` (R88). -/
def sethash (base : Nat) (s : Chars) : List Access :=
  [wr base 8 DataReg.hash.offset 0 (charsValue s 0 8), wr base 4 DataReg.hash.offset 8 (charsValue s 8 4)]

/-- `encode lat, lng` (R88). -/
def encodePair (base : Nat) (lat lng : F64) : List Access :=
  [wr base 8 DataReg.lat.offset 0 lat, wr base 8 DataReg.lng.offset 0 lng, cmd base .enc]

/-- `decode "s"` (R88). -/
def decodeString (base : Nat) (s : Chars) : List Access := sethash base s ++ [cmd base .dec]

/-- `checkok L` reads STATUS (R88) … -/
def checkok (base : Nat) : Access := rd base 4 Row.status.first 0

/-- … and goes to L where STATUS [2:0] ≠ 0 (R88). -/
def checkokTaken (v : DWord) : Bool := decide (v.extractLsb' 0 3 ≠ 0)

/-- The host `host` issues the accesses `as`, after what is already to come (R63). -/
def State.issue (s : State) (host : Nat) (as : List Access) : State :=
  { s with inbox := s.inbox ++ as.map (Event.access host) }

end Sys2Proof.Machine
end

