-- ==== Sys2Proof/Machine/Step.lean ====
section
/-! DEFINITION. One step of the machine: the next arrival at the window takes effect completely
(spec/20_memory.md R60, R63). -/

namespace Sys2Proof.Machine

open Sys2Proof

/-- One step. The oldest arrival takes effect; with none to come, the block waits and holds its registers
unchanged (spec/10_state.md R31, spec/60_exceptions.md R215). -/
def step (s : State) : Host.Outcome State Fault Refusal :=
  match s.inbox with
  | [] => .next s
  | .access host a :: rest => access host a { s with inbox := rest }
  | .reset :: rest => .next (resetEvent { s with inbox := rest })

/-- `s` with what a host does to run the table word `w`, steps (1) and (2) of spec/70_reset_and_hazards.md R234: every
byte of the data registers is written, with the value it holds, and a CMD write of the word by host 0 is the next
arrival. The block fetches nothing, and a command comes to it in a CMD write only (R31, R82; notes/assumptions/8.md). -/
def State.withFetchWord (s : State) (nbits w : Nat) : State :=
  { s with
    block := { s.block with marks := Vector.replicate 44 true }
    inbox := .access 0 (wr s.params.base 4 Row.cmd.first 0 (BitVec.ofNat 64 (w % 2 ^ nbits % 2 ^ 32))) :: s.inbox }

end Sys2Proof.Machine
end

