-- ==== Sys2Proof/Safety.lean ====
section
/-! DEFINITION. The terms claims are made in: which registers a command reads and writes, when it is ready, what a
frame is, the invariant of the machine, and what a run without a fault is. -/

namespace Sys2Proof.Machine

open Sys2Proof

/-- The "reads" column of spec/10_state.md R36. -/
def reads : Instr → List DataReg
  | .nop => []
  | .maplat => [.lat]
  | .maplng => [.lng]
  | .unmaplat => [.latFrac]
  | .unmaplng => [.lngFrac]
  | .ilv => [.latFrac, .lngFrac]
  | .dilv => [.key]
  | .k2s => [.key]
  | .s2k => [.hash]
  | .valid => [.hash]
  | .enc => [.lat, .lng]
  | .dec => [.hash]

/-- The "writes on success" column of R36. -/
def writes : Instr → List DataReg
  | .nop => []
  | .maplat => [.latFrac]
  | .maplng => [.lngFrac]
  | .unmaplat => [.lat]
  | .unmaplng => [.lng]
  | .ilv => [.key]
  | .dilv => [.latFrac, .lngFrac]
  | .k2s => [.hash]
  | .s2k => [.key]
  | .valid => []
  | .enc => [.latFrac, .lngFrac, .key, .hash]
  | .dec => [.key, .latFrac, .lngFrac, .lat, .lng]

/-- Every byte of the command's operand registers is written (R34). -/
def OperandsWritten (i : Instr) (b : Block) : Prop := ∀ r ∈ reads i, b.written r.offset r.bytes = true

/-- The command goes on: every byte of its operand registers is written (R34), or `onUnwritten` says that the fault is
recorded (U7; notes/assumptions/1.md). -/
def Ready (i : Instr) (s : State) : Prop := s.onUnwritten = .hold ∨ OperandsWritten i s.block

/-- The frame of a command that writes the data registers `rs` and STATUS: everything else of the machine is as
before, each byte of the window and each written mark included, and no model fault has arisen. -/
structure OnlyChanges (rs : List DataReg) (s t : State) : Prop where
  inbox : t.inbox = s.inbox
  replies : t.replies = s.replies
  resets : t.resets = s.resets
  params : t.params = s.params
  onUnwritten : t.onUnwritten = s.onUnwritten
  modelFault : t.modelFault = s.modelFault
  cmd : t.block.cmd = s.block.cmd
  window : ∀ o < 0x40, rowOf o ≠ .status → (∀ r ∈ rs, rowOf o ≠ .data r) →
    t.block.windowByte o = s.block.windowByte o
  marks : ∀ o < 0x40, (∀ r ∈ rs, rowOf o ≠ .data r) → t.block.markAt o = s.block.markAt o

/-- STATUS of `t` is what a command that ends with these fields leaves, with OP from CMD of `s` (R30). -/
def Reports (s t : State) (err : BitVec 3) (axis : BitVec 1) (idx : BitVec 4) (chr : Byte) : Prop :=
  t.block.status = statusWord (opcodeField s.block.cmd) err axis idx chr

/-- The command `i` answers a next state that reports success and differs from `s` in the registers `rs`, all of
whose bytes are then marked as written, and in STATUS only; of that state `post` holds. -/
def Completes (i : Instr) (s : State) (rs : List DataReg) (post : State → Prop) : Prop :=
  ∃ t, exec i s = .next t ∧ post t ∧ Reports s t errOk 0 0 0 ∧ OnlyChanges rs s t ∧
    ∀ r ∈ rs, t.block.written r.offset r.bytes = true

/-- The command `i` answers a next state that reports this error and differs from `s` in STATUS only (R201). -/
def Fails (i : Instr) (s : State) (err : BitVec 3) (axis : BitVec 1) (idx : BitVec 4) (chr : Byte) : Prop :=
  ∃ t, exec i s = .next t ∧ Reports s t err axis idx chr ∧ OnlyChanges [] s t

/-- A CMD write of the word `w`, up to the answer to the host: CMD stores `w`, then `w` is executed (R82). -/
def issue (w : Word) (s : State) : Host.Outcome State Fault Refusal := execute w (s.storeCmd w)

/-- The commands that can report RANGE_ERROR (spec/60_exceptions.md R202). -/
def mayRangeError : List Instr := [.maplat, .maplng, .enc]

/-- The commands that can report INVALID_CHARACTER (R202). -/
def mayInvalidCharacter : List Instr := [.s2k, .valid, .dec]

/-- STATUS and CMD as the rules leave them at every moment. -/
structure StatusInv (b : Block) : Prop where
  /-- Reserved bits read 0 (R28). -/
  rsvd : statusRsvd b.status = 0
  /-- OP is the OPCODE field of the last command word written, legal or not (R28). -/
  op : statusOp b.status = opcodeField b.cmd
  /-- The codes 4 to 7 are never produced (R29). -/
  err : statusErr b.status = errOk ∨ statusErr b.status = errRange ∨ statusErr b.status = errInvalidCharacter ∨
    statusErr b.status = errIllegalCommand
  /-- AXIS is 0 unless ERR = 1 (R28). -/
  axis : statusErr b.status ≠ errRange → statusAxis b.status = 0
  /-- CHAR and IDX are 0 unless ERR = 2 (R28). -/
  char : statusErr b.status ≠ errInvalidCharacter → statusChar b.status = 0 ∧ statusIdx b.status = 0
  /-- Where ERR = 2, IDX is below 12 (R28) and CHAR is no valid character (R202). -/
  invalid : statusErr b.status = errInvalidCharacter →
    (statusIdx b.status).toNat < 12 ∧ indexb (statusChar b.status) = none
  /-- RANGE_ERROR comes from MAPLAT, MAPLNG and ENC only, and AXIS = 1 not from MAPLAT, AXIS = 0 not from MAPLNG (R202). -/
  rangeFrom : statusErr b.status = errRange → ∃ i ∈ mayRangeError, b.cmd = encode i ∧
    (i = .maplat → statusAxis b.status = 0) ∧ (i = .maplng → statusAxis b.status = 1)
  /-- INVALID_CHARACTER comes from S2K, VALID and DEC only (R202). -/
  invalidFrom : statusErr b.status = errInvalidCharacter → ∃ i ∈ mayInvalidCharacter, b.cmd = encode i
  /-- ILLEGAL_COMMAND is reported of exactly the words that select no command (R84, R85). -/
  illegalIff : statusErr b.status = errIllegalCommand ↔ wellFormedWord b.cmd = false
  /-- DONE is 0 only where no command has completed since reset, and then STATUS and CMD are 0 (R28, R235). -/
  notDone : statusDone b.status = 0 → b.status = 0 ∧ b.cmd = 0

/-- The host of an arrival is one of the hosts (R6). -/
def Event.known (p : Config.Params) : Event → Bool
  | .access host _ => decide (host < p.hostCount)
  | .reset => true

/-- The invariant of the machine. -/
structure Inv (s : State) : Prop where
  status : StatusInv s.block
  params : s.params.wellFormed = true
  /-- A use of an unwritten byte ends the run (R34, R203, U7) … -/
  stops : s.onUnwritten = .stop
  /-- … so no run goes on with a model fault (R203). -/
  unfaulted : s.modelFault = none
  hosts : ∀ e ∈ s.inbox, e.known s.params = true

/-- The characters of the source's alphabet, in index order (spec/00_scope.md R10). -/
def alphabetChars : List Char :=
  ['0', '1', '2', '3', '4', '5', '6', '7', '8', '9', 'b', 'c', 'd', 'e', 'f', 'g']
    ++ ['h', 'j', 'k', 'm', 'n', 'p', 'q', 'r', 's', 't', 'u', 'v', 'w', 'x', 'y', 'z']

/-- An arrival that is no illegal access (R55): a reset, an access outside the window, or a legal one. -/
def Event.allowed (base : Nat) : Event → Bool
  | .access _ a => !inWindow base a.addr || legal (a.addr - base) a.width
  | .reset => true

/-- An arrival that may change the data-register byte at offset `o`: a reset, a CMD write whose command writes the
register that holds the byte, or a write of the byte itself (R58). -/
def Event.touches (base o : Nat) : Event → Prop
  | .reset => True
  | .access _ (.read _ _) => False
  | .access _ (.write addr n v) =>
    (addr = base ∧ n = 4 ∧ ∃ i, decode (v.setWidth 32) = .command i ∧ ∃ r ∈ writes i, rowOf o = .data r) ∨
      (base ≤ addr ∧ addr - base ≤ o ∧ o < addr - base + n)

/-- `k` steps from `s` go on without a fault or a refusal. -/
def RunsOn (k : Nat) (s : State) : Prop := ∃ t, Sys2Proof.core.run k s = .next t

/-- `k` steps from `s` go on and end successfully: no model fault has arisen ("a faulted state is never a successful end
of a run", R203). -/
def SucceedsIn (k : Nat) (s : State) : Prop := ∃ t, Sys2Proof.core.run k s = .next t ∧ t.modelFault = none

end Sys2Proof.Machine
end

