-- ==== Sys2Proof/Certificates/Slice0/Obligations.lean ====
section
/-! DEFINITION. The statements for the provers: what the numbered rules of spec/ say of the machine. -/

open Sys2Proof Sys2Proof.Machine Sys2Proof.Machine.Float64

/-! ## Reset and the idle block -/

/-- spec/10_state.md R35: what reset leaves. The data registers' contents are unspecified, so nothing is said of them. -/
def Obligations.ResetStateAsSpecified : Prop :=
  State.reset.modelFault = none ∧ State.reset.block.cmd = 0x00000000 ∧ State.reset.block.status = 0x00000000 ∧
  statusDone State.reset.block.status = 0 ∧ statusErr State.reset.block.status = 0 ∧ statusOp State.reset.block.status = 0 ∧
  (∀ o < 0x40, State.reset.block.markAt o = false) ∧
  (∀ o < 0x40, rowOf o = .reserved → State.reset.block.windowByte o = 0) ∧
  (∀ i : BitVec 5, alphab i = BitVec.ofNat 8 (alphabetChars.getD i.toNat ' ').toNat) ∧
  (latMin = 0xC056800000000000 ∧ latMax = 0x4056800000000000 ∧ lngMin = 0xC066800000000000 ∧ lngMax = 0x4066800000000000)

/-- spec/70_reset_and_hazards.md R230: a reset between two accesses clears CMD, STATUS and every written mark (44 marks,
notes/assumptions/3.md), whatever the block held, and the accesses that follow are taken at once. -/
def Obligations.ResetEventClearsControl : Prop :=
  ∀ (s : State) (rest : List Event), s.inbox = .reset :: rest →
    ∃ t, step s = .next t ∧ t.block.cmd = 0 ∧ t.block.status = 0 ∧ (∀ o < 0x40, t.block.markAt o = false) ∧
      (∀ o < 0x40, rowOf o = .reserved → t.block.windowByte o = 0) ∧
      t.inbox = rest ∧ t.replies = s.replies ∧ t.params = s.params ∧
      t.onUnwritten = s.onUnwritten ∧ t.modelFault = s.modelFault

/-- spec/60_exceptions.md R215, spec/10_state.md R31: with no arrival the block waits and holds its registers. -/
def Obligations.IdleBlockHolds : Prop :=
  ∀ s : State, s.inbox = [] → step s = .next s

/-! ## Encoding -/

/-- spec/30_encoding.md R80, R81, R85: the bytes of every command decode to it, and its word is a legal one. -/
def Obligations.EncodeDecodeRoundTrip : Prop :=
  ∀ i : Instr, decodeBytes (encodeBytes i) = .command i ∧ decode (encode i) = .command i ∧
    decodeTableWord 32 (encode i).toNat = some i ∧ wellFormedWord (encode i) = true

/-- R81, R84, R85: a list of bytes decodes to a command exactly where it is that command's four bytes, and a word
selects a command exactly where RSVD is 0 and OPCODE is at most 0x0B. -/
def Obligations.DecodeAcceptsOnlyEncodings : Prop :=
  (∀ (bs : List Byte) (i : Instr), decodeBytes bs = .command i ↔ bs = encodeBytes i) ∧
  (∀ (w : Word) (i : Instr), decode w = .command i ↔ w = encode i) ∧
  (∀ w : Word, wellFormedWord w = true ↔ ∃ i, decode w = .command i)

/-- R84: a word whose RSVD field is not zero reports ILLEGAL_COMMAND, whatever its OPCODE and whatever is written. -/
def Obligations.ReservedBitsAreIllegal : Prop :=
  ∀ (s : State) (w : Word), w >>> 8 ≠ 0 →
    ∃ t, issue w s = .next t ∧ t.block.cmd = w ∧ statusErr t.block.status = 3 ∧
      t.block.status = statusWord (w.setWidth 8) 3 0 0 0 ∧ OnlyChanges [] (s.storeCmd w) t

/-- R85: the opcode map; the reserved OPCODEs report ILLEGAL_COMMAND; every one of the 2^32 words has exactly one
outcome. -/
def Obligations.OpcodeMapIsTotal : Prop :=
  decode 0x00000000 = .command .nop ∧ decode 0x00000001 = .command .maplat ∧
  decode 0x00000002 = .command .maplng ∧ decode 0x00000003 = .command .unmaplat ∧
  decode 0x00000004 = .command .unmaplng ∧ decode 0x00000005 = .command .ilv ∧
  decode 0x00000006 = .command .dilv ∧ decode 0x00000007 = .command .k2s ∧
  decode 0x00000008 = .command .s2k ∧ decode 0x00000009 = .command .valid ∧
  decode 0x0000000A = .command .enc ∧ decode 0x0000000B = .command .dec ∧
  (∀ (s : State) (w : Word), w >>> 8 = 0 → 0x0C ≤ w.toNat →
    ∃ t, issue w s = .next t ∧ t.block.cmd = w ∧
      t.block.status = statusWord (w.setWidth 8) 3 0 0 0 ∧ OnlyChanges [] (s.storeCmd w) t) ∧
  (∀ w : Word, (∃! i, decode w = .command i ∧ ∀ s, execute w s = exec i s) ∨
    ∀ s, ∃ t, execute w s = .next t ∧ statusErr t.block.status = 3)

/-! ## The step and the invariant -/

/-- R82: a legal CMD write stores the word and executes it, and only then is answered. A step on a CMD write whose
word decodes to a command is `exec` of that command, and `withFetchWord` places such a write after
every operand is written, so that the next step runs it (notes/assumptions/8.md). -/
def Obligations.StepExecutesTheCmdWrite : Prop :=
  (∀ (s : State) (host : Nat) (v : DWord) (rest : List Event),
    s.inbox = .access host (.write s.params.base 4 v) :: rest →
    step s = answering host .written (issue (v.setWidth 32) { s with inbox := rest }) ∧
    ∀ i, decode (v.setWidth 32) = .command i →
      step s = answering host .written (exec i ({ s with inbox := rest }.storeCmd (v.setWidth 32)))) ∧
  (∀ (s : State) (i : Instr),
    step (s.withFetchWord 32 (encode i).toNat) = answering 0 .written
      (exec i ({ s with block := { s.block with marks := Vector.replicate 44 true } }.storeCmd (encode i))) ∧
    ∃ t, step (s.withFetchWord 32 (encode i).toNat) = .next t)

/-- R59, R82: "Only a CMD write has an effect beyond storing its own bytes." No other access changes CMD or STATUS, and
no read changes the block. -/
def Obligations.OnlyCmdWritesExecute : Prop :=
  ∀ (s t : State) (host : Nat) (a : Access) (rest : List Event), s.inbox = .access host a :: rest →
    (∀ v, a ≠ .write s.params.base 4 v) → step s = .next t →
    t.block.cmd = s.block.cmd ∧ t.block.status = s.block.status ∧
      (∀ addr n, a = .read addr n → t.block = s.block)

/-- What every step leaves alone: the parameters, the arrivals after the one it takes, and the answers already given,
to which an access adds exactly one, for its own host. -/
def Obligations.StepTakesOneArrival : Prop :=
  ∀ s t : State, step s = .next t →
    t.params = s.params ∧ t.onUnwritten = s.onUnwritten ∧ t.inbox = s.inbox.tail ∧
    (∀ host a rest, s.inbox = .access host a :: rest → ∃ x, t.replies = ⟨host, x⟩ :: s.replies) ∧
    ((∀ host a rest, s.inbox ≠ .access host a :: rest) → t.replies = s.replies)

/-- The invariant holds right after reset. -/
def Obligations.InvariantHoldsAtReset : Prop := Inv State.reset

/-- Every step keeps the invariant: STATUS and CMD stay as R28, R29, R84, R85, R202 and R235 say they read, BASE stays a
multiple of 64, every access to come is of one of the hosts, a use of an unwritten byte ends the run (R34, R203), and no run
goes on with a model fault. -/
def Obligations.StepKeepsInvariant : Prop :=
  ∀ s t : State, Inv s → step s = .next t → Inv t

/-! ## Host accesses -/

/-- spec/20_memory.md R55: the access table, row by row. -/
def Obligations.LegalAccessTable : Prop :=
  ∀ o n : Nat, o < 0x40 → (legal o n = true ↔
    (o = 0x00 ∧ n = 4) ∨
    (0x04 ≤ o ∧ o + n ≤ 0x08 ∧ n ∣ o ∧ (n = 1 ∨ n = 2 ∨ n = 4)) ∨
    (0x08 ≤ o ∧ o + n ≤ 0x10 ∧ n ∣ o ∧ (n = 1 ∨ n = 2 ∨ n = 4 ∨ n = 8)) ∨
    (0x10 ≤ o ∧ o + n ≤ 0x18 ∧ n ∣ o ∧ (n = 1 ∨ n = 2 ∨ n = 4 ∨ n = 8)) ∨
    (0x18 ≤ o ∧ o + n ≤ 0x1C ∧ n ∣ o ∧ (n = 1 ∨ n = 2 ∨ n = 4)) ∨
    (0x1C ≤ o ∧ o + n ≤ 0x20 ∧ n ∣ o ∧ (n = 1 ∨ n = 2 ∨ n = 4)) ∨
    (0x20 ≤ o ∧ o + n ≤ 0x28 ∧ n ∣ o ∧ (n = 1 ∨ n = 2 ∨ n = 4 ∨ n = 8)) ∨
    (0x28 ≤ o ∧ o + n ≤ 0x34 ∧ n ∣ o ∧ (n = 1 ∨ n = 2 ∨ n = 4 ∨ (n = 8 ∧ o = 0x28))) ∨
    (0x34 ≤ o ∧ o + n ≤ 0x40 ∧ n ∣ o ∧ (n = 1 ∨ n = 2 ∨ n = 4 ∨ (n = 8 ∧ o = 0x38))))

/-- R56: an illegal access to the window is a bus error of its host; no run goes on after it, so no register byte is
written, no command executes and no data is given. -/
def Obligations.IllegalAccessIsBusError : Prop :=
  ∀ (s : State) (host : Nat) (a : Access) (rest : List Event), s.inbox = .access host a :: rest →
    s.params.base ≤ a.addr → a.addr < s.params.base + 64 → legal (a.addr - s.params.base) a.width = false →
    step s = .fault (.busError host) ∧ ∀ k, Sys2Proof.core.run (k + 1) s = .fault (.busError host)

/-- R51: an access outside the window does not reach the block. That the step goes on, with an answer that says nothing,
is the model's own (notes/assumptions/5.md). -/
def Obligations.OutsideAccessDoesNotReachTheBlock : Prop :=
  ∀ (s : State) (host : Nat) (a : Access) (rest : List Event), s.inbox = .access host a :: rest →
    (a.addr < s.params.base ∨ s.params.base + 64 ≤ a.addr) →
    ∃ t, step s = .next t ∧ t.block = s.block ∧ t.inbox = rest ∧ t.replies = ⟨host, .notOurs⟩ :: s.replies ∧
      t.modelFault = s.modelFault

/-- R52, R53: the window is little-endian, and HASH is an array of characters. -/
def Obligations.WindowIsLittleEndian : Prop :=
  ∀ b : Block,
    (∀ k < 4, b.windowByte (0x00 + k) = b.cmd.extractLsb' (8 * k) 8) ∧
    (∀ k < 4, b.windowByte (0x04 + k) = b.status.extractLsb' (8 * k) 8) ∧
    (∀ k < 8, b.windowByte (0x08 + k) = b.lat.extractLsb' (8 * k) 8) ∧
    (∀ k < 8, b.windowByte (0x10 + k) = b.lng.extractLsb' (8 * k) 8) ∧
    (∀ k < 4, b.windowByte (0x18 + k) = b.latFrac.extractLsb' (8 * k) 8) ∧
    (∀ k < 4, b.windowByte (0x1C + k) = b.lngFrac.extractLsb' (8 * k) 8) ∧
    (∀ k < 8, b.windowByte (0x20 + k) = b.key.extractLsb' (8 * k) 8) ∧
    (∀ j, (h : j < 12) → b.windowByte (0x28 + j) = b.hash[j]) ∧
    (∀ o < 0x40, 0x34 ≤ o → b.windowByte o = 0) ∧
    b.loadBytes 0x28 4 = (b.hash[3] ++ b.hash[2] ++ b.hash[1] ++ b.hash[0]).setWidth 64 ∧
    b.loadBytes 0x28 8 = b.hash[7] ++ b.hash[6] ++ b.hash[5] ++ b.hash[4] ++ b.hash[3] ++ b.hash[2] ++ b.hash[1] ++ b.hash[0]

/-- R57, R203: a legal read answers the bytes it names, lowest first, zero-extended, and changes nothing in the block; a
second read after it answers the same. A read that covers an unwritten byte is `UnwrittenRead`: the run ends in it or
keeps it and goes on, as `onUnwritten` says (the model's own; notes/assumptions/1.md). Any other read raises nothing. -/
def Obligations.ReadAnswersItsBytes : Prop :=
  ∀ (s : State) (host addr n : Nat) (rest : List Event), s.inbox = .access host (.read addr n) :: rest →
    s.params.base ≤ addr → addr < s.params.base + 64 → legal (addr - s.params.base) n = true →
    ((s.onUnwritten = .stop ∧ (rowOf (addr - s.params.base)).isData = true ∧
        ∃ k < n, s.block.markAt (addr - s.params.base + k) = false) → step s = .fault (.unwrittenRead host)) ∧
    (¬ (s.onUnwritten = .stop ∧ (rowOf (addr - s.params.base)).isData = true ∧
        ∃ k < n, s.block.markAt (addr - s.params.base + k) = false) →
      ∃ (v : DWord) (m : Option Fault),
        step s = .next ({ s with inbox := rest, modelFault := m }.reply host (.data n v)) ∧
        (((rowOf (addr - s.params.base)).isData = true ∧ ∃ k < n, s.block.markAt (addr - s.params.base + k) = false) →
          m = s.modelFault.or (some (.unwrittenRead host))) ∧
        (¬ ((rowOf (addr - s.params.base)).isData = true ∧ ∃ k < n, s.block.markAt (addr - s.params.base + k) = false) →
          m = s.modelFault) ∧
        (∀ k < n, byteOf v k = s.block.windowByte (addr - s.params.base + k)) ∧ v.toNat < 2 ^ (8 * n) ∧
        ∀ host' rest', rest = .access host' (.read addr n) :: rest' →
          Sys2Proof.core.run 2 s =
            .next (({ s with inbox := rest', modelFault := m }.reply host (.data n v)).reply host' (.data n v)))

/-- R54, R58: a legal write to a data register replaces exactly its bytes and marks them; one to STATUS or the reserved
range is ignored; one to CMD stores the word and executes it. -/
def Obligations.WriteReplacesItsBytes : Prop :=
  ∀ (s : State) (host addr n : Nat) (v : DWord) (rest : List Event), s.inbox = .access host (.write addr n v) :: rest →
    s.params.base ≤ addr → addr < s.params.base + 64 → legal (addr - s.params.base) n = true →
    ((rowOf (addr - s.params.base)).isData = true →
      ∃ b, step s = .next ({ s with inbox := rest, block := b }.reply host .written) ∧
        b.cmd = s.block.cmd ∧ b.status = s.block.status ∧
        ∀ o < 0x40,
          b.windowByte o = (if addr - s.params.base ≤ o ∧ o < addr - s.params.base + n
            then byteOf v (o - (addr - s.params.base)) else s.block.windowByte o) ∧
          b.markAt o = (s.block.markAt o || decide (addr - s.params.base ≤ o ∧ o < addr - s.params.base + n))) ∧
    (rowOf (addr - s.params.base) = .status ∨ rowOf (addr - s.params.base) = .reserved →
      step s = .next ({ s with inbox := rest }.reply host .written)) ∧
    (rowOf (addr - s.params.base) = .cmd →
      step s = answering host .written (issue (v.setWidth 32) { s with inbox := rest }))

/-- R63: in every run, whatever the interleaving of the hosts, a data-register byte and its mark stay as they are until
an arrival that writes them: a write of the byte, a command that writes its register, or a reset. -/
def Obligations.BytesHoldUntilWritten : Prop :=
  ∀ (k : Nat) (s t : State) (o : Nat), Sys2Proof.core.run k s = .next t → o < 0x40 → (rowOf o).isData = true →
    (∀ e ∈ s.inbox.take k, ¬ e.touches s.params.base o) →
    t.block.windowByte o = s.block.windowByte o ∧ t.block.markAt o = s.block.markAt o

/-- Of the legal accesses (R55, R203): a run of them does not stop where a use of an unwritten byte goes on (`onUnwritten =
hold`, the model's own; notes/assumptions/1.md); and, whatever `onUnwritten` says, where every byte is written, no reset is
to come and no fault is recorded, it does not stop and no fault arises. Under `stop`, the treatment of R34 and R57, a use
of an unwritten byte does end the run. That a run also goes on past an access outside the window, of which R51 says
nothing, and with no arrival to come, is the model's own (notes/assumptions/5.md, notes/assumptions/8.md). -/
def Obligations.LegalAccessesNeverStop : Prop :=
  ∀ s : State, (∀ e ∈ s.inbox, e.allowed s.params.base = true) →
    (s.onUnwritten = .hold → ∀ k, RunsOn k s) ∧
    ((∀ o < 0x40, (rowOf o).isData = true → s.block.markAt o = true) → .reset ∉ s.inbox → s.modelFault = none →
      ∀ k, SucceedsIn k s)

/-- R203, R56, of the model faults that a step records in `State.modelFault` and goes on from, which happens under
`onUnwritten = hold` only, the model's own (notes/assumptions/1.md): a recorded fault is never cleared, by nothing that
arrives; under `stop` nothing is recorded; one is recorded only where a command reads an operand that is not written, or a
read covers an unwritten byte; and a run that ends with none recorded had none at any step. (A fault that ends the run, a
bus error among them, is kept by the run itself: `IllegalAccessIsBusError`.) -/
def Obligations.ModelFaultsAreNeverCleared : Prop :=
  (∀ (k : Nat) (s t : State) (f : Fault), s.modelFault = some f → Sys2Proof.core.run k s = .next t →
    t.modelFault = some f) ∧
  (∀ s t : State, s.onUnwritten = .stop → step s = .next t → t.modelFault = s.modelFault) ∧
  (∀ (s t : State) (f : Fault), s.modelFault = none → step s = .next t → t.modelFault = some f →
    (f = .unwrittenOperand ∧ ∃ host v rest i, s.inbox = .access host (.write s.params.base 4 v) :: rest ∧
      decode (v.setWidth 32) = .command i ∧ ¬ OperandsWritten i s.block) ∨
    ∃ host addr n rest, f = .unwrittenRead host ∧ s.inbox = .access host (.read addr n) :: rest ∧
      s.params.base ≤ addr ∧ (rowOf (addr - s.params.base)).isData = true ∧
      ∃ k < n, s.block.markAt (addr - s.params.base + k) = false) ∧
  (∀ (k j : Nat) (s : State), SucceedsIn k s → j ≤ k → SucceedsIn j s)

/-! ## What holds of every command -/

/-- spec/10_state.md R36, the write columns: a command that succeeds changes exactly the registers of its row, which are
then written, and STATUS; one that fails changes STATUS only; no command writes CMD. A command
whose operands are not written goes on only under `onUnwritten = hold`, the model's own (notes/assumptions/1.md), where
`UnwrittenOperand` is then recorded; nothing is recorded otherwise. -/
def Obligations.CommandsWriteTheirRegistersOnly : Prop :=
  ∀ (i : Instr) (s t : State), exec i s = .next t →
    (OperandsWritten i s.block → t.modelFault = s.modelFault) ∧
    (s.onUnwritten = .stop → OperandsWritten i s.block) ∧
    (¬ OperandsWritten i s.block → t.modelFault = s.modelFault.or (some .unwrittenOperand)) ∧
    (statusErr t.block.status = 0 → OnlyChanges (writes i) { s with modelFault := t.modelFault } t ∧
      ∀ r ∈ writes i, t.block.written r.offset r.bytes = true) ∧
    (statusErr t.block.status ≠ 0 → OnlyChanges [] { s with modelFault := t.modelFault } t)

/-- R36, the read column, and R86: what a command reports and writes depends on its operand registers alone (and on
`MapArith` and CMD). -/
def Obligations.CommandsReadTheirOperandsOnly : Prop :=
  ∀ (i : Instr) (s s' t t' : State), exec i s = .next t → exec i s' = .next t' →
    s.params.mapArith = s'.params.mapArith → s.block.cmd = s'.block.cmd →
    (∀ r ∈ reads i, ∀ k < r.bytes, s.block.regByte r k = s'.block.regByte r k) →
    t.block.status = t'.block.status ∧
    (statusErr t.block.status = 0 → ∀ r ∈ writes i, ∀ k < r.bytes, t.block.regByte r k = t'.block.regByte r k)

/-- R30: every command word, legal or not, writes all of STATUS, whatever STATUS was; a field that does not apply to the
outcome is 0. -/
def Obligations.CommandsWriteAllOfStatus : Prop :=
  ∀ (w : Word) (s t : State), issue w s = .next t →
    statusDone t.block.status = 1 ∧ statusRsvd t.block.status = 0 ∧ statusOp t.block.status = opcodeField t.block.cmd ∧
    t.block.cmd = w ∧ (statusErr t.block.status ≠ 1 → statusAxis t.block.status = 0) ∧
    (statusErr t.block.status ≠ 2 → statusIdx t.block.status = 0 ∧ statusChar t.block.status = 0) ∧
    ∀ old : Word, issue w { s with block := { s.block with status := old } } = .next t

/-- spec/60_exceptions.md R201: the state after an error is the state before the command, apart from STATUS and CMD. The
exception for `modelFault` is for a command whose operands are not written, which goes on to an error only under
`onUnwritten = hold`, the model's own (notes/assumptions/1.md); under `stop` no error follows an unwritten operand (R204). -/
def Obligations.ErrorsChangeStatusOnly : Prop :=
  ∀ (w : Word) (s t : State), issue w s = .next t → statusErr t.block.status ≠ 0 →
    t = { s with modelFault := t.modelFault, block := { s.block with cmd := w, status := t.block.status } } ∧
    t.block.status = statusWord (opcodeField w) (statusErr t.block.status) (statusAxis t.block.status)
      (statusIdx t.block.status) (statusChar t.block.status) ∧
    ((∀ i, decode w = .command i → OperandsWritten i s.block) ∨ s.onUnwritten = .stop → t.modelFault = s.modelFault)

/-- R202: the errors and what each is reported of. -/
def Obligations.ErrorsComeFromTheirConditions : Prop :=
  ∀ (w : Word) (s t : State), issue w s = .next t →
    (statusErr t.block.status = 1 ↔
      (w = encode .maplat ∧ checkLat s.block.lat = false ∧ statusAxis t.block.status = 0 ∨
       w = encode .maplng ∧ checkLng s.block.lng = false ∧ statusAxis t.block.status = 1 ∨
       w = encode .enc ∧ checkLat s.block.lat = false ∧ statusAxis t.block.status = 0 ∨
       w = encode .enc ∧ checkLat s.block.lat = true ∧ checkLng s.block.lng = false ∧ statusAxis t.block.status = 1)) ∧
    (statusErr t.block.status = 2 ↔
      ((w = encode .s2k ∨ w = encode .valid ∨ w = encode .dec) ∧
        ∃ j c, validate s.block.hash = some (j, c) ∧ statusIdx t.block.status = j ∧ statusChar t.block.status = c)) ∧
    (statusErr t.block.status = 3 ↔ wellFormedWord w = false) ∧
    (statusErr t.block.status).toNat ≤ 3 ∧ statusOp t.block.status = opcodeField w

/-- R34, R203, R232: `UnwrittenOperand` arises exactly where a byte of one of the command's operand registers is
unwritten. The run ends in it or keeps it and goes on, as `onUnwritten` says (the model's own; notes/assumptions/1.md). -/
def Obligations.UnwrittenOperandFaults : Prop :=
  ∀ (i : Instr) (s : State),
    (s.onUnwritten = .stop →
      (exec i s = .fault .unwrittenOperand ↔ ∃ r ∈ reads i, ∃ k < r.bytes, s.block.markAt (r.offset + k) = false) ∧
      ∀ f, exec i s = .fault f → f = .unwrittenOperand) ∧
    (s.onUnwritten = .hold →
      ∃ t, exec i s = .next t ∧
        ((∃ r ∈ reads i, ∃ k < r.bytes, s.block.markAt (r.offset + k) = false) →
          t.modelFault = s.modelFault.or (some .unwrittenOperand)) ∧
        ((∀ r ∈ reads i, ∀ k < r.bytes, s.block.markAt (r.offset + k) = true) → t.modelFault = s.modelFault))

/-- The model's own choice (notes/assumptions/1.md), from the other half of spec/93_implementation_defined.md U7: where the
field `onUnwritten` says that a use of an unwritten byte goes on, every command completes and does to the registers what it does with
every byte written, the model fault apart. -/
def Obligations.HeldOperandsReadAsTheirValues : Prop :=
  ∀ (i : Instr) (s : State), s.onUnwritten = .hold →
    ∃ t u, exec i s = .next t ∧
      exec i { s with block := { s.block with marks := Vector.replicate 44 true } } = .next u ∧
      u = { t with modelFault := s.modelFault, block := { t.block with marks := Vector.replicate 44 true } }

/-- R204: decode comes before the operand read, the operand read before the command's own checks, latitude before
longitude, and the lowest invalid index is the one reported. The fault clause is for `onUnwritten = stop`, where the run
ends in the fault (notes/assumptions/1.md); `UnwrittenOperandFaults` has both. -/
def Obligations.OutcomesHaveTheirPriority : Prop :=
  (∀ (w : Word) (s : State), wellFormedWord w = false →
    ∃ t, issue w s = .next t ∧ statusErr t.block.status = 3 ∧ t.modelFault = s.modelFault) ∧
  (∀ (i : Instr) (s : State), s.onUnwritten = .stop → ¬ OperandsWritten i s.block →
    issue (encode i) s = .fault .unwrittenOperand) ∧
  (∀ s : State, OperandsWritten .enc s.block → checkLat s.block.lat = false → Fails .enc s 1 0 0 0) ∧
  (∀ s : State, OperandsWritten .enc s.block → checkLat s.block.lat = true → checkLng s.block.lng = false → Fails .enc s 1 1 0 0) ∧
  (∀ (s : State) (i : Instr) (j : Nat) (h : j < 12), i = .s2k ∨ i = .valid ∨ i = .dec → OperandsWritten i s.block →
    (∀ k, (hk : k < j) → indexb s.block.hash[k] ≠ none) → indexb s.block.hash[j] = none →
    Fails i s 2 0 (BitVec.ofNat 4 j) s.block.hash[j])

/-- R59: executing the same command word twice in a row leaves the same state as executing it once. -/
def Obligations.RepeatedCommandChangesNothing : Prop :=
  ∀ (w : Word) (s t : State), issue w s = .next t → issue w t = .next t

/-! ## The coordinate mapper -/

/-- spec/40_mapper.md R103: the range checks are ordered comparisons, inclusive at both ends. `units v` is the value of
`v` times 2^1074. -/
def Obligations.RangeCheckIsInclusive : Prop :=
  (∀ v : F64, checkLat v = true ↔ isNaN v = false ∧ isInf v = false ∧ -90 * (one : Int) ≤ units v ∧ units v ≤ 90 * (one : Int)) ∧
  (∀ v : F64, checkLng v = true ↔ isNaN v = false ∧ isInf v = false ∧ -180 * (one : Int) ≤ units v ∧ units v ≤ 180 * (one : Int))

/-- R104: NaN, the infinities, -0.0, the subnormals and the neighbours of ±90.0. -/
def Obligations.SpecialValuesMap : Prop :=
  (∀ v : F64, isNaN v = true ∨ isInf v = true → checkLat v = false ∧ checkLng v = false) ∧
  (∀ s : State, OperandsWritten .maplat s.block → isNaN s.block.lat = true ∨ isInf s.block.lat = true → Fails .maplat s 1 0 0 0) ∧
  (∀ s : State, OperandsWritten .maplng s.block → isNaN s.block.lng = true ∨ isInf s.block.lng = true → Fails .maplng s 1 1 0 0) ∧
  (checkLat 0x8000000000000000 = true ∧ checkLng 0x8000000000000000 = true ∧
    ∀ arith, mapLat arith 0x8000000000000000 = 0x80000000 ∧ mapLat arith 0x0000000000000000 = 0x80000000 ∧
      mapLng arith 0x8000000000000000 = 0x80000000 ∧ mapLng arith 0x0000000000000000 = 0x80000000) ∧
  (∀ v : F64, expField v = 0 → fracField v ≠ 0 → checkLat v = true ∧ checkLng v = true ∧
    mapLat .binary64 v = 0x80000000 ∧ mapLng .binary64 v = 0x80000000) ∧
  checkLat 0x4056800000000001 = false ∧ checkLat 0xC056800000000001 = false ∧
  checkLat 0x4056800000000000 = true ∧ checkLat 0xC056800000000000 = true

/-- R100, R101: for an in-range coordinate the floor of the quotient lies in [0, 2^32], and the fraction is that integer,
with 2^32 saturated to 0xFFFFFFFF. -/
def Obligations.MapIsTheSaturatedFloor : Prop :=
  (∀ v : F64, checkLat v = true →
    0 ≤ quotientBinary64 v latMin latSpan ∧ quotientBinary64 v latMin latSpan ≤ 2 ^ 32 ∧
    ((mapLat .binary64 v).toNat : Int) = min (quotientBinary64 v latMin latSpan) (2 ^ 32 - 1)) ∧
  (∀ v : F64, checkLng v = true →
    0 ≤ quotientBinary64 v lngMin lngSpan ∧ quotientBinary64 v lngMin lngSpan ≤ 2 ^ 32 ∧
    ((mapLng .binary64 v).toNat : Int) = min (quotientBinary64 v lngMin lngSpan) (2 ^ 32 - 1)) ∧
  quotientBinary64 latMax latMin latSpan = 2 ^ 32 ∧ quotientBinary64 0x40567FFFFFFFFFFF latMin latSpan = 2 ^ 32 ∧
  quotientBinary64 lngMax lngMin lngSpan = 2 ^ 32

/-- R102: under `MapArith = exact` the fraction f is the floor of the exact quotient, f * span ≤ 2^32 * (v - lo) <
(f + 1) * span, but for v = max, which saturates. -/
def Obligations.ExactMapIsTheExactFloor : Prop :=
  (∀ v : F64, checkLat v = true → units v < 90 * (one : Int) →
    ((mapLat .exact v).toNat : Int) * (180 * (one : Int)) ≤ 2 ^ 32 * (units v + 90 * (one : Int)) ∧
    2 ^ 32 * (units v + 90 * (one : Int)) < ((mapLat .exact v).toNat + 1 : Int) * (180 * (one : Int))) ∧
  (∀ v : F64, checkLng v = true → units v < 180 * (one : Int) →
    ((mapLng .exact v).toNat : Int) * (360 * (one : Int)) ≤ 2 ^ 32 * (units v + 180 * (one : Int)) ∧
    2 ^ 32 * (units v + 180 * (one : Int)) < ((mapLng .exact v).toNat + 1 : Int) * (360 * (one : Int))) ∧
  mapLat .exact latMax = 0xFFFFFFFF ∧ mapLng .exact lngMax = 0xFFFFFFFF ∧
  mapLat .binary64 0x404E31E4E6A7FFFF = 0xD5E34124 ∧ mapLat .exact 0x404E31E4E6A7FFFF = 0xD5E34123

/-- R105: unmap is exact, `lo + f * span / 2^32`; never NaN, infinite, subnormal or -0.0; and strictly increasing. -/
def Obligations.UnmapIsExact : Prop :=
  (∀ f : Word, isFinite (unmapLat f) = true ∧
    2 ^ 32 * units (unmapLat f) = (one : Int) * (-90 * 2 ^ 32 + 180 * (f.toNat : Int)) ∧
    (expField (unmapLat f) = 0 → unmapLat f = 0x0000000000000000)) ∧
  (∀ f : Word, isFinite (unmapLng f) = true ∧
    2 ^ 32 * units (unmapLng f) = (one : Int) * (-180 * 2 ^ 32 + 360 * (f.toNat : Int)) ∧
    (expField (unmapLng f) = 0 → unmapLng f = 0x0000000000000000)) ∧
  unmapLat 0x80000000 = 0x0000000000000000 ∧ unmapLng 0x80000000 = 0x0000000000000000 ∧
  (∀ f g : Word, f < g → units (unmapLat f) < units (unmapLat g) ∧ units (unmapLng f) < units (unmapLng g))

/-- R110: fraction first. Unmapping and mapping again gives the fraction back, under either arithmetic, and UNMAPLAT
then MAPLAT (UNMAPLNG then MAPLNG) leaves LATFRAC (LNGFRAC) as it was. -/
def Obligations.MapOfUnmapIsIdentity : Prop :=
  (∀ (arith : Config.MapArith) (f : Word),
    checkLat (unmapLat f) = true ∧ mapLat arith (unmapLat f) = f ∧
    checkLng (unmapLng f) = true ∧ mapLng arith (unmapLng f) = f) ∧
  (∀ s : State, OperandsWritten .unmaplat s.block → ∃ t u, issue (encode .unmaplat) s = .next t ∧ issue (encode .maplat) t = .next u ∧
    statusErr u.block.status = 0 ∧ u.block.latFrac = s.block.latFrac) ∧
  (∀ s : State, OperandsWritten .unmaplng s.block → ∃ t u, issue (encode .unmaplng) s = .next t ∧ issue (encode .maplng) t = .next u ∧
    statusErr u.block.status = 0 ∧ u.block.lngFrac = s.block.lngFrac)

/-- R111: value first. With e = v - unmap(map(v)) in exact arithmetic, -2^-43 ≤ e ≤ span / 2^32, the upper bound only
under saturation; under `exact`, 0 ≤ e < span / 2^32 below max and e = span / 2^32 at max; and the binary64 fraction is the
exact fraction or one more. -/
def Obligations.UnmapOfMapIsNear : Prop :=
  (∀ v : F64, checkLat v = true →
    -(one : Int) ≤ 2 ^ 43 * (units v - units (unmapLat (mapLat .binary64 v))) ∧
    2 ^ 32 * (units v - units (unmapLat (mapLat .binary64 v))) ≤ 180 * (one : Int) ∧
    (2 ^ 32 * (units v - units (unmapLat (mapLat .binary64 v))) = 180 * (one : Int) →
      quotientBinary64 v latMin latSpan = 2 ^ 32) ∧
    0 ≤ units v - units (unmapLat (mapLat .exact v)) ∧
    (units v < 90 * (one : Int) → 2 ^ 32 * (units v - units (unmapLat (mapLat .exact v))) < 180 * (one : Int)) ∧
    (units v = 90 * (one : Int) → 2 ^ 32 * (units v - units (unmapLat (mapLat .exact v))) = 180 * (one : Int)) ∧
    ((mapLat .binary64 v).toNat = (mapLat .exact v).toNat ∨ (mapLat .binary64 v).toNat = (mapLat .exact v).toNat + 1)) ∧
  (∀ v : F64, checkLng v = true →
    -(one : Int) ≤ 2 ^ 43 * (units v - units (unmapLng (mapLng .binary64 v))) ∧
    2 ^ 32 * (units v - units (unmapLng (mapLng .binary64 v))) ≤ 360 * (one : Int) ∧
    (2 ^ 32 * (units v - units (unmapLng (mapLng .binary64 v))) = 360 * (one : Int) →
      quotientBinary64 v lngMin lngSpan = 2 ^ 32) ∧
    0 ≤ units v - units (unmapLng (mapLng .exact v)) ∧
    (units v < 180 * (one : Int) → 2 ^ 32 * (units v - units (unmapLng (mapLng .exact v))) < 360 * (one : Int)) ∧
    (units v = 180 * (one : Int) → 2 ^ 32 * (units v - units (unmapLng (mapLng .exact v))) = 360 * (one : Int)) ∧
    ((mapLng .binary64 v).toNat = (mapLng .exact v).toNat ∨ (mapLng .binary64 v).toNat = (mapLng .exact v).toNat + 1))

/-- R112: a larger coordinate never gets a smaller fraction; the mapping is asymmetric at the ends. -/
def Obligations.MapIsMonotone : Prop :=
  (∀ (arith : Config.MapArith) (v w : F64), checkLat v = true → checkLat w = true → le64 v w = true →
    mapLat arith v ≤ mapLat arith w) ∧
  (∀ (arith : Config.MapArith) (v w : F64), checkLng v = true → checkLng w = true → le64 v w = true →
    mapLng arith v ≤ mapLng arith w) ∧
  (∀ arith, mapLat arith latMin = 0 ∧ mapLat arith latMax = 0xFFFFFFFF)

/-- R106, R107: MAPLAT and MAPLNG. The clauses on unwritten operands are for runs that end in the fault
(notes/assumptions/1.md). -/
def Obligations.MapCommands : Prop :=
  (decode 0x00000001 = .command .maplat ∧ decode 0x00000002 = .command .maplng) ∧
  (∀ s : State, OperandsWritten .maplat s.block →
    (checkLat s.block.lat = true → Completes .maplat s [.latFrac] fun t =>
      t.block.latFrac = mapLat s.params.mapArith s.block.lat) ∧
    (checkLat s.block.lat = false → Fails .maplat s 1 0 0 0)) ∧
  (∀ s : State, OperandsWritten .maplng s.block →
    (checkLng s.block.lng = true → Completes .maplng s [.lngFrac] fun t =>
      t.block.lngFrac = mapLng s.params.mapArith s.block.lng) ∧
    (checkLng s.block.lng = false → Fails .maplng s 1 1 0 0)) ∧
  (∀ s : State, s.onUnwritten = .stop →
    (¬ OperandsWritten .maplat s.block → exec .maplat s = .fault .unwrittenOperand) ∧
    (¬ OperandsWritten .maplng s.block → exec .maplng s = .fault .unwrittenOperand)) ∧
  (∀ s t : State, s.block.cmd = 0x00000001 →
    (Reports s t 0 0 0 0 ↔ t.block.status = 0x80010000) ∧ (Reports s t 1 0 0 0 ↔ t.block.status = 0x80010001)) ∧
  (∀ s t : State, s.block.cmd = 0x00000002 →
    (Reports s t 0 0 0 0 ↔ t.block.status = 0x80020000) ∧ (Reports s t 1 1 0 0 ↔ t.block.status = 0x80020009)) ∧
  (mapLat .binary64 0xC056800000000000 = 0x00000000 ∧ mapLat .binary64 0x4056800000000000 = 0xFFFFFFFF ∧
    mapLat .binary64 0x8000000000000000 = 0x80000000 ∧ mapLat .binary64 0x4035071DE69AD42C = 0x9DE7FD03) ∧
  (mapLng .binary64 0xC066800000000000 = 0x00000000 ∧ mapLng .binary64 0x4066800000000000 = 0xFFFFFFFF ∧
    mapLng .binary64 0x40667FFFFFFFFFFF = 0xFFFFFFFF ∧ mapLng .binary64 0x0000000000000000 = 0x80000000 ∧
    mapLng .binary64 0x405A7563886594AF = 0xCB428734)

/-- R108, R109: UNMAPLAT and UNMAPLNG, whose errors are none. The clauses on unwritten operands are for runs that end
in the fault (notes/assumptions/1.md). -/
def Obligations.UnmapCommands : Prop :=
  (decode 0x00000003 = .command .unmaplat ∧ decode 0x00000004 = .command .unmaplng) ∧
  (∀ s : State, OperandsWritten .unmaplat s.block → Completes .unmaplat s [.lat] fun t => t.block.lat = unmapLat s.block.latFrac) ∧
  (∀ s : State, OperandsWritten .unmaplng s.block → Completes .unmaplng s [.lng] fun t => t.block.lng = unmapLng s.block.lngFrac) ∧
  (∀ s : State, s.onUnwritten = .stop →
    (¬ OperandsWritten .unmaplat s.block → exec .unmaplat s = .fault .unwrittenOperand) ∧
    (¬ OperandsWritten .unmaplng s.block → exec .unmaplng s = .fault .unwrittenOperand)) ∧
  (∀ s t : State, s.block.cmd = 0x00000003 → (Reports s t 0 0 0 0 ↔ t.block.status = 0x80030000)) ∧
  (∀ s t : State, s.block.cmd = 0x00000004 → (Reports s t 0 0 0 0 ↔ t.block.status = 0x80040000)) ∧
  (unmapLat 0x00000000 = 0xC056800000000000 ∧ unmapLat 0x80000000 = 0x0000000000000000 ∧
    unmapLat 0xFFFFFFFF = 0x40567FFFFFD30000 ∧ unmapLat 0x00000001 = 0xC0567FFFFFD30000 ∧
    unmapLat 0x9DE7FD00 = 0x4035071DE4000000) ∧
  (unmapLng 0x00000000 = 0xC066800000000000 ∧ unmapLng 0x80000000 = 0x0000000000000000 ∧
    unmapLng 0x40000000 = 0xC056800000000000 ∧ unmapLng 0xFFFFFFFF = 0x40667FFFFFD30000 ∧
    unmapLng 0xCB428734 = 0x405A756388480000)

/-! ## The bit interleaver -/

/-- spec/41_interleave.md R132: latitude bits at even positions, longitude bits at odd ones, in both directions; and
the chunks of the string carry them so. -/
def Obligations.InterleaveLayout : Prop :=
  (∀ (a b : Word) (i : Nat), i < 32 →
    (interleave a b).getLsbD (2 * i) = a.getLsbD i ∧ (interleave a b).getLsbD (2 * i + 1) = b.getLsbD i) ∧
  (∀ (k : DWord) (i : Nat), i < 32 →
    (deinterleave k).1.getLsbD i = k.getLsbD (2 * i) ∧ (deinterleave k).2.getLsbD i = k.getLsbD (2 * i + 1)) ∧
  (∀ (a b : Word) (j p : Nat), j < 12 → p < 5 →
    ((interleave a b).extractLsb' (59 - 5 * j) 5).getLsbD p =
      if (59 - 5 * j + p) % 2 = 1 then b.getLsbD ((59 - 5 * j + p) / 2) else a.getLsbD ((59 - 5 * j + p) / 2))

/-- R133: interleave and deinterleave are inverses, and so are ILV and DILV. -/
def Obligations.InterleaveInverses : Prop :=
  (∀ a b : Word, deinterleave (interleave a b) = (a, b)) ∧
  (∀ k : DWord, interleave (deinterleave k).1 (deinterleave k).2 = k) ∧
  (∀ s : State, OperandsWritten .ilv s.block → ∃ t u, issue (encode .ilv) s = .next t ∧ issue (encode .dilv) t = .next u ∧
    u.block.latFrac = s.block.latFrac ∧ u.block.lngFrac = s.block.lngFrac) ∧
  (∀ s : State, OperandsWritten .dilv s.block → ∃ t u, issue (encode .dilv) s = .next t ∧ issue (encode .ilv) t = .next u ∧
    u.block.key = s.block.key)

/-- R134: interleave is bitwise, and comparing two keys compares the pairs (lng31, lat31), (lng30, lat30), … in order. -/
def Obligations.InterleaveIsBitwise : Prop :=
  (∀ a b c d : Word, interleave (a ||| c) (b ||| d) = interleave a b ||| interleave c d) ∧
  (∀ (a a' b b' : Word) (i : Nat), i < 32 → a.getLsbD i = a'.getLsbD i → b.getLsbD i = b'.getLsbD i →
    (interleave a b).getLsbD (2 * i) = (interleave a' b').getLsbD (2 * i) ∧
    (interleave a b).getLsbD (2 * i + 1) = (interleave a' b').getLsbD (2 * i + 1)) ∧
  (∀ a b c d : Word, interleave a b < interleave c d ↔
    ∃ i < 32, (∀ j, i < j → j < 32 → a.getLsbD j = c.getLsbD j ∧ b.getLsbD j = d.getLsbD j) ∧
      ((b.getLsbD i = false ∧ d.getLsbD i = true) ∨
        (b.getLsbD i = d.getLsbD i ∧ a.getLsbD i = false ∧ c.getLsbD i = true)))

/-- R130, R131: ILV and DILV, whose errors are none. The clauses on unwritten operands are for runs that end in the fault
(notes/assumptions/1.md). -/
def Obligations.InterleaveCommands : Prop :=
  (decode 0x00000005 = .command .ilv ∧ decode 0x00000006 = .command .dilv) ∧
  (∀ s : State, OperandsWritten .ilv s.block → Completes .ilv s [.key] fun t =>
    t.block.key = interleave s.block.latFrac s.block.lngFrac) ∧
  (∀ s : State, OperandsWritten .dilv s.block → Completes .dilv s [.latFrac, .lngFrac] fun t =>
    (t.block.latFrac, t.block.lngFrac) = deinterleave s.block.key) ∧
  (∀ s : State, s.onUnwritten = .stop →
    (¬ OperandsWritten .ilv s.block → exec .ilv s = .fault .unwrittenOperand) ∧
    (¬ OperandsWritten .dilv s.block → exec .dilv s = .fault .unwrittenOperand)) ∧
  (∀ s t : State, s.block.cmd = 0x00000005 → (Reports s t 0 0 0 0 ↔ t.block.status = 0x80050000)) ∧
  (∀ s t : State, s.block.cmd = 0x00000006 → (Reports s t 0 0 0 0 ↔ t.block.status = 0x80060000)) ∧
  (interleave 0x00000000 0x00000000 = 0x0000000000000000 ∧ interleave 0xFFFFFFFF 0x00000000 = 0x5555555555555555 ∧
    interleave 0x00000000 0xFFFFFFFF = 0xAAAAAAAAAAAAAAAA ∧ interleave 0x00000001 0x00000000 = 0x0000000000000001 ∧
    interleave 0x00000000 0x00000001 = 0x0000000000000002 ∧ interleave 0x80000000 0x80000000 = 0xC000000000000000 ∧
    interleave 0x9DE7FD03 0xCB428734 = 0xE1DB741DD57B0A25) ∧
  (deinterleave 0x000000000000000F = (0x00000003, 0x00000003) ∧
    deinterleave 0xFFFFFFFFFFFFFFF0 = (0xFFFFFFFC, 0xFFFFFFFC) ∧
    deinterleave 0x0123456789ABCDEF = (0x11BB11BB, 0x0505AFAF) ∧
    deinterleave 0xE1DB741DD57B0A20 = (0x9DE7FD00, 0xCB428734))

/-! ## The base-32 codec -/

/-- spec/42_base32.md R150: a byte is a valid character exactly where it is the code of an alphabet character; `ALPHAB`
and `INDEXB` are each other's inverse on them. -/
def Obligations.AlphabetBytes : Prop :=
  (∀ i : BitVec 5, alphab i = BitVec.ofNat 8 (alphabetChars.getD i.toNat ' ').toNat) ∧
  (∀ i : BitVec 5, indexb (alphab i) = some i) ∧
  (∀ c : Byte, (indexb c).isSome = true ↔
    (0x30 ≤ c.toNat ∧ c.toNat ≤ 0x39) ∨
      (0x62 ≤ c.toNat ∧ c.toNat ≤ 0x7A ∧ c.toNat ≠ 0x69 ∧ c.toNat ≠ 0x6C ∧ c.toNat ≠ 0x6F)) ∧
  (∀ (c : Byte) (i : BitVec 5), indexb c = some i → alphab i = c)

/-- R151: validation answers the lowest invalid index and its byte, or ok where all 12 bytes are valid. -/
def Obligations.ValidateReportsFirstInvalid : Prop :=
  (∀ h : Chars, validate h = none ↔ ∀ j, (hj : j < 12) → indexb h[j] ≠ none) ∧
  (∀ (h : Chars) (j : BitVec 4) (c : Byte), validate h = some (j, c) ↔
    ∃ hj : j.toNat < 12, h[j.toNat] = c ∧ indexb c = none ∧ ∀ k, (hk : k < j.toNat) → indexb h[k] ≠ none)

/-- R153: character j encodes key bits [63-5j:59-5j]; key bits [3:0] affect no character; every character is valid. -/
def Obligations.KeyToStringChunks : Prop :=
  (∀ (k : DWord) (j : Nat) (h : j < 12), (keyToString k)[j] = alphab (k.extractLsb' (59 - 5 * j) 5)) ∧
  (∀ k k' : DWord, k >>> 4 = k' >>> 4 → keyToString k = keyToString k') ∧
  (∀ (k : DWord) (j : Nat) (h : j < 12), indexb (keyToString k)[j] ≠ none)

/-- R154: for a string that validates, key bits [63-5j:59-5j] are the index of character j, and bits [3:0] are 0. -/
def Obligations.StringToKeyChunks : Prop :=
  ∀ h : Chars, validate h = none →
    (∀ j, (hj : j < 12) → indexb h[j] = some ((stringToKey h).extractLsb' (59 - 5 * j) 5)) ∧
    (stringToKey h).extractLsb' 0 4 = 0

/-- R158: (a) K2S then S2K clears the low 4 bits of KEY, (b) S2K then K2S restores HASH, (c) VALID after K2S gives
ERR = 0. -/
def Obligations.CodecLaws : Prop :=
  (∀ k : DWord, stringToKey (keyToString k) = k &&& 0xFFFFFFFFFFFFFFF0) ∧
  (∀ h : Chars, validate h = none → keyToString (stringToKey h) = h) ∧
  (∀ k : DWord, validate (keyToString k) = none) ∧
  (∀ s : State, OperandsWritten .k2s s.block → ∃ t u, issue (encode .k2s) s = .next t ∧ issue (encode .s2k) t = .next u ∧
    u.block.key = s.block.key &&& 0xFFFFFFFFFFFFFFF0) ∧
  (∀ s : State, OperandsWritten .s2k s.block → validate s.block.hash = none →
    ∃ t u, issue (encode .s2k) s = .next t ∧ issue (encode .k2s) t = .next u ∧ u.block.hash = s.block.hash) ∧
  (∀ s : State, OperandsWritten .k2s s.block → ∃ t u, issue (encode .k2s) s = .next t ∧ issue (encode .valid) t = .next u ∧
    u.block.status = 0x80090000)

/-- R159: strings share prefixes as keys share high bits, and byte order of the strings is the order of key bits
[63:4]. -/
def Obligations.StringOrderIsKeyOrder : Prop :=
  (∀ (k1 k2 : DWord) (m : Nat), m ≤ 12 →
    ((∀ j, (h : j < 12) → j < m → (keyToString k1)[j] = (keyToString k2)[j]) ↔ k1 >>> (64 - 5 * m) = k2 >>> (64 - 5 * m))) ∧
  (∀ i j : BitVec 5, i < j → alphab i < alphab j) ∧
  (∀ k1 k2 : DWord, (keyToString k1).toList < (keyToString k2).toList ↔ k1 >>> 4 < k2 >>> 4)

/-- R155: K2S, whose errors are none. The clause on unwritten operands is for runs that end in the fault
(notes/assumptions/1.md). -/
def Obligations.K2sCommand : Prop :=
  decode 0x00000007 = .command .k2s ∧
  (∀ s : State, OperandsWritten .k2s s.block → Completes .k2s s [.hash] fun t => t.block.hash = keyToString s.block.key) ∧
  (∀ s : State, s.onUnwritten = .stop → ¬ OperandsWritten .k2s s.block →
    exec .k2s s = .fault .unwrittenOperand) ∧
  (∀ s t : State, s.block.cmd = 0x00000007 → (Reports s t 0 0 0 0 ↔ t.block.status = 0x80070000)) ∧
  keyToString 0x0000000000000000 = Vector.replicate 12 0x30 ∧
  keyToString 0xFFFFFFFFFFFFFFFF = Vector.replicate 12 0x7A ∧
  keyToString 0x000000000000000F = Vector.replicate 12 0x30 ∧
  keyToString 0x0000000000000010 = #v[0x30, 0x30, 0x30, 0x30, 0x30, 0x30, 0x30, 0x30, 0x30, 0x30, 0x30, 0x31] ∧
  keyToString 0x8000000000000000 = #v[0x68, 0x30, 0x30, 0x30, 0x30, 0x30, 0x30, 0x30, 0x30, 0x30, 0x30, 0x30] ∧
  keyToString 0xE1DB741DD57B0A25 = #v[0x77, 0x37, 0x65, 0x72, 0x38, 0x37, 0x66, 0x70, 0x67, 0x64, 0x35, 0x32]

/-- R156: S2K. The clause on unwritten operands is for runs that end in the fault
(notes/assumptions/1.md). -/
def Obligations.S2kCommand : Prop :=
  decode 0x00000008 = .command .s2k ∧
  (∀ s : State, OperandsWritten .s2k s.block → validate s.block.hash = none → Completes .s2k s [.key] fun t =>
    t.block.key = stringToKey s.block.hash ∧ t.block.key &&& 0xF = 0) ∧
  (∀ (s : State) (j : BitVec 4) (c : Byte), OperandsWritten .s2k s.block → validate s.block.hash = some (j, c) → Fails .s2k s 2 0 j c) ∧
  (∀ s : State, s.onUnwritten = .stop → ¬ OperandsWritten .s2k s.block →
    exec .s2k s = .fault .unwrittenOperand) ∧
  (∀ s t : State, s.block.cmd = 0x00000008 → (Reports s t 0 0 0 0 ↔ t.block.status = 0x80080000) ∧
    (Reports s t 2 0 11 0x61 ↔ t.block.status = 0x800861B2)) ∧
  stringToKey (Vector.replicate 12 0x30) = 0x0000000000000000 ∧
  stringToKey (Vector.replicate 12 0x7A) = 0xFFFFFFFFFFFFFFF0 ∧
  stringToKey #v[0x30, 0x30, 0x30, 0x30, 0x30, 0x30, 0x30, 0x30, 0x30, 0x30, 0x30, 0x7A] = 0x00000000000001F0 ∧
  stringToKey #v[0x77, 0x37, 0x65, 0x72, 0x38, 0x37, 0x66, 0x70, 0x67, 0x64, 0x35, 0x32] = 0xE1DB741DD57B0A20 ∧
  validate #v[0x77, 0x37, 0x65, 0x72, 0x38, 0x37, 0x66, 0x70, 0x67, 0x64, 0x35, 0x61] = some (11, 0x61) ∧
  validate #v[0x57, 0x37, 0x65, 0x72, 0x38, 0x37, 0x66, 0x70, 0x67, 0x64, 0x35, 0x32] = some (0, 0x57)

/-- R157: VALID, which writes no data register. The clause on unwritten operands is for runs that end in the fault
(notes/assumptions/1.md). -/
def Obligations.ValidCommand : Prop :=
  decode 0x00000009 = .command .valid ∧
  (∀ s : State, OperandsWritten .valid s.block → validate s.block.hash = none → Completes .valid s [] fun t => t.block.hash = s.block.hash) ∧
  (∀ (s : State) (j : BitVec 4) (c : Byte), OperandsWritten .valid s.block → validate s.block.hash = some (j, c) →
    Fails .valid s 2 0 j c) ∧
  (∀ s : State, s.onUnwritten = .stop → ¬ OperandsWritten .valid s.block →
    exec .valid s = .fault .unwrittenOperand) ∧
  (∀ s t : State, s.block.cmd = 0x00000009 → (Reports s t 0 0 0 0 ↔ t.block.status = 0x80090000) ∧
    (Reports s t 2 0 11 0x61 ↔ t.block.status = 0x800961B2) ∧ (Reports s t 2 0 0 0x61 ↔ t.block.status = 0x80096102) ∧
    (Reports s t 2 0 5 0x00 ↔ t.block.status = 0x80090052)) ∧
  validate #v[0x77, 0x37, 0x65, 0x72, 0x38, 0x37, 0x66, 0x70, 0x67, 0x64, 0x35, 0x61] = some (11, 0x61) ∧
  validate (Vector.replicate 12 0x61) = some (0, 0x61) ∧
  validate #v[0x77, 0x37, 0x65, 0x72, 0x38, 0x00, 0x66, 0x70, 0x67, 0x64, 0x35, 0x32] = some (5, 0x00)

/-! ## The composed commands -/

/-- spec/43_composed.md R180: ENC. The clause on unwritten operands is for runs that end in the fault
(notes/assumptions/1.md). -/
def Obligations.EncCommand : Prop :=
  decode 0x0000000A = .command .enc ∧
  (∀ s : State, OperandsWritten .enc s.block → checkLat s.block.lat = true → checkLng s.block.lng = true →
    Completes .enc s [.latFrac, .lngFrac, .key, .hash] fun t =>
      t.block.latFrac = mapLat s.params.mapArith s.block.lat ∧ t.block.lngFrac = mapLng s.params.mapArith s.block.lng ∧
      t.block.key = interleave t.block.latFrac t.block.lngFrac ∧ t.block.hash = keyToString t.block.key) ∧
  (∀ s : State, OperandsWritten .enc s.block → checkLat s.block.lat = false → Fails .enc s 1 0 0 0) ∧
  (∀ s : State, OperandsWritten .enc s.block → checkLat s.block.lat = true → checkLng s.block.lng = false → Fails .enc s 1 1 0 0) ∧
  (∀ s : State, s.onUnwritten = .stop → ¬ OperandsWritten .enc s.block →
    exec .enc s = .fault .unwrittenOperand) ∧
  (∀ s t : State, s.block.cmd = 0x0000000A → (Reports s t 0 0 0 0 ↔ t.block.status = 0x800A0000) ∧
    (Reports s t 1 0 0 0 ↔ t.block.status = 0x800A0001) ∧ (Reports s t 1 1 0 0 ↔ t.block.status = 0x800A0009)) ∧
  (checkLat 0x7FF8000000000000 = false ∧ checkLat 0x4056C00000000000 = false ∧ checkLng 0x4069000000000000 = false) ∧
  (∀ (s : State) (lat lng : F64), OperandsWritten .enc s.block → s.params.mapArith = .binary64 → s.block.lat = lat → s.block.lng = lng →
    ∃ t, exec .enc s = .next t ∧
      (lat = 0xC056800000000000 ∧ lng = 0xC066800000000000 → t.block.hash = Vector.replicate 12 0x30) ∧
      (lat = 0x4056800000000000 ∧ lng = 0x4066800000000000 →
        t.block.key = 0xFFFFFFFFFFFFFFFF ∧ t.block.hash = Vector.replicate 12 0x7A) ∧
      (lat = 0x0000000000000000 ∧ lng = 0x0000000000000000 → t.block.key = 0xC000000000000000 ∧
        t.block.hash = #v[0x73, 0x30, 0x30, 0x30, 0x30, 0x30, 0x30, 0x30, 0x30, 0x30, 0x30, 0x30]) ∧
      (lat = 0x4035071DE69AD42C ∧ lng = 0x405A7563886594AF →
        t.block.latFrac = 0x9DE7FD03 ∧ t.block.lngFrac = 0xCB428734 ∧ t.block.key = 0xE1DB741DD57B0A25 ∧
        t.block.hash = #v[0x77, 0x37, 0x65, 0x72, 0x38, 0x37, 0x66, 0x70, 0x67, 0x64, 0x35, 0x32]))

/-- R181: DEC. The clause on unwritten operands is for runs that end in the fault
(notes/assumptions/1.md). -/
def Obligations.DecCommand : Prop :=
  decode 0x0000000B = .command .dec ∧
  (∀ s : State, OperandsWritten .dec s.block → validate s.block.hash = none →
    Completes .dec s [.key, .latFrac, .lngFrac, .lat, .lng] fun t =>
      t.block.key = stringToKey s.block.hash ∧ (t.block.latFrac, t.block.lngFrac) = deinterleave t.block.key ∧
      t.block.lat = unmapLat t.block.latFrac ∧ t.block.lng = unmapLng t.block.lngFrac ∧
      t.block.key &&& 0xF = 0 ∧ t.block.latFrac &&& 0x3 = 0 ∧ t.block.lngFrac &&& 0x3 = 0) ∧
  (∀ (s : State) (j : BitVec 4) (c : Byte), OperandsWritten .dec s.block → validate s.block.hash = some (j, c) → Fails .dec s 2 0 j c) ∧
  (∀ s : State, s.onUnwritten = .stop → ¬ OperandsWritten .dec s.block →
    exec .dec s = .fault .unwrittenOperand) ∧
  (∀ s t : State, s.block.cmd = 0x0000000B → (Reports s t 0 0 0 0 ↔ t.block.status = 0x800B0000) ∧
    (Reports s t 2 0 11 0x61 ↔ t.block.status = 0x800B61B2)) ∧
  (∀ s : State, OperandsWritten .dec s.block →
    ∃ t, exec .dec s = .next t ∧
      (s.block.hash = Vector.replicate 12 0x30 → t.block.lat = 0xC056800000000000 ∧ t.block.lng = 0xC066800000000000) ∧
      (s.block.hash = Vector.replicate 12 0x7A → t.block.key = 0xFFFFFFFFFFFFFFF0 ∧ t.block.latFrac = 0xFFFFFFFC ∧
        t.block.lngFrac = 0xFFFFFFFC ∧ t.block.lat = 0x40567FFFFF4C0000 ∧ t.block.lng = 0x40667FFFFF4C0000) ∧
      (s.block.hash = #v[0x73, 0x30, 0x30, 0x30, 0x30, 0x30, 0x30, 0x30, 0x30, 0x30, 0x30, 0x30] →
        t.block.lat = 0x0000000000000000 ∧ t.block.lng = 0x0000000000000000) ∧
      (s.block.hash = #v[0x77, 0x37, 0x65, 0x72, 0x38, 0x37, 0x66, 0x70, 0x67, 0x64, 0x35, 0x32] →
        t.block.key = 0xE1DB741DD57B0A20 ∧ t.block.latFrac = 0x9DE7FD00 ∧ t.block.lngFrac = 0xCB428734 ∧
        t.block.lat = 0x4035071DE4000000 ∧ t.block.lng = 0x405A756388480000))

/-- R182: NOP does nothing but report, and clears an earlier error from STATUS; 0x00000100 is not a NOP. -/
def Obligations.NopCommand : Prop :=
  decode 0x00000000 = .command .nop ∧
  (∀ s : State, Completes .nop s [] fun t => t.block.hash = s.block.hash) ∧
  (∀ s : State, ∃ t, issue 0x00000000 s = .next t ∧ t.block.status = 0x80000000 ∧ OnlyChanges [] (s.storeCmd 0) t) ∧
  (∀ s : State, ∃ t, issue 0x00000100 s = .next t ∧ t.block.status = 0x80000003 ∧
    OnlyChanges [] (s.storeCmd 0x00000100) t)

/-- R183: without an error, ENC leaves what MAPLAT; MAPLNG; ILV; K2S leave, and DEC what S2K; DILV; UNMAPLAT; UNMAPLNG
leave, STATUS (and CMD) apart, where STATUS differs in OP only. On an error the sequence has written its earlier
results and the composed command nothing. -/
def Obligations.ComposedCommandsAreTheirSequences : Prop :=
  (∀ s : State, OperandsWritten .enc s.block → checkLat s.block.lat = true → checkLng s.block.lng = true →
    ∃ t1 t2 t3 t u, issue (encode .maplat) s = .next t1 ∧ issue (encode .maplng) t1 = .next t2 ∧
      issue (encode .ilv) t2 = .next t3 ∧ issue (encode .k2s) t3 = .next t ∧ issue (encode .enc) s = .next u ∧
      u = { t with block := { t.block with cmd := u.block.cmd, status := u.block.status } } ∧
      t.block.status = statusWord 0x07 0 0 0 0 ∧ u.block.status = statusWord 0x0A 0 0 0 0) ∧
  (∀ s : State, OperandsWritten .dec s.block → validate s.block.hash = none →
    ∃ t1 t2 t3 t u, issue (encode .s2k) s = .next t1 ∧ issue (encode .dilv) t1 = .next t2 ∧
      issue (encode .unmaplat) t2 = .next t3 ∧ issue (encode .unmaplng) t3 = .next t ∧ issue (encode .dec) s = .next u ∧
      u = { t with block := { t.block with cmd := u.block.cmd, status := u.block.status } } ∧
      t.block.status = statusWord 0x04 0 0 0 0 ∧ u.block.status = statusWord 0x0B 0 0 0 0) ∧
  (∀ s : State, OperandsWritten .enc s.block → checkLat s.block.lat = true → checkLng s.block.lng = false →
    ∃ t1 t u, issue (encode .maplat) s = .next t1 ∧ issue (encode .maplng) t1 = .next t ∧ issue (encode .enc) s = .next u ∧
      statusErr t.block.status = 1 ∧ t.block.latFrac = mapLat s.params.mapArith s.block.lat ∧
      statusErr u.block.status = 1 ∧ OnlyChanges [] (s.storeCmd (encode .enc)) u)

/-- R184: the round trip through the string. With e = v - v' in exact arithmetic, -2^-43 ≤ e ≤ span / 2^30 on each axis;
the upper bound is met at (90.0, 180.0), where the bound span / 2^32 fails. -/
def Obligations.StringRoundTripIsNear : Prop :=
  (∀ s : State, OperandsWritten .enc s.block → checkLat s.block.lat = true → checkLng s.block.lng = true →
    ∃ t u, issue (encode .enc) s = .next t ∧ issue (encode .dec) t = .next u ∧ statusErr u.block.status = 0 ∧
      -(one : Int) ≤ 2 ^ 43 * (units s.block.lat - units u.block.lat) ∧
      2 ^ 30 * (units s.block.lat - units u.block.lat) ≤ 180 * (one : Int) ∧
      -(one : Int) ≤ 2 ^ 43 * (units s.block.lng - units u.block.lng) ∧
      2 ^ 30 * (units s.block.lng - units u.block.lng) ≤ 360 * (one : Int) ∧
      (s.block.lat = latMax → u.block.lat = 0x40567FFFFF4C0000 ∧
        2 ^ 30 * (units s.block.lat - units u.block.lat) = 180 * (one : Int) ∧
        180 * (one : Int) < 2 ^ 32 * (units s.block.lat - units u.block.lat)) ∧
      (s.block.lng = lngMax → u.block.lng = 0x40667FFFFF4C0000 ∧
        2 ^ 30 * (units s.block.lng - units u.block.lng) = 360 * (one : Int) ∧
        360 * (one : Int) < 2 ^ 32 * (units s.block.lng - units u.block.lng)))

/-- R185: for every HASH that validates, DEC followed by ENC restores HASH and leaves KEY, LATFRAC and LNGFRAC as DEC
left them. -/
def Obligations.EncAfterDecRestoresHash : Prop :=
  ∀ s : State, OperandsWritten .dec s.block → validate s.block.hash = none →
    ∃ t u, issue (encode .dec) s = .next t ∧ issue (encode .enc) t = .next u ∧ statusErr u.block.status = 0 ∧
      u.block.hash = s.block.hash ∧ u.block.key = t.block.key ∧ u.block.latFrac = t.block.latFrac ∧
      u.block.lngFrac = t.block.lngFrac

/-! ## The host notation -/

/-- spec/30_encoding.md R88: `sethash s` leaves HASH = s, every byte written, and nothing else changed; `encode lat, lng` is
the ENC of lat and lng. -/
def Obligations.PseudoInstructionsDoTheirWork : Prop :=
  (∀ (s : State) (host : Nat) (c : Chars), ∃ t,
    Sys2Proof.core.run 2 ({ s with inbox := [] }.issue host (sethash s.params.base c)) = .next t ∧
    t.block = s.block.writeHash c) ∧
  (∀ (s : State) (host : Nat) (lat lng : F64),
    ∃ t, exec .enc ({ s with block := (s.block.writeLat lat).writeLng lng }.storeCmd (encode .enc)) = .next t ∧
      ∃ u, Sys2Proof.core.run 3 ({ s with inbox := [] }.issue host (encodePair s.params.base lat lng)) = .next u ∧
        u.block = t.block)
end

