-- ==== Sys2Proof/Laws/Base32.lean ====
section
/-! SUPPORT. What the loops of the base-32 codec compute. -/

namespace Sys2Proof.Machine

open Sys2Proof

/-- Character j of the loop is selected by the five bits from 59 - 5j of its input. -/
theorem keyChars_getElem (n : Nat) : ∀ (v : DWord) (j : Nat) (h : j < (keyChars n v).length), j < 12 →
    (keyChars n v)[j] = alphab (v.extractLsb' (59 - 5 * j) 5) := by
  induction n with
  | zero => intro v j h; simp [keyChars] at h
  | succ n ih =>
    intro v j h hj
    cases j with
    | zero => rfl
    | succ j =>
      simp only [keyChars, List.getElem_cons_succ]
      rw [ih (v <<< 5) j _ (by omega)]
      congr 1
      ext i hi
      simp only [BitVec.getElem_extractLsb', BitVec.getLsbD_shiftLeft]
      have e : 59 - 5 * j + i - 5 = 59 - 5 * (j + 1) + i := by omega
      rw [e]
      have h1 : 59 - 5 * j + i < 64 := by omega
      have h2 : ¬ 59 - 5 * j + i < 5 := by omega
      simp [h1, h2]

theorem keyToString_getElem (k : DWord) (j : Nat) (h : j < 12) :
    (keyToString k)[j] = alphab (k.extractLsb' (59 - 5 * j) 5) := by
  have hl : j < (keyChars 12 k).length := by rw [keyChars_length]; exact h
  exact keyChars_getElem 12 k j hl h

/-- The loop answers none exactly where every character is valid. -/
theorem firstInvalid_eq_none_iff (cs : List Byte) : ∀ j, firstInvalid j cs = none ↔ ∀ c ∈ cs, indexb c ≠ none := by
  induction cs with
  | nil => intro j; simp [firstInvalid]
  | cons c cs ih =>
    intro j
    by_cases h : indexb c = none
    · simp [firstInvalid, h]
    · simp [firstInvalid, h, ih]

/-- Otherwise it answers the first character that is not, with its index. -/
theorem firstInvalid_eq_some_iff (cs : List Byte) : ∀ (j : Nat) (x : BitVec 4 × Byte), firstInvalid j cs = some x ↔
    ∃ (k : Nat) (h : k < cs.length), x = (BitVec.ofNat 4 (j + k), cs[k]) ∧ indexb cs[k] = none ∧
      ∀ m, (hm : m < k) → indexb (cs[m]'(hm.trans h)) ≠ none := by
  induction cs with
  | nil => intro j x; simp [firstInvalid]
  | cons c cs ih =>
    intro j x
    by_cases h : indexb c = none
    · simp only [firstInvalid, h, if_true, Option.some.injEq]
      constructor
      · rintro rfl
        exact ⟨0, by simp, by simp, by simpa using h, fun m hm => absurd hm (Nat.not_lt_zero m)⟩
      · rintro ⟨k, hk, rfl, -, hfirst⟩
        cases k with
        | zero => rfl
        | succ k => exact absurd h (hfirst 0 (Nat.succ_pos k))
    · rw [firstInvalid, if_neg h, ih]
      constructor
      · rintro ⟨k, hk, rfl, hn, hfirst⟩
        refine ⟨k + 1, by simpa using hk, by simp [Nat.add_comm, Nat.add_left_comm], by simpa using hn, ?_⟩
        intro m hm
        cases m with
        | zero => exact h
        | succ m => exact hfirst m (by omega)
      · rintro ⟨k, hk, rfl, hn, hfirst⟩
        cases k with
        | zero => exact absurd hn h
        | succ k =>
          refine ⟨k, by simpa using hk, by simp [Nat.add_comm, Nat.add_left_comm], by simpa using hn, ?_⟩
          intro m hm
          exact hfirst (m + 1) (by omega)

/-- The running result of `stringToKey`'s loop: the earlier bits moved up, the new indexes below them. -/
theorem stringAccumulate_append (xs ys : List Byte) : ∀ r,
    stringAccumulate r (xs ++ ys) = stringAccumulate (stringAccumulate r xs) ys := by
  induction xs with
  | nil => intro r; rfl
  | cons x xs ih => intro r; exact ih _

theorem stringAccumulate_snoc (r : DWord) (xs : List Byte) (c : Byte) :
    stringAccumulate r (xs ++ [c]) = (stringAccumulate r xs <<< 5) ||| BitVec.setWidth 64 ((indexb c).getD 0) := by
  rw [stringAccumulate_append]
  rfl

end Sys2Proof.Machine
end

