-- ==== Sys2Proof/Laws/Flags.lean ====
section
/-! SUPPORT. The fields of the STATUS word that a command leaves (spec/10_state.md R28, R30). -/

namespace Sys2Proof.Machine

open Sys2Proof

variable (op : Byte) (err : BitVec 3) (axis : BitVec 1) (idx : BitVec 4) (chr : Byte)

/-- Each bit of the word that a command leaves in STATUS. -/
theorem statusWord_getLsbD (i : Nat) : (statusWord op err axis idx chr).getLsbD i =
    if i < 3 then err.getLsbD i
    else if i < 4 then axis.getLsbD (i - 3)
    else if i < 8 then idx.getLsbD (i - 4)
    else if i < 16 then chr.getLsbD (i - 8)
    else if i < 24 then op.getLsbD (i - 16)
    else decide (i = 31) := by
  change BitVec.getLsbD (((((((1#1 ++ 0#7 : BitVec (1 + 7)) ++ op : BitVec (1 + 7 + 8)) ++ chr : BitVec (1 + 7 + 8 + 8)) ++ idx :
    BitVec (1 + 7 + 8 + 8 + 4)) ++ axis : BitVec (1 + 7 + 8 + 8 + 4 + 1)) ++ err : BitVec (1 + 7 + 8 + 8 + 4 + 1 + 3))) i = _
  rcases Nat.lt_or_ge i 32 with h | h
  · interval_cases i <;> simp only [BitVec.getLsbD_append] <;> simp
  · rw [BitVec.getLsbD_of_ge _ _ h]
    split_ifs <;> first | omega | (symm; simp; omega)

/-- The same for a bit in range. -/
theorem statusWord_getElem (i : Nat) (h : i < 32) : (statusWord op err axis idx chr)[i] =
    if i < 3 then err.getLsbD i
    else if i < 4 then axis.getLsbD (i - 3)
    else if i < 8 then idx.getLsbD (i - 4)
    else if i < 16 then chr.getLsbD (i - 8)
    else if i < 24 then op.getLsbD (i - 16)
    else decide (i = 31) := by
  rw [← BitVec.getLsbD_eq_getElem, statusWord_getLsbD]

@[simp] theorem statusDone_statusWord : statusDone (statusWord op err axis idx chr) = 1 := by
  apply BitVec.eq_of_getLsbD_eq
  intro i hi
  have : i = 0 := by omega
  subst this
  simp [statusDone, statusWord_getElem]

@[simp] theorem statusRsvd_statusWord : statusRsvd (statusWord op err axis idx chr) = 0 := by
  apply BitVec.eq_of_getLsbD_eq
  intro i hi
  interval_cases i <;> simp [statusRsvd, statusWord_getElem]

@[simp] theorem statusOp_statusWord : statusOp (statusWord op err axis idx chr) = op := by
  apply BitVec.eq_of_getLsbD_eq
  intro i hi
  interval_cases i <;> simp [statusOp, statusWord_getElem]

@[simp] theorem statusChar_statusWord : statusChar (statusWord op err axis idx chr) = chr := by
  apply BitVec.eq_of_getLsbD_eq
  intro i hi
  interval_cases i <;> simp [statusChar, statusWord_getElem]

@[simp] theorem statusIdx_statusWord : statusIdx (statusWord op err axis idx chr) = idx := by
  apply BitVec.eq_of_getLsbD_eq
  intro i hi
  interval_cases i <;> simp [statusIdx, statusWord_getElem]

@[simp] theorem statusAxis_statusWord : statusAxis (statusWord op err axis idx chr) = axis := by
  apply BitVec.eq_of_getLsbD_eq
  intro i hi
  interval_cases i
  simp [statusAxis, statusWord_getElem]

@[simp] theorem statusErr_statusWord : statusErr (statusWord op err axis idx chr) = err := by
  apply BitVec.eq_of_getLsbD_eq
  intro i hi
  interval_cases i <;> simp [statusErr, statusWord_getElem]

end Sys2Proof.Machine
end

