-- ==== Sys2Proof/Laws/State.lean ====
section
/-! SUPPORT. What each update of the state leaves in each field: one lemma per field and update, true by rfl, so that no
proof unfolds a record update. (The proofs are tactic proofs, so that simp rewrites with them instead of unfolding: the
kernel would otherwise be asked to compare binary64 results by computing them.) -/

namespace Sys2Proof.Machine

open Sys2Proof

section
variable (b : Block) (v : F64)

@[simp] theorem Block.writeLat_cmd : (b.writeLat v).cmd = b.cmd := by rfl
@[simp] theorem Block.writeLat_status : (b.writeLat v).status = b.status := by rfl
@[simp] theorem Block.writeLat_lat : (b.writeLat v).lat = v := by rfl
@[simp] theorem Block.writeLat_lng : (b.writeLat v).lng = b.lng := by rfl
@[simp] theorem Block.writeLat_latFrac : (b.writeLat v).latFrac = b.latFrac := by rfl
@[simp] theorem Block.writeLat_lngFrac : (b.writeLat v).lngFrac = b.lngFrac := by rfl
@[simp] theorem Block.writeLat_key : (b.writeLat v).key = b.key := by rfl
@[simp] theorem Block.writeLat_hash : (b.writeLat v).hash = b.hash := by rfl
@[simp] theorem Block.writeLat_marks : (b.writeLat v).marks = setMarks b.marks DataReg.lat.offset DataReg.lat.bytes := by rfl

end

section
variable (b : Block) (v : F64)

@[simp] theorem Block.writeLng_cmd : (b.writeLng v).cmd = b.cmd := by rfl
@[simp] theorem Block.writeLng_status : (b.writeLng v).status = b.status := by rfl
@[simp] theorem Block.writeLng_lat : (b.writeLng v).lat = b.lat := by rfl
@[simp] theorem Block.writeLng_lng : (b.writeLng v).lng = v := by rfl
@[simp] theorem Block.writeLng_latFrac : (b.writeLng v).latFrac = b.latFrac := by rfl
@[simp] theorem Block.writeLng_lngFrac : (b.writeLng v).lngFrac = b.lngFrac := by rfl
@[simp] theorem Block.writeLng_key : (b.writeLng v).key = b.key := by rfl
@[simp] theorem Block.writeLng_hash : (b.writeLng v).hash = b.hash := by rfl
@[simp] theorem Block.writeLng_marks : (b.writeLng v).marks = setMarks b.marks DataReg.lng.offset DataReg.lng.bytes := by rfl

end

section
variable (b : Block) (v : Word)

@[simp] theorem Block.writeLatFrac_cmd : (b.writeLatFrac v).cmd = b.cmd := by rfl
@[simp] theorem Block.writeLatFrac_status : (b.writeLatFrac v).status = b.status := by rfl
@[simp] theorem Block.writeLatFrac_lat : (b.writeLatFrac v).lat = b.lat := by rfl
@[simp] theorem Block.writeLatFrac_lng : (b.writeLatFrac v).lng = b.lng := by rfl
@[simp] theorem Block.writeLatFrac_latFrac : (b.writeLatFrac v).latFrac = v := by rfl
@[simp] theorem Block.writeLatFrac_lngFrac : (b.writeLatFrac v).lngFrac = b.lngFrac := by rfl
@[simp] theorem Block.writeLatFrac_key : (b.writeLatFrac v).key = b.key := by rfl
@[simp] theorem Block.writeLatFrac_hash : (b.writeLatFrac v).hash = b.hash := by rfl
@[simp] theorem Block.writeLatFrac_marks : (b.writeLatFrac v).marks = setMarks b.marks DataReg.latFrac.offset DataReg.latFrac.bytes := by rfl

end

section
variable (b : Block) (v : Word)

@[simp] theorem Block.writeLngFrac_cmd : (b.writeLngFrac v).cmd = b.cmd := by rfl
@[simp] theorem Block.writeLngFrac_status : (b.writeLngFrac v).status = b.status := by rfl
@[simp] theorem Block.writeLngFrac_lat : (b.writeLngFrac v).lat = b.lat := by rfl
@[simp] theorem Block.writeLngFrac_lng : (b.writeLngFrac v).lng = b.lng := by rfl
@[simp] theorem Block.writeLngFrac_latFrac : (b.writeLngFrac v).latFrac = b.latFrac := by rfl
@[simp] theorem Block.writeLngFrac_lngFrac : (b.writeLngFrac v).lngFrac = v := by rfl
@[simp] theorem Block.writeLngFrac_key : (b.writeLngFrac v).key = b.key := by rfl
@[simp] theorem Block.writeLngFrac_hash : (b.writeLngFrac v).hash = b.hash := by rfl
@[simp] theorem Block.writeLngFrac_marks : (b.writeLngFrac v).marks = setMarks b.marks DataReg.lngFrac.offset DataReg.lngFrac.bytes := by rfl

end

section
variable (b : Block) (v : DWord)

@[simp] theorem Block.writeKey_cmd : (b.writeKey v).cmd = b.cmd := by rfl
@[simp] theorem Block.writeKey_status : (b.writeKey v).status = b.status := by rfl
@[simp] theorem Block.writeKey_lat : (b.writeKey v).lat = b.lat := by rfl
@[simp] theorem Block.writeKey_lng : (b.writeKey v).lng = b.lng := by rfl
@[simp] theorem Block.writeKey_latFrac : (b.writeKey v).latFrac = b.latFrac := by rfl
@[simp] theorem Block.writeKey_lngFrac : (b.writeKey v).lngFrac = b.lngFrac := by rfl
@[simp] theorem Block.writeKey_key : (b.writeKey v).key = v := by rfl
@[simp] theorem Block.writeKey_hash : (b.writeKey v).hash = b.hash := by rfl
@[simp] theorem Block.writeKey_marks : (b.writeKey v).marks = setMarks b.marks DataReg.key.offset DataReg.key.bytes := by rfl

end

section
variable (b : Block) (v : Chars)

@[simp] theorem Block.writeHash_cmd : (b.writeHash v).cmd = b.cmd := by rfl
@[simp] theorem Block.writeHash_status : (b.writeHash v).status = b.status := by rfl
@[simp] theorem Block.writeHash_lat : (b.writeHash v).lat = b.lat := by rfl
@[simp] theorem Block.writeHash_lng : (b.writeHash v).lng = b.lng := by rfl
@[simp] theorem Block.writeHash_latFrac : (b.writeHash v).latFrac = b.latFrac := by rfl
@[simp] theorem Block.writeHash_lngFrac : (b.writeHash v).lngFrac = b.lngFrac := by rfl
@[simp] theorem Block.writeHash_key : (b.writeHash v).key = b.key := by rfl
@[simp] theorem Block.writeHash_hash : (b.writeHash v).hash = v := by rfl
@[simp] theorem Block.writeHash_marks : (b.writeHash v).marks = setMarks b.marks DataReg.hash.offset DataReg.hash.bytes := by rfl

end

section
variable (b : Block) (err : BitVec 3) (axis : BitVec 1) (idx : BitVec 4) (chr : Byte)

@[simp] theorem Block.setStatus_cmd : (b.setStatus err axis idx chr).cmd = b.cmd := by rfl
@[simp] theorem Block.setStatus_status : (b.setStatus err axis idx chr).status = statusWord (opcodeField b.cmd) err axis idx chr := by rfl
@[simp] theorem Block.setStatus_lat : (b.setStatus err axis idx chr).lat = b.lat := by rfl
@[simp] theorem Block.setStatus_lng : (b.setStatus err axis idx chr).lng = b.lng := by rfl
@[simp] theorem Block.setStatus_latFrac : (b.setStatus err axis idx chr).latFrac = b.latFrac := by rfl
@[simp] theorem Block.setStatus_lngFrac : (b.setStatus err axis idx chr).lngFrac = b.lngFrac := by rfl
@[simp] theorem Block.setStatus_key : (b.setStatus err axis idx chr).key = b.key := by rfl
@[simp] theorem Block.setStatus_hash : (b.setStatus err axis idx chr).hash = b.hash := by rfl
@[simp] theorem Block.setStatus_marks : (b.setStatus err axis idx chr).marks = b.marks := by rfl

end

section
variable (b : Block)

@[simp] theorem Block.ok_cmd : b.ok.cmd = b.cmd := by rfl
@[simp] theorem Block.ok_status : b.ok.status = statusWord (opcodeField b.cmd) errOk 0 0 0 := by rfl
@[simp] theorem Block.ok_lat : b.ok.lat = b.lat := by rfl
@[simp] theorem Block.ok_lng : b.ok.lng = b.lng := by rfl
@[simp] theorem Block.ok_latFrac : b.ok.latFrac = b.latFrac := by rfl
@[simp] theorem Block.ok_lngFrac : b.ok.lngFrac = b.lngFrac := by rfl
@[simp] theorem Block.ok_key : b.ok.key = b.key := by rfl
@[simp] theorem Block.ok_hash : b.ok.hash = b.hash := by rfl
@[simp] theorem Block.ok_marks : b.ok.marks = b.marks := by rfl

end

section
variable (b : Block) (e : CommandError)

@[simp] theorem Block.raise_cmd : (b.raise e).cmd = b.cmd := by cases e <;> rfl
@[simp] theorem Block.raise_lat : (b.raise e).lat = b.lat := by cases e <;> rfl
@[simp] theorem Block.raise_lng : (b.raise e).lng = b.lng := by cases e <;> rfl
@[simp] theorem Block.raise_latFrac : (b.raise e).latFrac = b.latFrac := by cases e <;> rfl
@[simp] theorem Block.raise_lngFrac : (b.raise e).lngFrac = b.lngFrac := by cases e <;> rfl
@[simp] theorem Block.raise_key : (b.raise e).key = b.key := by cases e <;> rfl
@[simp] theorem Block.raise_hash : (b.raise e).hash = b.hash := by cases e <;> rfl
@[simp] theorem Block.raise_marks : (b.raise e).marks = b.marks := by cases e <;> rfl

end

section
variable (b : Block) (axis : BitVec 1) (j : BitVec 4) (c : Byte)

@[simp] theorem Block.raise_range_status :
    (b.raise (.range axis)).status = statusWord (opcodeField b.cmd) errRange axis 0 0 := by rfl
@[simp] theorem Block.raise_invalidCharacter_status :
    (b.raise (.invalidCharacter j c)).status = statusWord (opcodeField b.cmd) errInvalidCharacter 0 j c := by rfl
@[simp] theorem Block.raise_illegalCommand_status :
    (b.raise .illegalCommand).status = statusWord (opcodeField b.cmd) errIllegalCommand 0 0 0 := by rfl

end

section
variable (s : State) (w : Word) (host : Nat) (a : Answer)

@[simp] theorem State.storeCmd_cmd : (s.storeCmd w).block.cmd = w := by rfl
@[simp] theorem State.storeCmd_status : (s.storeCmd w).block.status = s.block.status := by rfl
@[simp] theorem State.storeCmd_lat : (s.storeCmd w).block.lat = s.block.lat := by rfl
@[simp] theorem State.storeCmd_lng : (s.storeCmd w).block.lng = s.block.lng := by rfl
@[simp] theorem State.storeCmd_latFrac : (s.storeCmd w).block.latFrac = s.block.latFrac := by rfl
@[simp] theorem State.storeCmd_lngFrac : (s.storeCmd w).block.lngFrac = s.block.lngFrac := by rfl
@[simp] theorem State.storeCmd_key : (s.storeCmd w).block.key = s.block.key := by rfl
@[simp] theorem State.storeCmd_hash : (s.storeCmd w).block.hash = s.block.hash := by rfl
@[simp] theorem State.storeCmd_marks : (s.storeCmd w).block.marks = s.block.marks := by rfl
@[simp] theorem State.storeCmd_modelFault : (s.storeCmd w).modelFault = s.modelFault := by rfl
@[simp] theorem State.storeCmd_inbox : (s.storeCmd w).inbox = s.inbox := by rfl
@[simp] theorem State.storeCmd_replies : (s.storeCmd w).replies = s.replies := by rfl
@[simp] theorem State.storeCmd_resets : (s.storeCmd w).resets = s.resets := by rfl
@[simp] theorem State.storeCmd_onUnwritten : (s.storeCmd w).onUnwritten = s.onUnwritten := by rfl
@[simp] theorem State.storeCmd_params : (s.storeCmd w).params = s.params := by rfl
@[simp] theorem State.reply_block : (s.reply host a).block = s.block := by rfl
@[simp] theorem State.reply_modelFault : (s.reply host a).modelFault = s.modelFault := by rfl
@[simp] theorem State.reply_inbox : (s.reply host a).inbox = s.inbox := by rfl
@[simp] theorem State.reply_replies : (s.reply host a).replies = ⟨host, a⟩ :: s.replies := by rfl
@[simp] theorem State.reply_resets : (s.reply host a).resets = s.resets := by rfl
@[simp] theorem State.reply_onUnwritten : (s.reply host a).onUnwritten = s.onUnwritten := by rfl
@[simp] theorem State.reply_params : (s.reply host a).params = s.params := by rfl
@[simp] theorem resetEvent_modelFault : (resetEvent s).modelFault = s.modelFault := by rfl
@[simp] theorem resetEvent_inbox : (resetEvent s).inbox = s.inbox := by rfl
@[simp] theorem resetEvent_replies : (resetEvent s).replies = s.replies := by rfl
@[simp] theorem resetEvent_resets : (resetEvent s).resets = s.resets + 1 := by rfl
@[simp] theorem resetEvent_onUnwritten : (resetEvent s).onUnwritten = s.onUnwritten := by rfl
@[simp] theorem resetEvent_params : (resetEvent s).params = s.params := by rfl
@[simp] theorem resetEvent_block : (resetEvent s).block = Block.afterReset s.resets := by rfl

end

section
variable (s : State) (w : Bool) (f : Fault)

@[simp] theorem State.noting_true : s.noting true f = s := by rfl
@[simp] theorem State.noting_false : s.noting false f = { s with modelFault := s.modelFault.or (some f) } := by rfl
@[simp] theorem State.noting_block : (s.noting w f).block = s.block := by cases w <;> rfl
@[simp] theorem State.noting_inbox : (s.noting w f).inbox = s.inbox := by cases w <;> rfl
@[simp] theorem State.noting_replies : (s.noting w f).replies = s.replies := by cases w <;> rfl
@[simp] theorem State.noting_resets : (s.noting w f).resets = s.resets := by cases w <;> rfl
@[simp] theorem State.noting_onUnwritten : (s.noting w f).onUnwritten = s.onUnwritten := by cases w <;> rfl
@[simp] theorem State.noting_params : (s.noting w f).params = s.params := by cases w <;> rfl

/-- A fault that has arisen stays (R203). -/
theorem State.noting_modelFault_of_some {g : Fault} (h : s.modelFault = some g) : (s.noting w f).modelFault = some g := by
  cases w <;> simp [h]

end

end Sys2Proof.Machine
end

