-- ==== Sys2Proof/Laws/Ops.lean ====
section
/-! SUPPORT. Everything each shared operation of Machine/Ops.lean and Machine/Operands.lean can do, said once. -/

namespace Sys2Proof.Machine

open Sys2Proof

/-- When a use goes on. -/
theorem usable_iff {s : State} {w : Bool} : s.usable w = true ↔ s.onUnwritten = .hold ∨ w = true := by
  simp [State.usable, or_comm]

theorem usable_eq_false_iff {s : State} {w : Bool} : s.usable w = false ↔ s.onUnwritten = .stop ∧ w = false := by
  cases h : s.onUnwritten <;> simp [State.usable, h]

theorem allWritten_iff {b : Block} {rs : List DataReg} :
    b.allWritten rs = true ↔ ∀ r ∈ rs, b.written r.offset r.bytes = true := by
  simp [Block.allWritten]

/-- When a command answers a next state, and which. -/
theorem runCommand_eq_next_iff {rs : List DataReg} {effect : Block → Block} {s t : State} :
    runCommand rs effect s = .next t ↔ s.usable (s.block.allWritten rs) = true ∧
      t = { s.noting (s.block.allWritten rs) .unwrittenOperand with block := effect s.block } := by
  unfold runCommand
  cases h : s.usable (s.block.allWritten rs)
  · simp [h]
  · simp only [h, if_true, Host.Outcome.next.injEq, true_and]
    exact eq_comm

/-- When a command's operands are written, it answers its effect. -/
theorem runCommand_of_written {rs : List DataReg} {effect : Block → Block} {s : State}
    (h : s.block.allWritten rs = true) : runCommand rs effect s = .next { s with block := effect s.block } := by
  rw [runCommand_eq_next_iff, h]
  exact ⟨usable_iff.mpr (.inr rfl), rfl⟩

/-- When a command stops: an operand byte is unwritten and such a use stops. -/
theorem runCommand_eq_fault_iff {rs : List DataReg} {effect : Block → Block} {s : State} {f : Fault} :
    runCommand rs effect s = .fault f ↔
      f = .unwrittenOperand ∧ s.onUnwritten = .stop ∧ s.block.allWritten rs = false := by
  rw [← usable_eq_false_iff]
  unfold runCommand
  cases h : s.usable (s.block.allWritten rs)
  · simp only [h, Bool.false_eq_true, if_false, Host.Outcome.fault.injEq, and_true]
    exact eq_comm
  · simp [h]

/-- No command is refused. -/
theorem runCommand_ne_refused {rs : List DataReg} {effect : Block → Block} {s : State} {r : Refusal} :
    runCommand rs effect s ≠ .refused r := by
  unfold runCommand
  dsimp only
  split <;> intro h <;> cases h

/-- `written` byte by byte. -/
theorem Block.written_iff {b : Block} {o n : Nat} : b.written o n = true ↔ ∀ k < n, b.markAt (o + k) = true := by
  simp [Block.written]

/-- One mark after `setMarks`. -/
theorem setMarks_getElem (m : Vector Bool 44) (o n k : Nat) (hk : k < 44) :
    (setMarks m o n)[k] = (m[k] || (decide (o ≤ k + 8) && decide (k + 8 < o + n))) := by
  simp [setMarks]

/-- Setting the same marks twice is setting them once. -/
@[simp] theorem setMarks_setMarks_self (m : Vector Bool 44) (o n : Nat) :
    setMarks (setMarks m o n) o n = setMarks m o n := by
  ext k hk
  simp [setMarks_getElem]

/-- Marks are set in any order. -/
theorem setMarks_comm (m : Vector Bool 44) (o n o' n' : Nat) :
    setMarks (setMarks m o n) o' n' = setMarks (setMarks m o' n') o n := by
  ext k hk
  simp only [setMarks_getElem]
  ac_rfl

/-- One mark, by window offset, in a block whose marks are `setMarks` of another's. -/
theorem markAt_setMarks {b c : Block} {o n : Nat} (h : c.marks = setMarks b.marks o n) (x : Nat) (hx : x < 0x34) :
    c.markAt x = (b.markAt x || (decide (8 ≤ x) && decide (o ≤ x) && decide (x < o + n))) := by
  unfold Block.markAt
  by_cases h8 : 8 ≤ x
  · have hk : x - 8 < 44 := by omega
    have e : x - 8 + 8 = x := by omega
    simp [h, hk, setMarks_getElem, h8, e]
  · simp [h8]

/-- Bit `i` of byte `k` is bit 8k + i. -/
theorem byteOf_getLsbD {w : Nat} (v : BitVec w) (k i : Nat) :
    (byteOf v k).getLsbD i = (decide (i < 8) && v.getLsbD (8 * k + i)) := by
  simp [byteOf]

/-- Byte `j` after byte `k` is replaced (R54). -/
theorem byteOf_withByte {w : Nat} (v : BitVec w) (k j : Nat) (x : Byte) (hj : 8 * j + 8 ≤ w) :
    byteOf (withByte v k x) j = if j = k then x else byteOf v j := by
  apply BitVec.eq_of_getLsbD_eq
  intro i hi
  have hw : 8 * j + i < w := by omega
  by_cases h : j = k
  · subst h
    have e : 8 * j + i - 8 * j = i := by omega
    interval_cases i <;> simp_all [byteOf, withByte]
  · have hne : ¬(8 * k ≤ 8 * j + i ∧ 8 * j + i < 8 * k + 8) := by omega
    rw [if_neg h]
    simp only [byteOf, withByte, BitVec.getLsbD_extractLsb', BitVec.getLsbD_or, BitVec.getLsbD_and, BitVec.getLsbD_not,
      BitVec.getLsbD_shiftLeft, BitVec.getLsbD_setWidth, hi, hw, decide_true, Bool.true_and]
    by_cases hlt : 8 * j + i < 8 * k
    · simp [hlt]
    · have h9 : 8 ≤ 8 * j + i - 8 * k := by omega
      have hx : x.getLsbD (8 * j + i - 8 * k) = false := BitVec.getLsbD_of_ge _ _ h9
      have hf : (0xFF#8).getLsbD (8 * j + i - 8 * k) = false := BitVec.getLsbD_of_ge _ _ h9
      simp [hlt, hx, hf]

/-- Byte `k` of what a read of `n` bytes gives (R54, R57). -/
theorem byteOf_loadBytes (b : Block) (o : Nat) : ∀ (n k : Nat), n ≤ 8 → k < 8 →
    byteOf (b.loadBytes o n) k = if k < n then b.windowByte (o + k) else 0 := by
  intro n
  induction n with
  | zero => intro k _ _; simp [Block.loadBytes, byteOf]
  | succ n ih =>
    intro k hn hk
    apply BitVec.eq_of_getLsbD_eq
    intro i hi
    have ihk := congrArg (fun v => v.getLsbD i) (ih k (by omega) hk)
    simp only [byteOf_getLsbD, hi, decide_true, Bool.true_and] at ihk
    have hlt : 8 * k + i < 64 := by omega
    simp only [byteOf_getLsbD, hi, decide_true, Bool.true_and, Block.loadBytes, BitVec.getLsbD_or, ihk,
      BitVec.getLsbD_shiftLeft, BitVec.getLsbD_setWidth, hlt]
    rcases Nat.lt_trichotomy k n with h | h | h
    · have h1 : 8 * k + i < 8 * n := by omega
      simp [h, h1, Nat.lt_succ_of_lt h]
    · subst h
      have e : 8 * k + i - 8 * k = i := by omega
      have h2 : i < 64 := by omega
      simp [h2]
    · have h3 : 8 ≤ 8 * k + i - 8 * n := by omega
      have h1 : ¬ k < n := by omega
      have h2 : ¬ k < n + 1 := by omega
      simp [h1, h2, BitVec.getLsbD_of_ge _ _ h3]

/-- The offsets of a row (R55). -/
theorem rowOf_eq_iff {o : Nat} (ho : o < 0x40) (row : Row) :
    rowOf o = row ↔ row.first ≤ o ∧ o < row.first + row.bytes := by
  unfold rowOf
  cases row with
  | data r => cases r <;> simp only [Row.first, Row.bytes, DataReg.offset, DataReg.bytes] <;> split_ifs <;>
      simp only [Row.data.injEq, reduceCtorEq, false_iff, true_iff, not_and, not_lt] <;> omega
  | cmd | status | reserved =>
    simp only [Row.first, Row.bytes]
    split_ifs <;>
      simp only [false_iff, true_iff, not_and, not_lt] <;> omega

/-- An offset of the row of data register `r`. -/
theorem rowOf_data_iff {o : Nat} {r : DataReg} : rowOf o = .data r ↔ r.offset ≤ o ∧ o < r.offset + r.bytes := by
  unfold rowOf
  cases r <;> simp only [DataReg.offset, DataReg.bytes] <;> split_ifs <;>
    simp only [Row.data.injEq, reduceCtorEq, false_iff, true_iff, not_and, not_lt] <;> omega

/-- Every row ends inside the window. -/
theorem Row.end_le (row : Row) : row.first + row.bytes ≤ 0x40 := by
  cases row with
  | data r => cases r <;> decide
  | cmd | status | reserved => decide

/-- Every offset is at or after the first of its row. -/
theorem first_le_rowOf (o : Nat) : (rowOf o).first ≤ o := by
  unfold rowOf
  split_ifs <;> simp only [Row.first, DataReg.offset] <;> omega

/-- The bytes of a legal access lie in one row (R55). -/
theorem rowOf_of_legal {o n : Nat} (h : legal o n = true) (k : Nat) (hk : k < n) : rowOf (o + k) = rowOf o := by
  simp only [legal, Bool.and_eq_true, decide_eq_true_eq] at h
  obtain ⟨⟨⟨-, -⟩, hb⟩, -⟩ := h
  have h1 := first_le_rowOf o
  have h2 := (rowOf o).end_le
  exact (rowOf_eq_iff (by omega) _).mpr ⟨by omega, by omega⟩

/-- A legal access has 1 to 8 bytes, inside the window (R55). -/
theorem legal_bounds {o n : Nat} (h : legal o n = true) : 1 ≤ n ∧ n ≤ 8 ∧ o + n ≤ 0x40 := by
  simp only [legal, Bool.and_eq_true, decide_eq_true_eq] at h
  obtain ⟨⟨⟨hn, -⟩, hb⟩, -⟩ := h
  have h2 := (rowOf o).end_le
  omega

/-- The byte at offset `o` of the data registers. -/
theorem windowByte_of_data {b : Block} {o : Nat} {r : DataReg} (h : rowOf o = .data r) :
    b.windowByte o = b.regByte r (o - r.offset) := by
  simp [Block.windowByte, h]

/-- What one stored byte leaves in each byte of each data register (R58). -/
theorem regByte_storeByte {b : Block} {o : Nat} {v : Byte} {r : DataReg} (ho : rowOf o = .data r) (q : DataReg) (k : Nat)
    (hk : k < q.bytes) :
    (b.storeByte o v).regByte q k = if q = r ∧ k = o - r.offset then v else b.regByte q k := by
  have hob := rowOf_data_iff.mp ho
  unfold Block.storeByte
  rw [ho]
  by_cases hq : q = r
  · subst hq
    cases q <;> simp only [DataReg.bytes] at hk <;> simp only [Block.regByte, true_and, DataReg.offset] <;>
      first
      | rw [byteOf_withByte _ _ _ _ (by omega)]
      | (by_cases hko : k = o - 40
         · have h12 : o - 40 < 12 := by omega
           simp [hko, h12]
         · have hne : ¬ o - 40 = k := by omega
           simp [hko, hne])
  · simp only [hq, false_and, if_false]
    cases r <;> cases q <;> first | rfl | exact absurd rfl hq

/-- What one stored byte leaves in the window (R58): a data register's byte is replaced, nothing else changes. -/
theorem windowByte_storeByte (b : Block) (o x : Nat) (v : Byte) :
    (b.storeByte o v).windowByte x = if x = o ∧ (rowOf o).isData = true then v else b.windowByte x := by
  cases ho : rowOf o with
  | cmd => simp [Row.isData, Block.storeByte, ho]
  | status => simp [Row.isData, Block.storeByte, ho]
  | reserved => simp [Row.isData, Block.storeByte, ho]
  | data r =>
    have hob := rowOf_data_iff.mp ho
    cases hx : rowOf x with
    | data q =>
      have hxb := rowOf_data_iff.mp hx
      rw [windowByte_of_data hx, windowByte_of_data hx, regByte_storeByte ho q _ (by omega)]
      by_cases hxo : x = o
      · subst hxo
        have hqr : q = r := by rw [hx] at ho; injection ho
        subst hqr
        simp [Row.isData]
      · have hne : ¬ (q = r ∧ x - q.offset = o - r.offset) := by
          rintro ⟨rfl, h⟩
          omega
        simp [hxo, hne]
    | cmd | status | reserved =>
      have hxo : x ≠ o := by rintro rfl; rw [hx] at ho; cases ho
      have hu : ∀ c : Block, c.windowByte x = (match rowOf x with
        | .cmd => byteOf c.cmd x | .status => byteOf c.status (x - 0x04)
        | .data r => c.regByte r (x - r.offset) | .reserved => 0) := fun _ => rfl
      rw [hu, hu, hx]
      cases r <;> simp [hxo, Block.storeByte, ho]

/-- The marks after one stored byte (R58). -/
theorem markAt_storeByte (b : Block) (o x : Nat) (v : Byte) (hx : x < 0x34) :
    (b.storeByte o v).markAt x = (b.markAt x || decide (x = o ∧ (rowOf o).isData = true)) := by
  unfold Block.storeByte
  cases ho : rowOf o with
  | cmd => simp [Row.isData]
  | status => simp [Row.isData]
  | reserved => simp [Row.isData]
  | data r =>
    have hob := rowOf_data_iff.mp ho
    have key : ∀ c : Block, c.marks = setMarks b.marks o 1 →
        c.markAt x = (b.markAt x || decide (x = o ∧ (Row.data r).isData = true)) := by
      intro c hc
      rw [markAt_setMarks hc x hx]
      have h8 : 8 ≤ o := by cases r <;> simp only [DataReg.offset] at hob <;> omega
      by_cases hxo : x = o
      · subst hxo; simp [h8, Row.isData]
      · have : ¬ (o ≤ x ∧ x < o + 1) := by omega
        rcases Nat.lt_or_ge x o with h | h
        · simp [hxo, Nat.not_le.mpr h]
        · have h2 : ¬ x < o + 1 := by omega
          simp [hxo, h2]
    cases r <;> exact key _ rfl

/-- What one stored byte leaves elsewhere. -/
@[simp] theorem storeByte_cmd (b : Block) (o : Nat) (v : Byte) : (b.storeByte o v).cmd = b.cmd := by
  unfold Block.storeByte; split <;> rfl

@[simp] theorem storeByte_status (b : Block) (o : Nat) (v : Byte) : (b.storeByte o v).status = b.status := by
  unfold Block.storeByte; split <;> rfl

@[simp] theorem storeBytes_cmd (b : Block) (o : Nat) (v : DWord) (n : Nat) : (b.storeBytes o v n).cmd = b.cmd := by
  induction n with
  | zero => rfl
  | succ n ih => simp [Block.storeBytes, ih]

@[simp] theorem storeBytes_status (b : Block) (o : Nat) (v : DWord) (n : Nat) :
    (b.storeBytes o v n).status = b.status := by
  induction n with
  | zero => rfl
  | succ n ih => simp [Block.storeBytes, ih]

/-- What the stored bytes leave in the window (R54, R58). -/
theorem windowByte_storeBytes (b : Block) (o : Nat) (v : DWord) (x : Nat) : ∀ n,
    (b.storeBytes o v n).windowByte x =
      if o ≤ x ∧ x < o + n ∧ (rowOf x).isData = true then byteOf v (x - o) else b.windowByte x := by
  intro n
  induction n with
  | zero =>
    have h : ¬ (o ≤ x ∧ x < o + 0 ∧ (rowOf x).isData = true) := by omega
    rw [if_neg h]; rfl
  | succ n ih =>
    simp only [Block.storeBytes, windowByte_storeByte, ih]
    by_cases hx : x = o + n
    · subst hx
      have e : o + n - o = n := by omega
      by_cases hd : (rowOf (o + n)).isData = true
      · simp [hd]
      · simp [hd]
    · have h1 : (o ≤ x ∧ x < o + (n + 1) ∧ (rowOf x).isData = true) ↔ (o ≤ x ∧ x < o + n ∧ (rowOf x).isData = true) := by
        constructor <;> rintro ⟨h1, h2, h3⟩ <;> exact ⟨h1, by omega, h3⟩
      simp only [hx, false_and, if_false, h1]

/-- The marks after the stored bytes (R58). -/
theorem markAt_storeBytes (b : Block) (o : Nat) (v : DWord) (x : Nat) (hx : x < 0x34) : ∀ n,
    (b.storeBytes o v n).markAt x =
      (b.markAt x || decide (o ≤ x ∧ x < o + n ∧ (rowOf x).isData = true)) := by
  intro n
  induction n with
  | zero =>
    have h : ¬ (o ≤ x ∧ x < o + 0 ∧ (rowOf x).isData = true) := by omega
    simp only [h, decide_false, Bool.or_false]; rfl
  | succ n ih =>
    simp only [Block.storeBytes, markAt_storeByte _ _ _ _ hx, ih]
    by_cases hxo : x = o + n
    · subst hxo
      by_cases hd : (rowOf (o + n)).isData = true <;> simp [hd]
    · have h1 : (o ≤ x ∧ x < o + (n + 1) ∧ (rowOf x).isData = true) ↔ (o ≤ x ∧ x < o + n ∧ (rowOf x).isData = true) := by
        constructor <;> rintro ⟨h1, h2, h3⟩ <;> exact ⟨h1, by omega, h3⟩
      simp [hxo, h1]

end Sys2Proof.Machine
end

