-- ==== Sys2Proof/Laws/Exec.lean ====
section
/-! SUPPORT. What `exec` can do, said once for all commands: each is `runCommand` on its operands and its effect on the
block. -/

namespace Sys2Proof.Machine

open Sys2Proof

/-- The effect of each command on the block. -/
def effect (arith : Config.MapArith) : Instr → Block → Block
  | .nop, b => b.ok
  | .maplat, b => if checkLat b.lat then (b.writeLatFrac (mapLat arith b.lat)).ok else b.raise (.range 0)
  | .maplng, b => if checkLng b.lng then (b.writeLngFrac (mapLng arith b.lng)).ok else b.raise (.range 1)
  | .unmaplat, b => (b.writeLat (unmapLat b.latFrac)).ok
  | .unmaplng, b => (b.writeLng (unmapLng b.lngFrac)).ok
  | .ilv, b => (b.writeKey (interleave b.latFrac b.lngFrac)).ok
  | .dilv, b => ((b.writeLatFrac (deinterleave b.key).1).writeLngFrac (deinterleave b.key).2).ok
  | .k2s, b => (b.writeHash (keyToString b.key)).ok
  | .s2k, b => match validate b.hash with
    | some (j, c) => b.raise (.invalidCharacter j c)
    | none => (b.writeKey (stringToKey b.hash)).ok
  | .valid, b => match validate b.hash with
    | some (j, c) => b.raise (.invalidCharacter j c)
    | none => b.ok
  | .enc, b =>
    if !checkLat b.lat then b.raise (.range 0)
    else if !checkLng b.lng then b.raise (.range 1)
    else (b.writeEncoded (mapLat arith b.lat) (mapLng arith b.lng)).ok
  | .dec, b => match validate b.hash with
    | some (j, c) => b.raise (.invalidCharacter j c)
    | none => (b.writeDecoded (stringToKey b.hash)).ok

/-- Every command reads its operands and then has its effect. -/
theorem exec_eq_runCommand (i : Instr) (s : State) :
    exec i s = runCommand (reads i) (effect s.params.mapArith i) s :=
  match i with
  | .nop => rfl
  | .maplat => rfl
  | .maplng => rfl
  | .unmaplat => rfl
  | .unmaplng => rfl
  | .ilv => rfl
  | .dilv => rfl
  | .k2s => rfl
  | .s2k => rfl
  | .valid => rfl
  | .enc => rfl
  | .dec => rfl

theorem operandsWritten_iff {i : Instr} {b : Block} : OperandsWritten i b ↔ b.allWritten (reads i) = true :=
  allWritten_iff.symm

/-- Everything a command can answer when it goes on: its effect on the block, and UnwrittenOperand unless its operands are
written. -/
theorem exec_eq_next_iff {i : Instr} {s t : State} :
    exec i s = .next t ↔ Ready i s ∧
      t = { s.noting (s.block.allWritten (reads i)) .unwrittenOperand with
            block := effect s.params.mapArith i s.block } := by
  rw [exec_eq_runCommand, runCommand_eq_next_iff, usable_iff, Ready, operandsWritten_iff]

theorem ready_of_written {i : Instr} {s : State} (h : OperandsWritten i s.block) : Ready i s := .inr h

theorem ready_of_hold {s : State} (h : s.onUnwritten = .hold) (i : Instr) : Ready i s := .inl h

theorem exec_of_written {i : Instr} {s : State} (h : OperandsWritten i s.block) :
    exec i s = .next { s with block := effect s.params.mapArith i s.block } := by
  rw [exec_eq_runCommand, runCommand_of_written (operandsWritten_iff.mp h)]

theorem exec_eq_fault_iff {i : Instr} {s : State} {f : Fault} :
    exec i s = .fault f ↔ f = .unwrittenOperand ∧ s.onUnwritten = .stop ∧ ¬ OperandsWritten i s.block := by
  rw [exec_eq_runCommand, runCommand_eq_fault_iff, operandsWritten_iff, Bool.not_eq_true]

theorem exec_ne_refused {i : Instr} {s : State} {r : Refusal} : exec i s ≠ .refused r := by
  rw [exec_eq_runCommand]
  exact runCommand_ne_refused

/-- No command writes CMD. -/
@[simp] theorem effect_cmd (arith : Config.MapArith) (i : Instr) (b : Block) : (effect arith i b).cmd = b.cmd := by
  cases i <;> simp only [effect, Block.writeEncoded, Block.writeDecoded] <;> (try split_ifs) <;> (try split) <;> simp

/-- An illegal word answers a next state that reports it, whatever is written. -/
theorem execIllegal_eq (s : State) : execIllegal s = .next { s with block := s.block.raise .illegalCommand } := rfl

/-- A word is executed by the command it decodes to. -/
theorem execute_of_command {w : Word} {i : Instr} (h : decode w = .command i) (s : State) : execute w s = exec i s := by
  simp [execute, h]

theorem execute_of_illegal {w : Word} {why : Illegal} (h : decode w = .illegal why) (s : State) :
    execute w s = .next { s with block := s.block.raise .illegalCommand } := by
  simp [execute, h, execIllegal_eq]

end Sys2Proof.Machine
end

