-- ==== Sys2Proof/Laws/Bus.lean ====
section
/-! SUPPORT. What a step can do, said once: one lemma per kind of arrival. -/

namespace Sys2Proof.Machine

open Sys2Proof

theorem step_of_idle {s : State} (h : s.inbox = []) : step s = .next s := by
  simp [step, h]

theorem step_of_reset {s : State} {rest : List Event} (h : s.inbox = .reset :: rest) :
    step s = .next (resetEvent { s with inbox := rest }) := by
  simp [step, h]

theorem step_of_access {s : State} {host : Nat} {a : Access} {rest : List Event} (h : s.inbox = .access host a :: rest) :
    step s = access host a { s with inbox := rest } := by
  simp [step, h]

theorem access_of_outside {host : Nat} {a : Access} {s : State} (h : inWindow s.params.base a.addr = false) :
    access host a s = .next (s.reply host .notOurs) := by
  simp [access, h]

theorem access_of_illegal {host : Nat} {a : Access} {s : State} (h : inWindow s.params.base a.addr = true)
    (hl : legal (a.addr - s.params.base) a.width = false) : access host a s = .fault (.busError host) := by
  simp [access, h, hl]

theorem access_read_of_legal {host addr n : Nat} {s : State} (h : inWindow s.params.base addr = true)
    (hl : legal (addr - s.params.base) n = true) :
    access host (.read addr n) s = readWindow host (addr - s.params.base) n s := by
  simp [access, Access.addr, Access.width, h, hl]

theorem access_write_of_legal {host addr n : Nat} {v : DWord} {s : State} (h : inWindow s.params.base addr = true)
    (hl : legal (addr - s.params.base) n = true) :
    access host (.write addr n v) s = writeWindow host (addr - s.params.base) n v s := by
  simp [access, Access.addr, Access.width, h, hl]

/-- A legal access to the CMD row is 4 bytes at its first (R55). -/
theorem legal_cmd {o n : Nat} (hl : legal o n = true) (h : rowOf o = .cmd) : o = 0 ∧ n = 4 := by
  have hb := legal_bounds hl
  simp [legal, h, Row.first, Row.bytes] at hl
  omega

/-- The bytes a read covers need no mark, or have it (R57). -/
def readWritten (b : Block) (o n : Nat) : Bool := !(rowOf o).isData || b.written o n

/-- A read that goes on adds its answer, and UnwrittenRead unless the bytes it covers are written. -/
theorem readWindow_next {host o n : Nat} {s t : State} (h : readWindow host o n s = .next t) :
    t = (s.noting (readWritten s.block o n) (.unwrittenRead host)).reply host (.data n (s.block.loadBytes o n)) := by
  unfold readWindow at h
  dsimp only at h
  split at h
  · rename_i r hr
    split at h
    · cases h
      simp [readWritten, hr, Row.isData]
    · cases h
  all_goals
    rename_i hr
    cases h
    simp [readWritten, hr, Row.isData]

/-- What `answering` hands on. -/
theorem answering_eq_next_iff {host : Nat} {a : Answer} {x : Host.Outcome State Fault Refusal} {t : State} :
    answering host a x = .next t ↔ ∃ u, x = .next u ∧ t = u.reply host a := by
  cases x with
  | next u =>
    simp only [answering, Host.Outcome.next.injEq]
    constructor
    · intro h; exact ⟨u, rfl, h.symm⟩
    · rintro ⟨v, rfl, h⟩; exact h.symm
  | fault f => simp [answering]
  | refused r => simp [answering]

/-- What a step that goes on has done: waited, taken a reset, let an access outside the window pass, answered a read,
ignored a write, stored bytes, or executed a command word. -/
theorem step_cases {s t : State} (h : step s = .next t) :
    (s.inbox = [] ∧ t = s) ∨
    (∃ rest, s.inbox = .reset :: rest ∧ t = resetEvent { s with inbox := rest }) ∨
    ∃ host a rest, s.inbox = .access host a :: rest ∧
      ((inWindow s.params.base a.addr = false ∧ t = { s with inbox := rest }.reply host .notOurs) ∨
       (inWindow s.params.base a.addr = true ∧ legal (a.addr - s.params.base) a.width = true ∧
        ((∃ addr n, a = .read addr n ∧
            t = ({ s with inbox := rest }.noting (readWritten s.block (addr - s.params.base) n) (.unwrittenRead host)).reply
              host (.data n (s.block.loadBytes (addr - s.params.base) n))) ∨
         ∃ addr n v, a = .write addr n v ∧
           ((rowOf (addr - s.params.base) = .cmd ∧ addr = s.params.base ∧ n = 4 ∧
              ∃ u, issue (v.setWidth 32) { s with inbox := rest } = .next u ∧ t = u.reply host .written) ∨
            ((rowOf (addr - s.params.base) = .status ∨ rowOf (addr - s.params.base) = .reserved) ∧
              t = { s with inbox := rest }.reply host .written) ∨
            ((rowOf (addr - s.params.base)).isData = true ∧
              t = { s with inbox := rest, block := s.block.storeBytes (addr - s.params.base) v n }.reply host .written))))) := by
  cases hi : s.inbox with
  | nil =>
    rw [step_of_idle hi] at h
    cases h
    exact .inl ⟨rfl, rfl⟩
  | cons e rest =>
    right
    cases e with
    | reset =>
      rw [step_of_reset hi] at h
      cases h
      exact .inl ⟨rest, rfl, rfl⟩
    | access host a =>
      right
      rw [step_of_access hi] at h
      refine ⟨host, a, rest, rfl, ?_⟩
      cases hw : inWindow s.params.base a.addr with
      | false =>
        rw [access_of_outside (s := { s with inbox := rest }) hw] at h
        cases h
        exact .inl ⟨rfl, rfl⟩
      | true =>
        right
        cases hl : legal (a.addr - s.params.base) a.width with
        | false =>
          rw [access_of_illegal (s := { s with inbox := rest }) hw hl] at h
          cases h
        | true =>
          refine ⟨rfl, rfl, ?_⟩
          cases a with
          | read addr n =>
            rw [access_read_of_legal (addr := addr) (n := n) (s := { s with inbox := rest }) hw hl] at h
            exact .inl ⟨addr, n, rfl, readWindow_next h⟩
          | write addr n v =>
            rw [access_write_of_legal (addr := addr) (n := n) (s := { s with inbox := rest }) hw hl] at h
            refine .inr ⟨addr, n, v, rfl, ?_⟩
            unfold writeWindow at h
            simp only at h
            cases hr : rowOf (addr - s.params.base) with
            | cmd =>
              simp only [hr] at h
              obtain ⟨u, hu, rfl⟩ := answering_eq_next_iff.mp h
              have ho := legal_cmd hl hr
              have hb : s.params.base ≤ addr := by
                simp only [inWindow, Access.addr, Bool.and_eq_true] at hw
                exact of_decide_eq_true hw.1
              have e1 : addr - s.params.base = 0 := ho.1
              exact .inl ⟨rfl, by omega, ho.2, u, hu, rfl⟩
            | status => simp only [hr] at h; cases h; exact .inr (.inl ⟨.inl rfl, rfl⟩)
            | reserved => simp only [hr] at h; cases h; exact .inr (.inl ⟨.inr rfl, rfl⟩)
            | data r => simp only [hr] at h; cases h; exact .inr (.inr ⟨rfl, rfl⟩)

/-- A run, step by step. -/
theorem run_succ_eq_next_iff {k : Nat} {s t : State} :
    Sys2Proof.core.run (k + 1) s = .next t ↔ ∃ u, step s = .next u ∧ Sys2Proof.core.run k u = .next t := by
  have h : Sys2Proof.core.step s = step s := rfl
  cases hs : step s with
  | next u =>
    rw [hs] at h
    simp only [Host.Core.run, h]
    constructor
    · intro hr
      exact ⟨u, rfl, hr⟩
    · rintro ⟨v, hv, hr⟩
      cases hv
      exact hr
  | fault f =>
    rw [hs] at h
    simp only [Host.Core.run, h]
    constructor
    · intro hr
      cases hr
    · rintro ⟨v, hv, -⟩
      cases hv
  | refused r =>
    rw [hs] at h
    simp only [Host.Core.run, h]
    constructor
    · intro hr
      cases hr
    · rintro ⟨v, hv, -⟩
      cases hv

end Sys2Proof.Machine
end

