-- ==== Sys2Proof/Laws/Decode.lean ====
section
/-! SUPPORT. Laws of the little-endian byte lists that the decoder reads. -/

namespace Sys2Proof

@[simp] theorem leBytes_length (n : Nat) : ∀ w, (leBytes n w).length = n := by
  induction n with
  | zero => intro w; rfl
  | succ n ih => intro w; simp [leBytes, ih]

theorem leNat_leBytes (n : Nat) : ∀ w, leNat (leBytes n w) = w % 256 ^ n := by
  induction n with
  | zero => intro w; simp [leNat, leBytes, Nat.mod_one]
  | succ n ih =>
    intro w
    simp only [leNat, leBytes, ih, BitVec.toNat_ofNat]
    have e : (256 : Nat) ^ (n + 1) = 256 * 256 ^ n := by rw [pow_succ, Nat.mul_comm]
    rw [e, Nat.mod_mul]

theorem leBytes_leNat (bs : List Byte) : leBytes bs.length (leNat bs) = bs := by
  induction bs with
  | nil => rfl
  | cons b bs ih =>
    have hb := b.isLt
    have e : (b.toNat + 256 * leNat bs) / 256 = leNat bs := by omega
    simp only [List.length_cons, leBytes, leNat]
    rw [e, ih]
    congr 1
    apply BitVec.eq_of_toNat_eq
    simp only [BitVec.toNat_ofNat]
    omega

theorem leNat_lt (bs : List Byte) : leNat bs < 256 ^ bs.length := by
  induction bs with
  | nil => simp [leNat]
  | cons b bs ih =>
    have := b.isLt
    simp only [List.length_cons, leNat, pow_succ]
    omega

/-- A command word is the one byte OPCODE below three zero bytes. -/
theorem rsvdField_eq_zero_iff {w : Word} : rsvdField w = 0 ↔ w.toNat < 256 := by
  rw [← BitVec.toNat_inj]
  simp only [rsvdField, BitVec.extractLsb'_toNat, Nat.shiftRight_eq_div_pow]
  have := w.isLt
  have e : (0 : BitVec 24).toNat = 0 := rfl
  rw [e]
  omega

theorem toNat_opcodeField (w : Word) : (opcodeField w).toNat = w.toNat % 256 := by
  simp [opcodeField, BitVec.extractLsb'_toNat]

end Sys2Proof
end

