-- ==== Sys2Proof/Laws/Float64.lean ====
section
/-! SUPPORT. What the binary64 operations of Machine/Float64.lean can do: the encoding orders the magnitudes, rounding
is exact on representable values, monotone and at most half a unit of the last place off, and each operation returns
an exact result that is representable. -/

namespace Sys2Proof.Machine.Float64

open Sys2Proof

@[simp] theorem pow2_eq (n : Nat) : pow2 n = 2 ^ n := by
  unfold pow2
  rw [← pow_mul, ← pow_add]
  congr 1
  omega

theorem one_eq : one = 2 ^ 1074 := pow2_eq 1074

theorem one_pos : 0 < one := by rw [one_eq]; positivity

/-! ## The encoding of a magnitude -/

/-- The encoding of a significand `s` of at most 53 bits, or 2^53 itself, at 2^k units. -/
theorem magUnits_scaled {k s : Nat} (hs : s ≤ 2 ^ 53) (hk : k = 0 ∨ 2 ^ 52 ≤ s) : magUnits (k * 2 ^ 52 + s) = s * 2 ^ k := by
  unfold magUnits
  rw [pow2_eq]
  rcases Nat.lt_or_ge s (2 ^ 52) with h | h
  · have hk0 : k = 0 := by omega
    subst hk0
    have hd : (0 * 2 ^ 52 + s) / 2 ^ 52 = 0 := by omega
    rw [if_pos hd]
    omega
  · rcases Nat.lt_or_ge s (2 ^ 53) with h' | h'
    · have hd : (k * 2 ^ 52 + s) / 2 ^ 52 = k + 1 := by omega
      have hm : (k * 2 ^ 52 + s) % 2 ^ 52 = s - 2 ^ 52 := by omega
      rw [hd, hm, if_neg (by omega)]
      have e : 2 ^ 52 + (s - 2 ^ 52) = s := by omega
      rw [e, Nat.add_sub_cancel]
    · have e : s = 2 ^ 53 := by omega
      have hd : (k * 2 ^ 52 + s) / 2 ^ 52 = k + 2 := by omega
      have hm : (k * 2 ^ 52 + s) % 2 ^ 52 = 0 := by omega
      rw [hd, hm, if_neg (by omega), e]
      have e2 : k + 2 - 1 = k + 1 := by omega
      rw [e2, pow_succ]
      ring

/-- Every magnitude pattern has such a significand and scale. -/
theorem magBits_scaled (m : Nat) : ∃ k s, m = k * 2 ^ 52 + s ∧ s < 2 ^ 53 ∧ (k = 0 ∨ 2 ^ 52 ≤ s) := by
  rcases Nat.lt_or_ge m (2 ^ 53) with h | h
  · exact ⟨0, m, by omega, h, .inl rfl⟩
  · exact ⟨m / 2 ^ 52 - 1, 2 ^ 52 + m % 2 ^ 52, by omega, by omega, .inr (by omega)⟩

/-- The next pattern encodes the next magnitude, so the encoding orders the magnitudes. -/
theorem magUnits_lt_succ (m : Nat) : magUnits m < magUnits (m + 1) := by
  obtain ⟨k, s, rfl, hs, hk⟩ := magBits_scaled m
  have e : k * 2 ^ 52 + s + 1 = k * 2 ^ 52 + (s + 1) := by omega
  rw [e, magUnits_scaled (by omega) hk, magUnits_scaled (by omega) (by omega)]
  have : 0 < 2 ^ k := by positivity
  nlinarith

theorem magUnits_strictMono : StrictMono magUnits := strictMono_nat_of_lt_succ magUnits_lt_succ

@[simp] theorem magUnits_zero : magUnits 0 = 0 := by simp [magUnits]

theorem magUnits_eq_zero_iff {m : Nat} : magUnits m = 0 ↔ m = 0 := by
  rw [← magUnits_zero]
  exact magUnits_strictMono.injective.eq_iff

/-! ## Rounding to an integer -/

theorem roundDiv_mul (c : Nat) {b : Nat} (hb : 0 < b) : roundDiv (c * b) b = c := by
  simp [roundDiv, hb.ne', hb]

/-- At most half a unit off. -/
theorem roundDiv_near (a : Nat) {b : Nat} (hb : 0 < b) :
    2 * a ≤ 2 * (roundDiv a b * b) + b ∧ 2 * (roundDiv a b * b) ≤ 2 * a + b := by
  have h1 := Nat.div_add_mod a b
  have h2 := Nat.mod_lt a hb
  have hc : b * (a / b) = a / b * b := Nat.mul_comm _ _
  unfold roundDiv
  split_ifs with h h'
  · constructor <;> omega
  · rw [Nat.add_mul]; constructor <;> omega
  · rcases Nat.mod_two_eq_zero_or_one (a / b) with e | e
    · rw [e, Nat.add_zero]; constructor <;> omega
    · rw [e, Nat.add_mul]; constructor <;> omega

theorem roundDiv_le_succ (a b : Nat) : roundDiv a b ≤ a / b + 1 := by
  unfold roundDiv
  split_ifs <;> omega

theorem div_le_roundDiv (a b : Nat) : a / b ≤ roundDiv a b := by
  unfold roundDiv
  split_ifs <;> omega

/-- Rounding keeps the order of the quotients a / b ≤ c / d. -/
theorem roundDiv_mono {a b c d : Nat} (hb : 0 < b) (hd : 0 < d) (h : a * d ≤ c * b) : roundDiv a b ≤ roundDiv c d := by
  have hq : a / b ≤ c / d := by
    rw [Nat.le_div_iff_mul_le hd]
    refine Nat.le_of_mul_le_mul_right ?_ hb
    calc a / b * d * b = a / b * b * d := by ring
      _ ≤ a * d := Nat.mul_le_mul_right _ (Nat.div_mul_le_self a b)
      _ ≤ c * b := h
  rcases Nat.lt_or_ge (a / b) (c / d) with hlt | hge
  · exact (roundDiv_le_succ a b).trans (hlt.trans_le (div_le_roundDiv c d)) 
  · have he : a / b = c / d := le_antisymm hq hge
    have h1 := Nat.div_add_mod a b
    have h2 := Nat.div_add_mod c d
    have hr : a % b * d ≤ c % d * b := by
      have e1 : a * d = b * (a / b) * d + a % b * d := by rw [← Nat.add_mul, h1]
      have e2 : c * b = d * (a / b) * b + c % d * b := by rw [← Nat.add_mul, he, h2]
      have e3 : b * (a / b) * d = d * (a / b) * b := by ring
      omega
    unfold roundDiv
    rw [he]
    by_cases g1 : 2 * (a % b) < b
    · rw [if_pos g1]
      split_ifs <;> omega
    · have k1 : b ≤ 2 * (a % b) := by omega
      have g3 : ¬ 2 * (c % d) < d := by
        intro hlt
        have : b * d ≤ 2 * (a % b) * d := Nat.mul_le_mul_right _ k1
        have : 2 * (c % d) * b < d * b := Nat.mul_lt_mul_of_pos_right hlt hb
        nlinarith
      rw [if_neg g1, if_neg g3]
      by_cases g2 : b < 2 * (a % b)
      · have g4 : d < 2 * (c % d) := by
          by_contra hcon
          have h5 : 2 * (c % d) * b ≤ d * b := Nat.mul_le_mul_right _ (by omega)
          have h6 : b * d < 2 * (a % b) * d := Nat.mul_lt_mul_of_pos_right g2 hd
          nlinarith
        rw [if_pos g2, if_pos g4]
      · rw [if_neg g2]
        split_ifs <;> omega

/-! ## Rounding to binary64 -/

/-- The scale that `roundMag` rounds at: 2^k units with 53 significant bits above, or one unit. -/
theorem roundMag_scale {num den : Nat} (hden : 0 < den) :
    ∃ k, (k = 0 ∨ 2 ^ 52 * (den * 2 ^ k) ≤ num) ∧ num < 2 ^ 53 * (den * 2 ^ k) ∧ k = Nat.log2 (num / den) - 52 ∧
      roundMag num den = min (k * 2 ^ 52 + roundDiv num (den * 2 ^ k)) infBits := by
  refine ⟨Nat.log2 (num / den) - 52, ?_, ?_, rfl, ?_⟩
  · rcases Nat.lt_or_ge 52 (Nat.log2 (num / den)) with h | h
    · right
      have hq : num / den ≠ 0 := by
        intro h0
        rw [h0] at h
        simp [Nat.log2_zero] at h
      have h1 : 2 ^ Nat.log2 (num / den) ≤ num / den := Nat.log2_self_le hq
      have e : 2 ^ 52 * 2 ^ (Nat.log2 (num / den) - 52) = 2 ^ Nat.log2 (num / den) := by
        rw [← pow_add]; congr 1; omega
      calc 2 ^ 52 * (den * 2 ^ (Nat.log2 (num / den) - 52))
          = 2 ^ Nat.log2 (num / den) * den := by rw [← e]; ring
        _ ≤ num / den * den := Nat.mul_le_mul_right _ h1
        _ ≤ num := Nat.div_mul_le_self _ _
    · left; omega
  · have h1 : num / den < 2 ^ (Nat.log2 (num / den) + 1) := Nat.lt_log2_self
    have h2 : num / den < 2 ^ 53 * 2 ^ (Nat.log2 (num / den) - 52) := by
      refine h1.trans_le ?_
      rw [← pow_add]
      exact Nat.pow_le_pow_right (by norm_num) (by omega)
    have h3 := (Nat.div_lt_iff_lt_mul hden).mp h2
    calc num < 2 ^ 53 * 2 ^ (Nat.log2 (num / den) - 52) * den := h3
      _ = _ := by ring
  · simp [roundMag]

/-- At that scale the rounded significand has 53 bits, or is 2^53. -/
theorem roundDiv_scale_bounds {num den k : Nat} (hden : 0 < den) (h1 : k = 0 ∨ 2 ^ 52 * (den * 2 ^ k) ≤ num)
    (h2 : num < 2 ^ 53 * (den * 2 ^ k)) :
    (k = 0 ∨ 2 ^ 52 ≤ roundDiv num (den * 2 ^ k)) ∧ roundDiv num (den * 2 ^ k) ≤ 2 ^ 53 := by
  have hp : 0 < den * 2 ^ k := by positivity
  constructor
  · rcases h1 with h | h
    · exact .inl h
    · exact .inr (((Nat.le_div_iff_mul_le hp).mpr h).trans (div_le_roundDiv _ _))
  · have := (Nat.div_lt_iff_lt_mul hp).mpr h2
    exact (roundDiv_le_succ _ _).trans this

/-- A representable quotient is returned as it is. -/
theorem roundMag_exact {m den : Nat} (hm : m ≤ infBits) (hden : 0 < den) : roundMag (magUnits m * den) den = m := by
  obtain ⟨k, s, rfl, hs, hk⟩ := magBits_scaled m
  rw [magUnits_scaled hs.le hk]
  have hlog : Nat.log2 (s * 2 ^ k * den / den) - 52 = k := by
    rw [Nat.mul_div_cancel _ hden]
    rcases hk with rfl | hk
    · rw [pow_zero, Nat.mul_one]
      rcases Nat.eq_zero_or_pos s with rfl | hpos
      · simp
      · have : Nat.log2 s < 53 := (Nat.log2_lt hpos.ne').mpr hs
        omega
    · have hne : s * 2 ^ k ≠ 0 := by positivity
      have h1 : 52 + k ≤ Nat.log2 (s * 2 ^ k) := by
        rw [Nat.le_log2 hne, pow_add]
        exact Nat.mul_le_mul_right _ hk
      have h2 : Nat.log2 (s * 2 ^ k) < 53 + k := by
        rw [Nat.log2_lt hne, pow_add]
        exact Nat.mul_lt_mul_of_pos_right hs (by positivity)
      omega
  obtain ⟨k', -, -, hk', hr⟩ := roundMag_scale (num := s * 2 ^ k * den) hden
  rw [hlog] at hk'
  subst hk'
  have e : s * 2 ^ k' * den = s * (den * 2 ^ k') := by ring
  rw [hr, e, roundDiv_mul _ (by positivity), min_eq_left hm]

/-- Rounding keeps the order of the quotients num / den ≤ num' / den'. -/
theorem roundMag_mono {num den num' den' : Nat} (hden : 0 < den) (hden' : 0 < den')
    (h : num * den' ≤ num' * den) : roundMag num den ≤ roundMag num' den' := by
  obtain ⟨k, h1, h2, hk, hr⟩ := roundMag_scale (num := num) hden
  obtain ⟨k', h1', h2', hk', hr'⟩ := roundMag_scale (num := num') hden'
  have hq : num / den ≤ num' / den' := by
    rw [Nat.le_div_iff_mul_le hden']
    refine Nat.le_of_mul_le_mul_right ?_ hden
    calc num / den * den' * den = num / den * den * den' := by ring
      _ ≤ num * den' := Nat.mul_le_mul_right _ (Nat.div_mul_le_self _ _)
      _ ≤ num' * den := h
  have hkk : k ≤ k' := by
    rw [hk, hk']
    rcases Nat.eq_zero_or_pos (num / den) with h0 | hpos
    · rw [h0]; simp
    · have : Nat.log2 (num / den) ≤ Nat.log2 (num' / den') := by
        rw [Nat.le_log2 (by omega)]
        exact (Nat.log2_self_le hpos.ne').trans hq
      omega
  obtain ⟨b1, b2⟩ := roundDiv_scale_bounds hden h1 h2
  obtain ⟨b1', b2'⟩ := roundDiv_scale_bounds hden' h1' h2'
  rw [hr, hr']
  refine min_le_min_right _ ?_
  rcases Nat.lt_or_ge k k' with hlt | hge
  · have hs : 2 ^ 52 ≤ roundDiv num' (den' * 2 ^ k') := by
      rcases b1' with h0 | h0
      · omega
      · exact h0
    have : (k + 1) * 2 ^ 52 ≤ k' * 2 ^ 52 := Nat.mul_le_mul_right _ hlt
    omega
  · have he : k = k' := le_antisymm hkk hge
    subst he
    refine Nat.add_le_add_left (roundDiv_mono (by positivity) (by positivity) ?_) _
    calc num * (den' * 2 ^ k) = num * den' * 2 ^ k := by ring
      _ ≤ num' * den * 2 ^ k := Nat.mul_le_mul_right _ h
      _ = num' * (den * 2 ^ k) := by ring

/-- A quotient at most a representable value rounds to at most that value. -/
theorem roundMag_le {num den m : Nat} (hden : 0 < den) (hm : m ≤ infBits) (h : num ≤ magUnits m * den) :
    roundMag num den ≤ m := by
  have := roundMag_mono (num := num) (num' := magUnits m * den) hden hden (Nat.mul_le_mul_right _ h)
  rwa [roundMag_exact hm hden] at this

/-- A quotient at least a representable value rounds to at least that value. -/
theorem le_roundMag {num den m : Nat} (hden : 0 < den) (hm : m ≤ infBits) (h : magUnits m * den ≤ num) :
    m ≤ roundMag num den := by
  have := roundMag_mono (num := magUnits m * den) (num' := num) hden hden (Nat.mul_le_mul_right _ h)
  rwa [roundMag_exact hm hden] at this

theorem roundMag_le_inf (num den : Nat) : roundMag num den ≤ infBits := by
  simp [roundMag]

/-- A result below infinity is off by at most half a unit of the last place, that is by at most 2^-53 of the
quotient, or by half of the smallest subnormal. -/
theorem roundMag_near {num den : Nat} (hden : 0 < den) (hfin : roundMag num den < infBits) :
    ∃ k, (k = 0 ∨ 2 ^ 52 * (den * 2 ^ k) ≤ num) ∧
      2 * num ≤ 2 * (magUnits (roundMag num den) * den) + den * 2 ^ k ∧
      2 * (magUnits (roundMag num den) * den) ≤ 2 * num + den * 2 ^ k := by
  obtain ⟨k, h1, h2, -, hr⟩ := roundMag_scale (num := num) hden
  obtain ⟨b1, b2⟩ := roundDiv_scale_bounds hden h1 h2
  rw [hr] at hfin ⊢
  have hlt : k * 2 ^ 52 + roundDiv num (den * 2 ^ k) < infBits := by
    rcases min_lt_iff.mp hfin with h | h
    · exact h
    · exact absurd h (lt_irrefl _)
  rw [min_eq_left hlt.le, magUnits_scaled b2 b1]
  have e : roundDiv num (den * 2 ^ k) * 2 ^ k * den = roundDiv num (den * 2 ^ k) * (den * 2 ^ k) := by ring
  rw [e]
  exact ⟨k, h1, roundDiv_near num (by positivity)⟩

/-! ## Signs and magnitudes of encodings -/

/-- A sign bit and 63 magnitude bits make an encoding. -/
theorem toNat_eq (x : F64) : x.toNat = (if sign x then 2 ^ 63 else 0) + magBits x := by
  unfold sign magBits
  have h := x.isLt
  rw [BitVec.getLsbD, Nat.testBit_eq_decide_div_mod_eq]
  split_ifs with hs <;> simp only [decide_eq_true_eq] at hs <;> omega

theorem eq_pack (x : F64) : x = pack (sign x) (magBits x) := by
  apply BitVec.eq_of_toNat_eq
  rw [pack, ← toNat_eq x, BitVec.toNat_ofNat]
  exact (Nat.mod_eq_of_lt x.isLt).symm

theorem toNat_pack (s : Bool) {m : Nat} (hm : m < 2 ^ 63) : (pack s m).toNat = (if s then 2 ^ 63 else 0) + m := by
  rw [pack, BitVec.toNat_ofNat]
  exact Nat.mod_eq_of_lt (by split_ifs <;> omega)

theorem magBits_lt (x : F64) : magBits x < 2 ^ 63 := Nat.mod_lt _ (by positivity)

theorem magBits_pack (s : Bool) {m : Nat} (hm : m < 2 ^ 63) : magBits (pack s m) = m := by
  rw [magBits, toNat_pack s hm]
  split_ifs <;> omega

theorem sign_pack (s : Bool) {m : Nat} (hm : m < 2 ^ 63) : sign (pack s m) = s := by
  have h := toNat_eq (pack s m)
  rw [toNat_pack s hm, magBits_pack s hm] at h
  cases s <;> cases hs : sign (pack _ m) <;> simp_all

theorem units_pack (s : Bool) {m : Nat} (hm : m < 2 ^ 63) :
    units (pack s m) = if s then -(magUnits m : Int) else (magUnits m : Int) := by
  rw [units, sign_pack s hm, magBits_pack s hm]

theorem infBits_lt : infBits < 2 ^ 63 := by decide

theorem natAbs_units (x : F64) : (units x).natAbs = magUnits (magBits x) := by
  unfold units
  split_ifs <;> simp

theorem isFinite_iff {x : F64} : isFinite x = true ↔ magBits x < infBits := by simp [isFinite]

theorem isNaN_eq_false {x : F64} (h : isFinite x = true) : isNaN x = false := by
  rw [isFinite_iff] at h
  simp [isNaN, h.le]

theorem isInf_eq_false {x : F64} (h : isFinite x = true) : isInf x = false := by
  rw [isFinite_iff] at h
  simp [isInf, h.ne]

theorem neg64_eq (x : F64) : neg64 x = pack (!sign x) (magBits x) := by
  have h1 : sign (neg64 x) = !sign x := by simp [sign, neg64]
  have h2 : magBits (neg64 x) = magBits x := by
    unfold magBits
    apply Nat.eq_of_testBit_eq
    intro i
    rw [Nat.testBit_mod_two_pow, Nat.testBit_mod_two_pow]
    rcases Nat.lt_or_ge i 63 with h | h
    · have hx : (0x8000000000000000#64).getLsbD i = false := by interval_cases i <;> decide
      simp only [h, decide_true, Bool.true_and]
      change (neg64 x).getLsbD i = x.getLsbD i
      rw [neg64, BitVec.getLsbD_xor, show (0x8000000000000000 : F64) = 0x8000000000000000#64 from rfl, hx, Bool.xor_false]
    · simp [Nat.not_lt.mpr h]
  rw [eq_pack (neg64 x), h1, h2]

theorem units_neg64 (x : F64) : units (neg64 x) = -units x := by
  rw [neg64_eq, units_pack _ (magBits_lt x), units]
  cases sign x <;> simp

theorem isFinite_neg64 (x : F64) : isFinite (neg64 x) = isFinite x := by
  rw [neg64_eq, isFinite, magBits_pack _ (magBits_lt x), isFinite]

/-! ## The operations on finite values -/

/-- A sum of finite values: zero, or the exact sum rounded. -/
theorem add64_finite {a b : F64} (ha : isFinite a = true) (hb : isFinite b = true) :
    add64 a b = if units a + units b = 0 then pack (sign a && sign b) 0
      else pack (decide (units a + units b < 0)) (roundMag (units a + units b).natAbs 1) := by
  simp [add64, isNaN_eq_false ha, isNaN_eq_false hb, isInf_eq_false ha, isInf_eq_false hb]

theorem mul64_finite {a b : F64} (ha : isFinite a = true) (hb : isFinite b = true) :
    mul64 a b = pack (sign a != sign b) (roundMag (magUnits (magBits a) * magUnits (magBits b)) one) := by
  simp [mul64, isNaN_eq_false ha, isNaN_eq_false hb, isInf_eq_false ha, isInf_eq_false hb]

theorem div64_finite {a b : F64} (ha : isFinite a = true) (hb : isFinite b = true) (h0 : magBits b ≠ 0) :
    div64 a b = pack (sign a != sign b) (roundMag (magUnits (magBits a) * one) (magUnits (magBits b))) := by
  simp [div64, isNaN_eq_false ha, isNaN_eq_false hb, isInf_eq_false ha, isInf_eq_false hb, h0]

/-- A sum that is representable and not zero is that value. -/
theorem add64_exact {a b c : F64} (ha : isFinite a = true) (hb : isFinite b = true) (hc : isFinite c = true)
    (h : units a + units b = units c) (h0 : units c ≠ 0) : add64 a b = c := by
  rw [add64_finite ha hb, h, if_neg h0, natAbs_units]
  have hr := roundMag_exact (den := 1) (isFinite_iff.mp hc).le Nat.one_pos
  rw [Nat.mul_one] at hr
  rw [hr]
  have hsgn : decide (units c < 0) = sign c := by
    have hm : magUnits (magBits c) ≠ 0 := by
      intro e
      apply h0
      simp [units, e]
    unfold units
    cases sign c
    · simp
    · simp; omega
  rw [hsgn]
  exact (eq_pack c).symm

/-- A product that is representable, with bits [62:0] of value `m`, is that value. -/
theorem mul64_exact {a b : F64} {m : Nat} (ha : isFinite a = true) (hb : isFinite b = true) (hm : m ≤ infBits)
    (h : magUnits (magBits a) * magUnits (magBits b) = magUnits m * one) : mul64 a b = pack (sign a != sign b) m := by
  rw [mul64_finite ha hb, h, roundMag_exact hm one_pos]

/-- A quotient that is representable, with bits [62:0] of value `m`, is that value. -/
theorem div64_exact {a b : F64} {m : Nat} (ha : isFinite a = true) (hb : isFinite b = true) (h0 : magBits b ≠ 0)
    (hm : m ≤ infBits) (h : magUnits (magBits a) * one = magUnits m * magUnits (magBits b)) :
    div64 a b = pack (sign a != sign b) m := by
  have hpos : 0 < magUnits (magBits b) := Nat.pos_of_ne_zero (fun e => h0 (magUnits_eq_zero_iff.mp e))
  rw [div64_finite ha hb h0, h, roundMag_exact hm hpos]

/-- Some encoding holds every magnitude of at most 53 significant bits. -/
theorem exists_magBits (k s : Nat) (hs : s < 2 ^ 53) : ∃ m, magUnits m = s * 2 ^ k ∧ m < k * 2 ^ 52 + 2 ^ 53 := by
  induction k generalizing s with
  | zero => exact ⟨0 * 2 ^ 52 + s, magUnits_scaled hs.le (.inl rfl), by omega⟩
  | succ k ih =>
    rcases Nat.lt_or_ge s (2 ^ 52) with h | h
    · obtain ⟨m, hm, hlt⟩ := ih (2 * s) (by omega)
      refine ⟨m, ?_, hlt.trans_le (Nat.add_le_add_right (Nat.mul_le_mul_right _ k.le_succ) _)⟩
      rw [hm, pow_succ]
      ring
    · exact ⟨(k + 1) * 2 ^ 52 + s, magUnits_scaled hs.le (.inr h), by omega⟩

end Sys2Proof.Machine.Float64
end

