-- ==== Sys2Proof/Laws/Interleave.lean ====
section
/-! SUPPORT. Each bit that the loops of the bit interleaver produce. -/

namespace Sys2Proof.Machine

open Sys2Proof

theorem bitTo64_getLsbD {w : Nat} (v : BitVec w) (i p q : Nat) :
    (bitTo64 v i p).getLsbD q = (decide (q < 64 ∧ q = p) && v.getLsbD i) := by
  simp only [bitTo64, BitVec.getLsbD_shiftLeft, BitVec.getLsbD_setWidth, BitVec.getLsbD_ofBool]
  by_cases h : q = p
  · subst h
    by_cases h64 : q < 64 <;> simp [h64]
  · have : ¬ (p ≤ q ∧ q - p = 0) := by omega
    by_cases h1 : q < p <;> simp [h, h1]
    intros
    omega

theorem bitTo32_getLsbD {w : Nat} (v : BitVec w) (i p q : Nat) :
    (bitTo32 v i p).getLsbD q = (decide (q < 32 ∧ q = p) && v.getLsbD i) := by
  simp only [bitTo32, BitVec.getLsbD_shiftLeft, BitVec.getLsbD_setWidth, BitVec.getLsbD_ofBool]
  by_cases h : q = p
  · subst h
    by_cases h32 : q < 32 <;> simp [h32]
  · have : ¬ (p ≤ q ∧ q - p = 0) := by omega
    by_cases h1 : q < p <;> simp [h, h1]
    intros
    omega

/-- Key bit q of the first `n` turns: latitude bit q/2 at even q, longitude bit q/2 at odd q. -/
theorem interleaveBits_getLsbD (a b : Word) (q : Nat) : ∀ n, n ≤ 32 →
    (interleaveBits a b n).getLsbD q =
      (decide (q < 2 * n) && if q % 2 = 0 then a.getLsbD (q / 2) else b.getLsbD (q / 2)) := by
  intro n
  induction n with
  | zero => intro _; simp [interleaveBits]
  | succ n ih =>
    intro hn
    rw [interleaveBits, BitVec.getLsbD_or, BitVec.getLsbD_or, ih (by omega), bitTo64_getLsbD, bitTo64_getLsbD]
    by_cases h0 : q = 2 * n
    · have h64 : 2 * n < 64 := by omega
      have hlt : 2 * n < 2 * (n + 1) := by omega
      simp [h0, h64, hlt]
    · by_cases h1 : q = 2 * n + 1
      · have e : (2 * n + 1) / 2 = n := by omega
        have h64 : 2 * n + 1 < 64 := by omega
        have hlt : 2 * n + 1 < 2 * (n + 1) := by omega
        simp [h1, e, h64, hlt]
      · have e : decide (q < 2 * (n + 1)) = decide (q < 2 * n) := by
          rw [decide_eq_decide]; omega
        simp [h0, h1, e]

theorem interleave_getLsbD (a b : Word) {q : Nat} (hq : q < 64) :
    (interleave a b).getLsbD q = if q % 2 = 0 then a.getLsbD (q / 2) else b.getLsbD (q / 2) := by
  rw [interleave, interleaveBits_getLsbD a b q 32 (le_refl _)]
  simp [hq]

/-- Fraction bit q of the first `n` turns: key bit 2q + odd. -/
theorem deinterleaveBits_getLsbD (k : DWord) (odd q : Nat) : ∀ n, n ≤ 32 →
    (deinterleaveBits k odd n).getLsbD q = (decide (q < n) && k.getLsbD (2 * q + odd)) := by
  intro n
  induction n with
  | zero => intro _; simp [deinterleaveBits]
  | succ n ih =>
    intro hn
    rw [deinterleaveBits, BitVec.getLsbD_or, ih (by omega), bitTo32_getLsbD]
    by_cases h : q = n
    · subst h
      have h32 : q < 32 := by omega
      simp [h32]
    · have e : decide (q < n + 1) = decide (q < n) := by
        rw [decide_eq_decide]; omega
      rw [e]
      simp [h]

end Sys2Proof.Machine
end

