-- ==== Sys2Proof/Laws/Mapper.lean ====
section
/-! SUPPORT. What the mapper's primitives compute, in units of 2^-1074, for a range [-W, W] such as the two of
spec/00_scope.md R5: everything later claims need of the binary64 steps. -/

namespace Sys2Proof.Machine

open Sys2Proof Sys2Proof.Machine.Float64

/-- The binary64 constants of one axis: `lo` = -W and `span` = 2W (R5). -/
structure Axis (W : Nat) (lo span : F64) : Prop where
  pos : 0 < W
  small : W ≤ 2 ^ 8
  loFinite : isFinite lo = true
  loUnits : units lo = -((W * one : Nat) : Int)
  spanFinite : isFinite span = true
  spanSign : sign span = false
  spanMag : magUnits (magBits span) = 2 * W * one

theorem latAxis : Axis 90 latMin latSpan := by
  constructor <;> decide +kernel

theorem lngAxis : Axis 180 lngMin lngSpan := by
  constructor <;> decide +kernel

theorem two32_finite : isFinite two32 = true := by decide
theorem two32_sign : sign two32 = false := by decide
theorem two32_mag : magUnits (magBits two32) = 2 ^ 32 * one := by decide +kernel

/-- A magnitude below 2^106 has a finite encoding if 53 significant bits hold it. -/
theorem exists_finite {k s : Nat} (hs : s < 2 ^ 53) (hk : k ≤ 1127) :
    ∃ m, magUnits m = s * 2 ^ k ∧ m < infBits := by
  obtain ⟨m, hm, hlt⟩ := exists_magBits k s hs
  refine ⟨m, hm, hlt.trans_le ?_⟩
  calc k * 2 ^ 52 + 2 ^ 53 ≤ 1127 * 2 ^ 52 + 2 ^ 53 := Nat.add_le_add_right (Nat.mul_le_mul_right _ hk) _
    _ ≤ infBits := by decide

theorem finite_pack (s : Bool) {m : Nat} (hm : m < infBits) : isFinite (pack s m) = true := by
  rw [isFinite_iff, magBits_pack s (hm.trans infBits_lt)]
  exact hm

/-- The integers below 2^53 are exact (R8). -/
theorem toF64_exact {n : Nat} (hn : n < 2 ^ 53) :
    ∃ m, toF64 n = pack false m ∧ m < infBits ∧ magUnits m = n * one := by
  obtain ⟨m, hm, hfin⟩ := exists_finite (k := 1074) hn (by norm_num)
  refine ⟨m, ?_, hfin, by rw [hm, one_eq]⟩
  have h := roundMag_exact (den := 1) hfin.le Nat.one_pos
  rw [Nat.mul_one, hm] at h
  rw [toF64, one_eq, h]

/-- The zero results of a sum are +0 here, since `lo` is negative and the other operand is not. -/
theorem sign_of_units_neg {x : F64} (h : units x < 0) : sign x = true := by
  unfold units at h
  by_contra hs
  rw [if_neg hs] at h
  omega

theorem sign_of_units_pos {x : F64} (h : 0 < units x) : sign x = false := by
  unfold units at h
  by_contra hs
  rw [if_pos (by simpa using hs)] at h
  omega

/-- The units in 2^-32: what a fraction counts (R85). -/
def fracUnit : Nat := pow2 1042

theorem one_eq_fracUnit : one = 2 ^ 32 * fracUnit := by
  rw [one, fracUnit, pow2_eq, pow2_eq, ← pow_add]

theorem fracUnit_pos : 0 < fracUnit := by
  rw [fracUnit, pow2_eq]
  positivity

/-- A multiple of 2^-32 with at most 53 significant bits is finite. -/
theorem exists_finite_frac {s : Nat} (hs : s < 2 ^ 53) : ∃ m, magUnits m = s * fracUnit ∧ m < infBits := by
  rw [fracUnit, pow2_eq]
  exact exists_finite hs (by norm_num)

/-- The quotient f / 2^32 is exact. -/
theorem fraction_exact {n : Nat} (hn : n < 2 ^ 53) :
    ∃ m, div64 (toF64 n) two32 = pack false m ∧ m < infBits ∧ magUnits m = n * fracUnit := by
  obtain ⟨mf, e0, fin0, hmf⟩ := toF64_exact hn
  obtain ⟨m, hm, fin⟩ := exists_finite_frac hn
  have hne : magBits two32 ≠ 0 := by decide
  refine ⟨m, ?_, fin, hm⟩
  rw [e0, div64_exact (finite_pack _ fin0) two32_finite hne fin.le, sign_pack _ (fin0.trans infBits_lt), two32_sign]
  · rfl
  · rw [magBits_pack _ (fin0.trans infBits_lt), hmf, hm, two32_mag, one_eq_fracUnit]
    ring

/-- The product with the span is exact. -/
theorem scaled_exact {W : Nat} {lo span : F64} (ax : Axis W lo span) {n : Nat} (hn : n < 2 ^ 32) :
    ∃ m, mul64 (div64 (toF64 n) two32) span = pack false m ∧ m < infBits ∧ magUnits m = 2 * W * n * fracUnit := by
  have hsmall : 2 * W * n < 2 ^ 53 := by
    have := ax.small
    calc 2 * W * n ≤ 2 ^ 9 * n := Nat.mul_le_mul_right _ (by omega)
      _ < 2 ^ 53 := by omega
  obtain ⟨mt, e0, fin1, hmt⟩ := fraction_exact (n := n) (by omega)
  obtain ⟨m, hm, fin⟩ := exists_finite_frac hsmall
  refine ⟨m, ?_, fin, hm⟩
  rw [e0, mul64_exact (finite_pack _ fin1) ax.spanFinite fin.le, sign_pack _ (fin1.trans infBits_lt), ax.spanSign]
  · rfl
  · rw [magBits_pack _ (fin1.trans infBits_lt), hmt, hm, ax.spanMag]
    ring

/-- A finite encoding of any multiple of 2^-32 below 2^53 of them, of either sign. -/
theorem exists_finite_int {z : Int} (hz : z.natAbs < 2 ^ 53) :
    ∃ x, isFinite x = true ∧ units x = z * fracUnit := by
  obtain ⟨m, hm, fin⟩ := exists_finite_frac hz
  refine ⟨pack (decide (z < 0)) m, finite_pack _ fin, ?_⟩
  rw [units_pack _ (fin.trans infBits_lt), hm]
  by_cases h : z < 0
  · have e : (z.natAbs : Int) = -z := by omega
    rw [if_pos (by simpa using h), Nat.cast_mul, e]
    ring
  · have e : (z.natAbs : Int) = z := by omega
    rw [if_neg (by simpa using h), Nat.cast_mul, e]

theorem fraction_offset_small {W n : Nat} (hW : W ≤ 2 ^ 8) (hn : n < 2 ^ 32) :
    (2 * W * n - W * 2 ^ 32 : Int).natAbs < 2 ^ 53 := by
  have h1 : 2 * W * n ≤ 2 * 2 ^ 8 * 2 ^ 32 := Nat.mul_le_mul (by omega) hn.le
  have e : (2 * W * n - W * 2 ^ 32 : Int) = ((2 * W * n : Nat) : Int) - ((W * 2 ^ 32 : Nat) : Int) := by push_cast; ring
  rw [e]
  omega

/-- `unmapFrac` is exact: lo + f * span / 2^32 (R105), and its zero is +0. -/
theorem unmapFrac_exact {W : Nat} {lo span : F64} (ax : Axis W lo span) (f : Word) :
    isFinite (unmapFrac f lo span) = true ∧
    units (unmapFrac f lo span) = (2 * W * f.toNat - W * 2 ^ 32 : Int) * fracUnit ∧
    (units (unmapFrac f lo span) = 0 → unmapFrac f lo span = 0) := by
  have hf : f.toNat < 2 ^ 32 := f.isLt
  have hW := ax.small
  obtain ⟨mu, e, fin2, hmu⟩ := scaled_exact ax hf
  have hdef : unmapFrac f lo span = add64 lo (pack false mu) := by
    rw [← e]
    rfl
  have hsum : units lo + units (pack false mu) = (2 * W * f.toNat - W * 2 ^ 32 : Int) * fracUnit := by
    rw [units_pack _ (fin2.trans infBits_lt), hmu, ax.loUnits, one_eq_fracUnit, if_neg (by decide)]
    push_cast
    ring
  have hlo : sign lo = true := sign_of_units_neg (by
    rw [ax.loUnits]
    have : 0 < W * one := Nat.mul_pos ax.pos one_pos
    omega)
  by_cases h0 : units lo + units (pack false mu) = 0
  · have hr : unmapFrac f lo span = 0 := by
      rw [hdef, add64_finite ax.loFinite (finite_pack _ fin2), if_pos h0, sign_pack _ (fin2.trans infBits_lt), Bool.and_false]
      decide
    refine ⟨by rw [hr]; decide, ?_, fun _ => hr⟩
    rw [← hsum, h0, hr]
    decide
  · obtain ⟨x, hx, hux⟩ := exists_finite_int (z := (2 * W * f.toNat - W * 2 ^ 32 : Int)) (fraction_offset_small ax.small hf)
    have hx0 : units x ≠ 0 := by rw [hux, ← hsum]; exact h0
    have hr : unmapFrac f lo span = x := hdef.trans
      (add64_exact ax.loFinite (finite_pack false fin2) hx (hsum.trans hux.symm) hx0)
    rw [hr]
    exact ⟨hx, hux, fun hz => absurd hz hx0⟩

/-- The value that a sum or a quotient of `num / den` units rounds to, in units. -/
def roundUnits (num den : Nat) : Nat := magUnits (roundMag num den)

theorem roundUnits_mono {num den num' den' : Nat} (hden : 0 < den) (hden' : 0 < den')
    (h : num * den' ≤ num' * den) : roundUnits num den ≤ roundUnits num' den' :=
  magUnits_strictMono.monotone (roundMag_mono hden hden' h)

/-- Rounding never crosses a representable value from below … -/
theorem roundUnits_le {num den k s : Nat} (hden : 0 < den) (hs : s < 2 ^ 53) (hk : k ≤ 1127)
    (h : num ≤ s * 2 ^ k * den) : roundUnits num den ≤ s * 2 ^ k := by
  obtain ⟨m, hm, hfin⟩ := exists_finite hs hk
  rw [← hm] at h ⊢
  exact magUnits_strictMono.monotone (roundMag_le hden hfin.le h)

/-- … nor from above … -/
theorem le_roundUnits {num den k s : Nat} (hden : 0 < den) (hs : s < 2 ^ 53) (hk : k ≤ 1127)
    (h : s * 2 ^ k * den ≤ num) : s * 2 ^ k ≤ roundUnits num den := by
  obtain ⟨m, hm, hfin⟩ := exists_finite hs hk
  rw [← hm] at h ⊢
  exact magUnits_strictMono.monotone (le_roundMag hden hfin.le h)

/-- … and it is at most half a unit of the last place off. -/
theorem roundUnits_near {num den k s : Nat} (hden : 0 < den) (hs : s < 2 ^ 53) (hk : k ≤ 1127)
    (h : num ≤ s * 2 ^ k * den) : ∃ j, (j = 0 ∨ 2 ^ 52 * (den * 2 ^ j) ≤ num) ∧
      2 * num ≤ 2 * (roundUnits num den * den) + den * 2 ^ j ∧
      2 * (roundUnits num den * den) ≤ 2 * num + den * 2 ^ j := by
  obtain ⟨m, hm, hfin⟩ := exists_finite hs hk
  rw [← hm] at h
  exact roundMag_near hden ((roundMag_le hden hfin.le h).trans_lt hfin)

/-- What the binary64 quotient of R100 is, for a coordinate `u` units above `lo`, with `u` at most the span: the floor of
the twice rounded quotient. The scaling by 2^32 between the two roundings is exact. -/
theorem quotientBinary64_eq {W : Nat} {lo span v : F64} (ax : Axis W lo span) (hv : isFinite v = true) {u : Nat}
    (hu : (u : Int) = units v - units lo) (hle : u ≤ 2 * W * one) :
    quotientBinary64 v lo span =
      (roundUnits (2 ^ 32 * roundUnits u 1 * one) (2 * W * one) / one : Nat) := by
  have hW := ax.small
  have hWpos := ax.pos
  have hden : 0 < 2 * W * one := Nat.mul_pos (Nat.mul_pos Nat.two_pos hWpos) one_pos
  have hR : roundUnits u 1 ≤ 2 * W * 2 ^ 1074 := by
    refine roundUnits_le Nat.one_pos (by omega) (by norm_num) ?_
    rw [Nat.mul_one, ← one_eq]
    exact hle
  have hneg : isFinite (neg64 lo) = true := by rw [isFinite_neg64]; exact ax.loFinite
  have hsum : units v + units (neg64 lo) = (u : Int) := by rw [units_neg64, hu]; ring
  have hlo : sign (neg64 lo) = false := sign_of_units_pos (by
    rw [units_neg64, ax.loUnits]
    have : 0 < W * one := Nat.mul_pos ax.pos one_pos
    omega)
  obtain ⟨mW, hmW, finW⟩ := exists_finite (k := 1074) (s := 2 * W) (by omega) (by norm_num)
  have hrm : roundMag u 1 ≤ mW := by
    refine roundMag_le Nat.one_pos finW.le ?_
    rw [hmW, Nat.mul_one, ← one_eq]
    exact hle
  have fin0 : roundMag u 1 < infBits := hrm.trans_lt finW
  have e0 : sub64 v lo = pack false (roundMag u 1) := by
    unfold sub64
    rw [add64_finite hv hneg, hsum]
    by_cases h0 : (u : Int) = 0
    · have hu0 : u = 0 := by exact_mod_cast h0
      have hz : roundMag 0 1 = 0 := by decide
      rw [if_pos h0, hlo, hu0, hz, Bool.and_false]
    · rw [if_neg h0, decide_eq_false (by omega), Int.natAbs_natCast]
  obtain ⟨k, s, hks, hs, hk0⟩ := magBits_scaled (roundMag u 1)
  have hmag : magUnits (roundMag u 1) = s * 2 ^ k := by rw [hks, magUnits_scaled hs.le hk0]
  have hk : k ≤ 1074 + 21 := by
    rcases hk0 with h | h
    · omega
    · have h1 : 2 ^ 52 * 2 ^ k ≤ 2 ^ 9 * 2 ^ 1074 := by
        calc 2 ^ 52 * 2 ^ k ≤ s * 2 ^ k := Nat.mul_le_mul_right _ h
          _ = roundUnits u 1 := hmag.symm
          _ ≤ 2 * W * 2 ^ 1074 := hR
          _ ≤ 2 ^ 9 * 2 ^ 1074 := Nat.mul_le_mul_right _ (by omega)
      rw [← pow_add, ← pow_add] at h1
      have := (Nat.pow_le_pow_iff_right (by norm_num)).mp h1
      omega
  obtain ⟨mn, hmn, finn⟩ := exists_finite (k := k + 32) hs (by omega)
  have e1 : mul64 two32 (pack false (roundMag u 1)) = pack false mn := by
    rw [mul64_exact two32_finite (finite_pack _ fin0) finn.le, sign_pack _ (fin0.trans infBits_lt), two32_sign]
    · rfl
    · rw [magBits_pack _ (fin0.trans infBits_lt), two32_mag, hmag, hmn, pow_add]
      ring
  have hne : magBits span ≠ 0 := by
    intro h
    have := ax.spanMag
    rw [h, magUnits_zero] at this
    omega
  have e2 : div64 (pack false mn) span = pack false (roundMag (2 ^ 32 * roundUnits u 1 * one) (2 * W * one)) := by
    rw [div64_finite (finite_pack _ finn) ax.spanFinite hne, sign_pack _ (finn.trans infBits_lt), ax.spanSign,
      magBits_pack _ (finn.trans infBits_lt), ax.spanMag]
    have hnum : magUnits mn * one = 2 ^ 32 * roundUnits u 1 * one := by
      rw [hmn, roundUnits, hmag, pow_add]
      ring
    rw [hnum]
    rfl
  have hq : quotientBinary64 v lo span = floor (div64 (mul64 two32 (sub64 v lo)) span) := rfl
  rw [hq, e0, e1, e2, floor, units_pack _ ((roundMag_le_inf _ _).trans_lt infBits_lt), if_neg (by decide)]
  rw [← Int.natCast_ediv]
  rfl

end Sys2Proof.Machine
end

