-- ==== Sys2Proof/Laws/PerInstr.lean ====
section
/-! SUPPORT. Statements about every command as syntax, one lemma per constructor. -/

namespace Sys2Proof.Laws.OneByteWord

open Sys2Proof

/-- The command is well formed, its word is its OPCODE alone and a legal one (spec/30_encoding.md R83, R84, R85), and the
bytes of a CMD write are OPCODE, 0, 0, 0 (spec/20_memory.md R52). -/
def Statement (i : Instr) : Prop :=
  i.wellFormed = true ∧ wellFormedWord (encode i) = true ∧ rsvdField (encode i) = 0 ∧
    encodeBytes i = [opcodeField (encode i), 0, 0, 0]

theorem nop : Statement .nop := by refine ⟨?_, ?_, ?_, ?_⟩ <;> decide
theorem maplat : Statement .maplat := by refine ⟨?_, ?_, ?_, ?_⟩ <;> decide
theorem maplng : Statement .maplng := by refine ⟨?_, ?_, ?_, ?_⟩ <;> decide
theorem unmaplat : Statement .unmaplat := by refine ⟨?_, ?_, ?_, ?_⟩ <;> decide
theorem unmaplng : Statement .unmaplng := by refine ⟨?_, ?_, ?_, ?_⟩ <;> decide
theorem ilv : Statement .ilv := by refine ⟨?_, ?_, ?_, ?_⟩ <;> decide
theorem dilv : Statement .dilv := by refine ⟨?_, ?_, ?_, ?_⟩ <;> decide
theorem k2s : Statement .k2s := by refine ⟨?_, ?_, ?_, ?_⟩ <;> decide
theorem s2k : Statement .s2k := by refine ⟨?_, ?_, ?_, ?_⟩ <;> decide
theorem valid : Statement .valid := by refine ⟨?_, ?_, ?_, ?_⟩ <;> decide
theorem enc : Statement .enc := by refine ⟨?_, ?_, ?_, ?_⟩ <;> decide
theorem dec : Statement .dec := by refine ⟨?_, ?_, ?_, ?_⟩ <;> decide

end Sys2Proof.Laws.OneByteWord
end

