-- ==== Sys2Proof/Tests/Slice0.lean ====
section
/-! SUPPORT. Tests whose expected results are the spec's own (spec/95_test_vectors.md and the rules named), and for every
statement with hypotheses a concrete state and operands that meet them. -/

namespace Sys2Proof.Tests

open Sys2Proof Sys2Proof.Machine Sys2Proof.Machine.Float64

/-! ## Small states -/

/-- The machine at reset, with these registers. -/
def withBlock (b : Block) : State := { State.reset with block := b }

/-- Every byte written, every data register zero, HASH the string of zeros. -/
def filled : Block :=
  { Block.reset with hash := Vector.replicate 12 0x30, marks := Vector.replicate 44 true }

/-- `filled` with these coordinates. -/
def coords (lat lng : F64) : State := withBlock { filled with lat := lat, lng := lng }

/-- `filled` with these fractions. -/
def fracs (a c : Word) : State := withBlock { filled with latFrac := a, lngFrac := c }

/-- `filled` with this key. -/
def keyed (k : DWord) : State := withBlock { filled with key := k }

/-- `filled` with this string. -/
def hashed (h : Chars) : State := withBlock { filled with hash := h }

/-- The same machine where a run keeps the model fault of a use of an unwritten byte and goes on. -/
def holding (s : State) : State := { s with onUnwritten := .hold }

/-- The same machine with its window at this address. -/
def atBase (base : Nat) (s : State) : State := { s with params := { s.params with base := base } }

/-- The same machine with these arrivals to come. -/
def facing (es : List Event) (s : State) : State := { s with inbox := es }

/-- The block after a command. -/
def after (i : Instr) (s : State) : Option Block :=
  match issue (encode i) s with
  | .next t => some t.block
  | .fault _ => none
  | .refused _ => none

/-- The block after an illegal word. -/
def afterWord (w : Word) (s : State) : Option Block :=
  match issue w s with
  | .next t => some t.block
  | .fault _ => none
  | .refused _ => none

/-- STATUS after one step. -/
def statusAfter (s : State) : Option Word :=
  match step s with
  | .next t => some t.block.status
  | .fault _ => none
  | .refused _ => none

/-- The answers after `k` steps, the latest first. -/
def answers (k : Nat) (s : State) : Option (List Answer) :=
  match Sys2Proof.core.run k s with
  | .next t => some (t.replies.map Reply.answer)
  | .fault _ => none
  | .refused _ => none

/-- The fault a run of `k` steps ends in. -/
def faultOf (k : Nat) (s : State) : Option Fault :=
  match Sys2Proof.core.run k s with
  | .next _ => none
  | .fault f => some f
  | .refused _ => none

/-- The model fault that a run of `k` steps has recorded. -/
def recorded (k : Nat) (s : State) : Option (Option Fault) :=
  match Sys2Proof.core.run k s with
  | .next t => some t.modelFault
  | .fault _ => none
  | .refused _ => none

/-- "w7er87fpgd52" (E1). -/
def w7er : Chars := #v[0x77, 0x37, 0x65, 0x72, 0x38, 0x37, 0x66, 0x70, 0x67, 0x64, 0x35, 0x32]

/-- "w7er87fpgd5a" (E8). -/
def w7era : Chars := #v[0x77, 0x37, 0x65, 0x72, 0x38, 0x37, 0x66, 0x70, 0x67, 0x64, 0x35, 0x61]

/-- "bcdefghjkmnp" (V-B32). -/
def bcdef : Chars := #v[0x62, 0x63, 0x64, 0x65, 0x66, 0x67, 0x68, 0x6A, 0x6B, 0x6D, 0x6E, 0x70]

/-! ## WellFormed: one ill-formed term for each check -/

theorem test_wf_reserved_bit_refused : wellFormedWord 0x00000100 = false := by decide
theorem test_wf_top_bit_refused : wellFormedWord 0x8000000A = false := by decide
theorem test_wf_reserved_opcode_refused : wellFormedWord 0x0000000C = false := by decide
theorem test_wf_last_opcode_accepted : wellFormedWord 0x0000000B = true := by decide
theorem test_wf_base_alignment_refused : ({ resetParams with base := 32 } : Config.Params).wellFormed = false := by decide
theorem test_wf_no_host_refused : ({ resetParams with hostCount := 0 } : Config.Params).wellFormed = false := by decide
theorem test_wf_params_accepted : ({ resetParams with base := 0x40001000 } : Config.Params).wellFormed = true := by decide

/-! ## Decode: the words of spec/30_encoding.md R85, written out as the bytes of a CMD write (R52) and bit by bit -/

theorem test_decode_bytes :
    decodeBytes [0x00, 0, 0, 0] = .command .nop ∧ decodeBytes [0x01, 0, 0, 0] = .command .maplat ∧
    decodeBytes [0x02, 0, 0, 0] = .command .maplng ∧ decodeBytes [0x03, 0, 0, 0] = .command .unmaplat ∧
    decodeBytes [0x04, 0, 0, 0] = .command .unmaplng ∧ decodeBytes [0x05, 0, 0, 0] = .command .ilv ∧
    decodeBytes [0x06, 0, 0, 0] = .command .dilv ∧ decodeBytes [0x07, 0, 0, 0] = .command .k2s ∧
    decodeBytes [0x08, 0, 0, 0] = .command .s2k ∧ decodeBytes [0x09, 0, 0, 0] = .command .valid ∧
    decodeBytes [0x0A, 0, 0, 0] = .command .enc ∧ decodeBytes [0x0B, 0, 0, 0] = .command .dec := by decide

theorem test_decode_bits :
    decode 0b00000000000000000000000000000000 = .command .nop ∧
    decode 0b00000000000000000000000000000001 = .command .maplat ∧
    decode 0b00000000000000000000000000000100 = .command .unmaplng ∧
    decode 0b00000000000000000000000000000110 = .command .dilv ∧
    decode 0b00000000000000000000000000001000 = .command .s2k ∧
    decode 0b00000000000000000000000000001011 = .command .dec := by decide

/-- The high byte is the last one (R52), so an OPCODE there is a reserved bit. -/
theorem test_decode_refuses :
    decodeBytes [0, 0, 0, 0x0A] = .illegal .reservedBits ∧ decodeBytes [0x0A, 1, 0, 0] = .illegal .reservedBits ∧
    decodeBytes [0x0C, 0, 0, 0] = .illegal .reservedOpcode ∧ decodeBytes [0xFF, 0, 0, 0] = .illegal .reservedOpcode ∧
    decodeBytes [0x0A, 0, 0] = .illegal .notOneWord ∧ decodeBytes [0x0A, 0, 0, 0, 0] = .illegal .notOneWord := by decide

/-- `decodeTableWord` numbers bits as spec/opcode_table.json does. -/
theorem test_decode_table_word : decodeTableWord 32 0x0A = some .enc ∧ decodeTableWord 32 0x0A000000 = none := by decide

/-! ## The commands, against the vectors of spec/95_test_vectors.md -/

/-- V-CTRL. -/
theorem test_nop : (after .nop (keyed 5)).map (fun b => (b.status, b.key)) = some (0x80000000, 5) := by decide

/-- V-CTRL, illegal words. -/
theorem test_illegal_words :
    (afterWord 0x0000000C (keyed 5)).map (fun b => (b.cmd, b.status, b.key)) = some (0x0C, 0x800C0003, 5) ∧
    (afterWord 0x0000010A (keyed 5)).map (fun b => (b.cmd, b.status, b.key)) = some (0x10A, 0x800A0003, 5) := by decide

/-- V-MAP: the known latitude, 90.0 by saturation, the neighbour of 90.0 that rounds up, -0.0 and the disagreement of
`binary64` and `exact`. -/
theorem test_maplat :
    (after .maplat (coords 0x4035071DE69AD42C 0)).map (fun b => (b.latFrac, b.status)) = some (0x9DE7FD03, 0x80010000) ∧
    mapLat .binary64 0x4056800000000000 = 0xFFFFFFFF ∧ mapLat .binary64 0x40567FFFFFFFFFFE = 0xFFFFFFFF ∧
    mapLat .binary64 0xC046800000000000 = 0x40000000 ∧ mapLat .binary64 0x0000000000000001 = 0x80000000 ∧
    mapLat .binary64 0x404E31E4E6A7FFFF = 0xD5E34124 ∧ mapLat .exact 0x404E31E4E6A7FFFF = 0xD5E34123 := by decide +kernel

/-- V-MAP: 90.00000000000001 and NaN are out of range and LATFRAC is unchanged. -/
theorem test_maplat_range_error :
    (after .maplat (withBlock { filled with lat := 0x4056800000000001, latFrac := 7 })).map (fun b => (b.latFrac, b.status))
      = some (7, 0x80010001) ∧
    (after .maplat (coords 0x7FF8000000000000 0)).map (fun b => b.status) = some 0x80010001 := by decide +kernel

/-- V-MAP. -/
theorem test_maplng :
    (after .maplng (coords 0 0x405A7563886594AF)).map (fun b => (b.lngFrac, b.status)) = some (0xCB428734, 0x80020000) ∧
    mapLng .binary64 0x40667FFFFFFFFFFF = 0xFFFFFFFF ∧ mapLng .binary64 0xC056800000000000 = 0x40000000 := by decide +kernel

/-- V-MAP: -infinity. -/
theorem test_maplng_range_error :
    (after .maplng (coords 0 0xFFF0000000000000)).map (fun b => (b.lngFrac, b.status)) = some (0, 0x80020009) := by
  decide +kernel

/-- V-UNMAP. -/
theorem test_unmaplat :
    (after .unmaplat (fracs 0x9DE7FD03 0)).map (fun b => (b.lat, b.status)) = some (0x4035071DE61C0000, 0x80030000) ∧
    unmapLat 0x7FFFFFFF = 0xBE66800000000000 ∧ unmapLat 0x80000000 = 0 ∧ unmapLat 0xFFFFFFFF = 0x40567FFFFFD30000 := by
  decide +kernel

/-- V-UNMAP. -/
theorem test_unmaplng :
    (after .unmaplng (fracs 0 0xCB428734)).map (fun b => (b.lng, b.status)) = some (0x405A756388480000, 0x80040000) ∧
    unmapLng 0x00000001 = 0xC0667FFFFFD30000 ∧ unmapLng 0x40000000 = 0xC056800000000000 := by decide +kernel

/-- V-ILV. -/
theorem test_ilv :
    (after .ilv (fracs 0x12345678 0x9ABCDEF0)).map (fun b => (b.key, b.status)) = some (0x838C8FB0B3BCBF40, 0x80050000) := by
  decide +kernel

/-- V-ILV. -/
theorem test_dilv :
    (after .dilv (keyed 0x0123456789ABCDEF)).map (fun b => (b.latFrac, b.lngFrac, b.status))
      = some (0x11BB11BB, 0x0505AFAF, 0x80060000) := by decide +kernel

/-- V-B32: "04jnbtw9pg6y". -/
theorem test_k2s :
    (after .k2s (keyed 0x0123456789ABCDEF)).map (fun b => (b.hash, b.status))
      = some (#v[0x30, 0x34, 0x6A, 0x6E, 0x62, 0x74, 0x77, 0x39, 0x70, 0x67, 0x36, 0x79], 0x80070000) := by decide +kernel

/-- V-B32. -/
theorem test_s2k :
    (after .s2k (hashed bcdef)).map (fun b => (b.key, b.status)) = some (0x52D8D73E1194E950, 0x80080000) := by decide +kernel

/-- V-B32: IDX 0, CHAR 0x57; KEY unchanged. -/
theorem test_s2k_invalid :
    (after .s2k (withBlock { filled with key := 9, hash := w7er.set 0 0x57 })).map (fun b => (b.key, b.status))
      = some (9, 0x80085702) := by decide +kernel

/-- V-B32: "i" at index 10, 0x80 at index 3. -/
theorem test_valid :
    (after .valid (hashed w7er)).map (fun b => b.status) = some 0x80090000 ∧
    (after .valid (hashed (w7er.set 10 0x69))).map (fun b => b.status) = some 0x800969A2 ∧
    (after .valid (hashed (w7er.set 3 0x80))).map (fun b => b.status) = some 0x80098032 := by decide +kernel

/-- E1. -/
theorem test_enc :
    (after .enc (coords 0x4035071DE69AD42C 0x405A7563886594AF)).map
        (fun b => (b.latFrac, b.lngFrac, b.key, b.hash, b.status))
      = some (0x9DE7FD03, 0xCB428734, 0xE1DB741DD57B0A25, w7er, 0x800A0000) := by decide +kernel

/-- V-ENC: both out of range reports latitude, 180.00000000000003 longitude. -/
theorem test_enc_range_error :
    (after .enc (coords 0x4056C00000000000 0x4069000000000000)).map (fun b => (b.hash, b.status))
      = some (Vector.replicate 12 0x30, 0x800A0001) ∧
    (after .enc (coords 0 0x4066800000000001)).map (fun b => (b.key, b.status)) = some (0, 0x800A0009) := by decide +kernel

/-- V-DEC. -/
theorem test_dec :
    (after .dec (hashed bcdef)).map (fun b => (b.key, b.latFrac, b.lngFrac, b.lat, b.lng, b.status))
      = some (0x52D8D73E1194E950, 0xCCF6569C, 0x1A9708E0, 0x404B0E9A72D80000, 0xC061D37370A00000, 0x800B0000) := by
  decide +kernel

/-- P3: an invalid character leaves the data registers unchanged. -/
theorem test_dec_invalid :
    (after .dec (withBlock { filled with lat := 3, hash := w7era })).map (fun b => (b.lat, b.status)) = some (3, 0x800B61B2) := by
  decide +kernel

/-- As the first command after reset, each of the twelve runs (log entry 8), DEC and S2K and VALID on an invalid HASH. -/
theorem test_first_command_runs :
    [0x0, 0x1, 0x2, 0x3, 0x4, 0x5, 0x6, 0x7, 0x8, 0x9, 0xA, 0xB].map (fun w => statusAfter (State.reset.withFetchWord 32 w))
      = [some 0x80000000, some 0x80010000, some 0x80020000, some 0x80030000, some 0x80040000, some 0x80050000,
        some 0x80060000, some 0x80070000, some 0x80080002, some 0x80090002, some 0x800A0000, some 0x800B0002] := by
  decide +kernel

/-! ## Host accesses, against V-MEM -/

/-- The end state of E1. -/
def e1 : State :=
  withBlock { filled with
    cmd := 0x0A, status := 0x800A0000, lat := 0x4035071DE69AD42C, lng := 0x405A7563886594AF, latFrac := 0x9DE7FD03,
    lngFrac := 0xCB428734, key := 0xE1DB741DD57B0A25, hash := w7er }

theorem test_reads_after_e1 :
    answers 1 (facing [.access 0 (rd 0 1 0x28 0)] e1) = some [.data 1 0x77] ∧
    answers 1 (facing [.access 0 (rd 0 4 0x28 0)] e1) = some [.data 4 0x72653777] ∧
    answers 1 (facing [.access 0 (rd 0 8 0x28 0)] e1) = some [.data 8 0x7066373872653777] ∧
    answers 1 (facing [.access 0 (rd 0 4 0x28 8)] e1) = some [.data 4 0x32356467] ∧
    answers 1 (facing [.access 0 (rd 0 1 0x20 7)] e1) = some [.data 1 0xE1] ∧
    answers 1 (facing [.access 0 (rd 0 2 0x08 6)] e1) = some [.data 2 0x4035] ∧
    answers 1 (facing [.access 0 (rd 0 4 0x34 0)] e1) = some [.data 4 0] ∧
    answers 1 (facing [.access 0 (rd 0 8 0x38 0)] e1) = some [.data 8 0] := by decide +kernel

/-- `wr32 STATUS` is ignored, and `wr32 LAT` replaces the low half only. -/
theorem test_writes_after_e1 :
    answers 2 (facing [.access 0 (wr 0 4 0x04 0 0xFFFFFFFF), .access 0 (rd 0 4 0x04 0)] e1)
      = some [.data 4 0x800A0000, .written] ∧
    answers 2 (facing [.access 0 (wr 0 4 0x08 0 0), .access 0 (rd 0 8 0x08 0)] e1)
      = some [.data 8 0x4035071D00000000, .written] := by decide +kernel

theorem test_bus_errors :
    faultOf 1 (facing [.access 0 (rd 0 8 0x00 0)] e1) = some (.busError 0) ∧
    faultOf 1 (facing [.access 0 (rd 0 8 0x18 0)] e1) = some (.busError 0) ∧
    faultOf 1 (facing [.access 0 (rd 0 8 0x30 0)] e1) = some (.busError 0) ∧
    faultOf 1 (facing [.access 0 (rd 0 4 0x0A 0)] e1) = some (.busError 0) ∧
    faultOf 1 (facing [.access 0 (wr 0 2 0x00 0 0x0A)] e1) = some (.busError 0) := by decide +kernel

/-- V-MEM: the model faults of R34 and R57, right after reset. -/
theorem test_unwritten_stops :
    faultOf 1 (facing [.access 0 (rd 0 8 0x20 0)] State.reset) = some (.unwrittenRead 0) ∧
    faultOf 1 (facing [.access 0 (cmd 0 .ilv)] State.reset) = some .unwrittenOperand ∧
    faultOf 2 (facing [.access 0 (wr 0 4 0x18 0 1), .access 0 (cmd 0 .ilv)] State.reset) = some .unwrittenOperand ∧
    answers 1 (facing [.access 0 (rd 0 4 0x04 0)] State.reset) = some [.data 4 0] := by decide +kernel

/-- V-MEM, where the run keeps the model fault and goes on, past what would have succeeded without it (R203). -/
theorem test_unwritten_recorded :
    recorded 1 (facing [.access 0 (rd 0 8 0x20 0)] (holding State.reset)) = some (some (.unwrittenRead 0)) ∧
    recorded 1 (facing [.access 0 (cmd 0 .ilv)] (holding State.reset)) = some (some .unwrittenOperand) ∧
    recorded 3 (facing [.access 0 (wr 0 4 0x18 0 1), .access 0 (cmd 0 .ilv), .access 0 (cmd 0 .nop)] (holding State.reset))
      = some (some .unwrittenOperand) ∧
    recorded 2 (facing [.access 0 (wr 0 8 0x20 0 1), .access 0 (cmd 0 .dilv)] State.reset) = some none := by decide +kernel

/-- spec/30_encoding.md R87: the literal 21.0278 stands for the nearest binary64 value. -/
theorem test_literal : nearest false 210278 10000 = 0x4035071DE69AD42C := by decide +kernel

/-! ## Witnesses: concrete states and operands that meet the hypotheses of the statements

In every state built from `filled` every operand is written, and at reset none is. -/

theorem all_written (i : Instr) {b : Block} (h : b.marks = filled.marks) : OperandsWritten i b := by
  intro r _
  change ((List.range r.bytes).all fun k => decide (8 ≤ r.offset + k) && b.marks[r.offset + k - 8]?.getD false) = true
  rw [h]
  cases r <;> decide

/-- At reset no operand is written, so every command that reads one meets the hypothesis of the stopping clauses. -/
theorem not_written_at_reset (i : Instr) (h : i ≠ .nop) : ¬ OperandsWritten i State.reset.block := by
  intro hw
  unfold OperandsWritten at hw
  revert hw
  cases i <;> first | exact absurd rfl h | decide

theorem witness_ResetEventClearsControl : (facing [.reset, .reset] e1).inbox = .reset :: [.reset] := rfl

theorem witness_IdleBlockHolds : e1.inbox = [] := rfl

/-- The lowest and the highest reserved bit. -/
theorem witness_ReservedBitsAreIllegal : (0x00000100 : Word) >>> 8 ≠ 0 ∧ (0x8000000A : Word) >>> 8 ≠ 0 := by decide

/-- The lowest and the highest reserved OPCODE. -/
theorem witness_OpcodeMapIsTotal :
    ((0x0C : Word) >>> 8 = 0 ∧ 0x0C ≤ (0x0C : Word).toNat) ∧ ((0xFF : Word) >>> 8 = 0 ∧ 0x0C ≤ (0xFF : Word).toNat) := by
  decide

theorem witness_StepExecutesTheCmdWrite :
    (facing [.access 1 (.write 0 4 0x0B), .reset] e1).inbox
      = .access 1 (.write e1.params.base 4 0x0B) :: [.reset] ∧
    decode ((0x0B : DWord).setWidth 32) = .command .dec := ⟨rfl, by decide⟩

/-- A write of one byte, and a read. -/
theorem witness_OnlyCmdWritesExecute :
    (∃ t, step (facing [.access 0 (.write 0x08 1 5)] e1) = .next t ∧ ∀ v, Access.write 0x08 1 5 ≠ .write e1.params.base 4 v) ∧
    (∃ t, step (facing [.access 0 (.read 0x00 4)] e1) = .next t ∧ ∀ v, Access.read 0x00 4 ≠ .write e1.params.base 4 v) :=
  ⟨⟨_, rfl, by simp⟩, ⟨_, rfl, by simp⟩⟩

/-- An arrival that is an access, one that is not, and none. -/
theorem witness_StepTakesOneArrival :
    (∃ t, step (facing [.access 3 (.read 0x04 4)] e1) = .next t) ∧ (∃ t, step (facing [.reset] e1) = .next t) ∧
      ∃ t, step e1 = .next t :=
  ⟨⟨_, rfl⟩, ⟨_, rfl⟩, ⟨_, rfl⟩⟩

/-- The machine that has run a NOP, with an illegal word to come. -/
def afterNop : State := facing [.access 0 (.write 0 4 0x100)] (withBlock { filled with status := 0x80000000 })

theorem witness_StepKeepsInvariant : Inv afterNop ∧ ∃ t, step afterNop = .next t := by
  refine ⟨⟨?_, by decide, rfl, rfl, by decide⟩, ⟨_, rfl⟩⟩
  constructor
  case rangeFrom => intro h; exact absurd h (by decide)
  case invalidFrom => intro h; exact absurd h (by decide)
  all_goals decide

/-- The first and the last offset of each row's range. -/
theorem witness_LegalAccessTable : legal 0x00 4 = true ∧ legal 0x04 4 = true ∧ legal 0x07 1 = true ∧ legal 0x08 8 = true ∧
    legal 0x0F 1 = true ∧ legal 0x10 8 = true ∧ legal 0x17 1 = true ∧ legal 0x18 4 = true ∧ legal 0x1B 1 = true ∧
    legal 0x1C 4 = true ∧ legal 0x1F 1 = true ∧ legal 0x20 8 = true ∧ legal 0x27 1 = true ∧ legal 0x28 8 = true ∧
    legal 0x33 1 = true ∧ legal 0x34 4 = true ∧ legal 0x38 8 = true ∧ legal 0x3F 1 = true ∧
    legal 0x00 1 = false ∧ legal 0x30 8 = false ∧ legal 0x3C 8 = false := by decide

/-- The first and the last byte of a window that is not at 0. -/
theorem witness_IllegalAccessIsBusError :
    ((facing [.access 0 (.write 0x40 1 5)] (atBase 0x40 e1)).inbox = .access 0 (.write 0x40 1 5) :: [] ∧
      (atBase 0x40 e1).params.base ≤ 0x40 ∧ 0x40 < (atBase 0x40 e1).params.base + 64 ∧ legal 0 1 = false) ∧
    ((atBase 0x40 e1).params.base ≤ 0x7F ∧ 0x7F < (atBase 0x40 e1).params.base + 64 ∧ legal 0x3F 2 = false) := by decide

/-- The addresses just below and just above the window. -/
theorem witness_OutsideAccessDoesNotReachTheBlock :
    (facing [.access 0 (.read 0x3F 1)] (atBase 0x40 e1)).inbox = .access 0 (.read 0x3F 1) :: [] ∧
    (0x3F < (atBase 0x40 e1).params.base) ∧ (atBase 0x40 e1).params.base + 64 ≤ 0x80 := by decide

/-- A read that covers unwritten bytes in either treatment, one of the last byte of the window, and the same read twice. -/
theorem witness_ReadAnswersItsBytes :
    (let s := facing [.access 0 (.read 0x20 8), .access 1 (.read 0x20 8)] State.reset;
      s.inbox = .access 0 (.read 0x20 8) :: [.access 1 (.read 0x20 8)] ∧ s.params.base ≤ 0x20 ∧ legal 0x20 8 = true ∧
      s.onUnwritten = .stop ∧ (rowOf 0x20).isData = true ∧ s.block.markAt (0x20 + 7) = false) ∧
    ((holding State.reset).onUnwritten = .hold ∧ (holding State.reset).block.markAt (0x20 + 7) = false) ∧
    (legal 0x3F 1 = true ∧ (rowOf 0x3F).isData = false) := by decide

/-- The four kinds of row. -/
theorem witness_WriteReplacesItsBytes :
    (facing [.access 0 (.write 0x33 1 5)] e1).inbox = .access 0 (.write 0x33 1 5) :: [] ∧ e1.params.base = 0 ∧
    (legal 0x33 1 = true ∧ (rowOf 0x33).isData = true) ∧ (legal 0x08 8 = true ∧ (rowOf 0x08).isData = true) ∧
    (legal 0x07 1 = true ∧ rowOf 0x07 = .status) ∧ (legal 0x34 1 = true ∧ rowOf 0x34 = .reserved) ∧
    (legal 0x00 4 = true ∧ rowOf 0x00 = .cmd) := by decide

/-- A read and a NOP leave the first byte of LAT alone. -/
theorem witness_BytesHoldUntilWritten :
    (∃ t, Sys2Proof.core.run 2 (facing [.access 0 (.read 0x04 4), .access 1 (.write 0 4 0)] e1) = .next t) ∧
    (0x08 < 0x40 ∧ (rowOf 0x08).isData = true) ∧
    ∀ e ∈ [Event.access 0 (.read 0x04 4), .access 1 (.write 0 4 0)], ¬ e.touches 0 0x08 := by
  refine ⟨⟨_, rfl⟩, by decide, ?_⟩
  intro e he
  simp only [List.mem_cons, List.not_mem_nil, or_false] at he
  rcases he with rfl | rfl
  · simp [Event.touches]
  · rintro (⟨-, -, i, hi, r, hr, -⟩ | ⟨-, -, h⟩)
    · have h0 : decode ((0 : DWord).setWidth 32) = .command .nop := by decide
      rw [h0] at hi
      cases hi
      simp [writes] at hr
    · omega

/-- Both clauses, over a legal and an outside access. -/
theorem witness_LegalAccessesNeverStop :
    (∀ e ∈ (facing [.access 0 (.write 0 4 0x0A), .access 0 (.read 0x41 8), .reset] (holding e1)).inbox,
      e.allowed (holding e1).params.base = true) ∧
    (holding e1).onUnwritten = .hold ∧
    (∀ e ∈ (facing [.access 0 (.write 0 4 0x0A)] e1).inbox, e.allowed e1.params.base = true) ∧
    (∀ o < 0x40, (rowOf o).isData = true → e1.block.markAt o = true) ∧
    .reset ∉ (facing [.access 0 (.write 0 4 0x0A)] e1).inbox ∧ e1.modelFault = none := by decide

/-- A fault that a reset does not clear; one that arises from a command and one from a read; and a run that succeeds. -/
theorem witness_ModelFaultsAreNeverCleared :
    ((facing [.reset] { e1 with modelFault := some .unwrittenOperand }).modelFault = some .unwrittenOperand ∧
      ∃ t, Sys2Proof.core.run 1 (facing [.reset] { e1 with modelFault := some .unwrittenOperand }) = .next t) ∧
    ((holding State.reset).modelFault = none ∧
      (∃ t, step (facing [.access 0 (cmd 0 .ilv)] (holding State.reset)) = .next t ∧ t.modelFault = some .unwrittenOperand) ∧
      ∃ t, step (facing [.access 2 (rd 0 8 0x20 0)] (holding State.reset)) = .next t ∧ t.modelFault = some (.unwrittenRead 2)) ∧
    (e1.onUnwritten = .stop ∧ ∃ t, step (facing [.access 0 (cmd 0 .nop)] e1) = .next t) ∧
    (SucceedsIn 2 (facing [.access 0 (cmd 0 .nop)] State.reset) ∧ 1 ≤ 2) :=
  ⟨⟨rfl, _, rfl⟩, ⟨rfl, ⟨_, rfl, rfl⟩, ⟨_, rfl, rfl⟩⟩, ⟨rfl, _, rfl⟩, ⟨_, rfl, rfl⟩, by decide⟩

/-- A success, an error, and an unwritten operand. -/
theorem witness_CommandsWriteTheirRegistersOnly :
    (∃ t, exec .dilv (keyed 5) = .next t ∧ (keyed 5).onUnwritten = .stop) ∧
    (∃ t, exec .dilv (keyed 5) = .next t ∧ OperandsWritten .dilv (keyed 5).block ∧ statusErr t.block.status = 0) ∧
    (∃ t, exec .valid (hashed w7era) = .next t ∧ statusErr t.block.status ≠ 0) ∧
    (∃ t, exec .dilv (holding State.reset) = .next t ∧ ¬ OperandsWritten .dilv (holding State.reset).block) :=
  ⟨⟨_, rfl, rfl⟩, ⟨_, rfl, all_written _ rfl, by decide +kernel⟩, ⟨_, rfl, by decide +kernel⟩,
    ⟨_, rfl, not_written_at_reset .dilv (by decide)⟩⟩

/-- Two states that agree on KEY and CMD only, and one command that succeeds. -/
theorem witness_CommandsReadTheirOperandsOnly :
    ∃ t t', exec .dilv (keyed 5) = .next t ∧ exec .dilv (withBlock { filled with key := 5, lat := 9 }) = .next t' ∧
      (keyed 5).params.mapArith = (withBlock { filled with key := 5, lat := 9 }).params.mapArith ∧
      (keyed 5).block.cmd = (withBlock { filled with key := 5, lat := 9 }).block.cmd ∧
      (∀ r ∈ reads .dilv, ∀ k < r.bytes,
        (keyed 5).block.regByte r k = (withBlock { filled with key := 5, lat := 9 }).block.regByte r k) ∧
      statusErr t.block.status = 0 :=
  ⟨_, _, rfl, rfl, rfl, rfl, by decide, by decide +kernel⟩

theorem witness_CommandsWriteAllOfStatus :
    (∃ t, issue (encode .dilv) (keyed 5) = .next t ∧ statusErr t.block.status ≠ 1 ∧ statusErr t.block.status ≠ 2) ∧
    (∃ t, issue (encode .valid) (hashed w7era) = .next t ∧ statusErr t.block.status ≠ 1) ∧
    (∃ t, issue 0x80000000 e1 = .next t ∧ statusErr t.block.status ≠ 1 ∧ statusErr t.block.status ≠ 2) :=
  ⟨⟨_, rfl, by decide +kernel⟩, ⟨_, rfl, by decide +kernel⟩, ⟨_, rfl, by decide⟩⟩

theorem witness_HeldOperandsReadAsTheirValues : (holding State.reset).onUnwritten = .hold := rfl

theorem witness_ErrorsChangeStatusOnly :
    (∃ t, issue (encode .valid) (hashed w7era) = .next t ∧ statusErr t.block.status ≠ 0) ∧
    (hashed w7era).onUnwritten = .stop := ⟨⟨_, rfl, by decide +kernel⟩, rfl⟩

/-- One outcome of each error, and a success. -/
theorem witness_ErrorsComeFromTheirConditions :
    (∃ t, issue (encode .maplng) (coords 0 0x7FF0000000000000) = .next t ∧ statusErr t.block.status = 1) ∧
    (∃ t, issue (encode .valid) (hashed w7era) = .next t ∧ statusErr t.block.status = 2) ∧
    (∃ t, issue 0x0000000C e1 = .next t ∧ statusErr t.block.status = 3) ∧
    (∃ t, issue (encode .nop) e1 = .next t ∧ statusErr t.block.status = 0) :=
  ⟨⟨_, rfl, by decide +kernel⟩, ⟨_, rfl, by decide +kernel⟩, ⟨_, rfl, by decide⟩, ⟨_, rfl, by decide⟩⟩

/-- One unwritten byte of an operand, the last, and none. -/
theorem witness_UnwrittenOperandFaults :
    (withBlock { filled with marks := filled.marks.set 43 false }).onUnwritten = .stop ∧
    (∃ r ∈ reads .s2k, ∃ k < r.bytes, ({ filled with marks := filled.marks.set 43 false } : Block).markAt (r.offset + k) = false) ∧
    exec .s2k (withBlock { filled with marks := filled.marks.set 43 false }) = .fault .unwrittenOperand ∧
    (holding (withBlock { filled with marks := filled.marks.set 43 false })).onUnwritten = .hold ∧
    ((holding e1).onUnwritten = .hold ∧ ∀ r ∈ reads .s2k, ∀ k < r.bytes, (holding e1).block.markAt (r.offset + k) = true) :=
  ⟨rfl, by decide, rfl, rfl, rfl, by decide⟩

/-- Each clause: an illegal word, an unwritten operand, both coordinates out of range, longitude alone, and the last
character. -/
theorem witness_OutcomesHaveTheirPriority :
    wellFormedWord 0x0000000C = false ∧ State.reset.onUnwritten = .stop ∧
    ¬ OperandsWritten .enc State.reset.block ∧
    OperandsWritten .enc (coords 0x4056C00000000000 0x4069000000000000).block ∧ checkLat 0x4056C00000000000 = false ∧
    checkLat 0 = true ∧ checkLng 0x4069000000000000 = false ∧ OperandsWritten .dec (hashed w7era).block ∧
    (∀ k, (hk : k < 11) → indexb w7era[k] ≠ none) ∧ indexb w7era[11] = none :=
  ⟨by decide, rfl, not_written_at_reset .enc (by decide), all_written _ rfl, by decide +kernel, by decide +kernel,
    by decide +kernel, all_written _ rfl, by decide, by decide⟩

theorem witness_RepeatedCommandChangesNothing : ∃ t, issue (encode .dilv) (keyed 5) = .next t := ⟨_, rfl⟩

/-- NaN, an infinity, and the smallest and largest subnormal of either sign. -/
theorem witness_SpecialValuesMap :
    isNaN 0xFFF0000000000001 = true ∧ isInf 0xFFF0000000000000 = true ∧
    OperandsWritten .maplat (coords 0x7FF8000000000000 0).block ∧ isNaN (coords 0x7FF8000000000000 0).block.lat = true ∧
    OperandsWritten .maplng (coords 0 0x7FF0000000000000).block ∧ isInf (coords 0 0x7FF0000000000000).block.lng = true ∧
    (expField 0x0000000000000001 = 0 ∧ fracField 0x0000000000000001 ≠ 0) ∧
    (expField 0x800FFFFFFFFFFFFF = 0 ∧ fracField 0x800FFFFFFFFFFFFF ≠ 0) :=
  ⟨by decide, by decide, all_written _ rfl, by decide, all_written _ rfl, by decide, by decide, by decide⟩

/-- Both ends of each range. -/
theorem witness_MapIsTheSaturatedFloor :
    checkLat latMin = true ∧ checkLat latMax = true ∧ checkLng lngMin = true ∧ checkLng lngMax = true := by decide +kernel

/-- The lower end and the value next below the upper one. -/
theorem witness_ExactMapIsTheExactFloor :
    (checkLat latMin = true ∧ units latMin < 90 * (one : Int)) ∧
    (checkLat 0x40567FFFFFFFFFFF = true ∧ units 0x40567FFFFFFFFFFF < 90 * (one : Int)) ∧
    (checkLng 0x40667FFFFFFFFFFF = true ∧ units 0x40667FFFFFFFFFFF < 180 * (one : Int)) := by decide +kernel

theorem witness_UnmapIsExact :
    (expField (unmapLat 0x80000000) = 0 ∧ expField (unmapLng 0x80000000) = 0) ∧ (0xFFFFFFFE : Word) < 0xFFFFFFFF := by
  decide +kernel

theorem witness_MapOfUnmapIsIdentity :
    OperandsWritten .unmaplat (fracs 0xFFFFFFFF 0).block ∧ OperandsWritten .unmaplng (fracs 0 0).block :=
  ⟨all_written _ rfl, all_written _ rfl⟩

/-- The upper bound is met at the upper end, and nowhere below it is it excluded. -/
theorem witness_UnmapOfMapIsNear :
    (checkLat latMax = true ∧ units latMax = 90 * (one : Int) ∧
      2 ^ 32 * (units latMax - units (unmapLat (mapLat .binary64 latMax))) = 180 * (one : Int)) ∧
    (checkLng lngMax = true ∧ units lngMax = 180 * (one : Int) ∧
      2 ^ 32 * (units lngMax - units (unmapLng (mapLng .binary64 lngMax))) = 360 * (one : Int)) ∧
    (checkLat 0x40567FFFFFFFFFFF = true ∧ units 0x40567FFFFFFFFFFF < 90 * (one : Int)) ∧
    (checkLng 0x40667FFFFFFFFFFF = true ∧ units 0x40667FFFFFFFFFFF < 180 * (one : Int)) := by decide +kernel

theorem witness_MapIsMonotone :
    (checkLat latMin = true ∧ checkLat latMax = true ∧ le64 latMin latMax = true) ∧
    (checkLng lngMin = true ∧ checkLng lngMax = true ∧ le64 lngMin lngMax = true) := by decide +kernel

/-- Each clause, at the ends of the ranges. -/
theorem witness_MapCommands :
    (OperandsWritten .maplat (coords latMax 0).block ∧ checkLat latMax = true ∧
      checkLat 0x4056800000000001 = false) ∧
    (OperandsWritten .maplng (coords 0 lngMin).block ∧ checkLng lngMin = true ∧
      checkLng 0xC066800000000001 = false) ∧
    (State.reset.onUnwritten = .stop ∧ ¬ OperandsWritten .maplat State.reset.block ∧
      ¬ OperandsWritten .maplng State.reset.block) ∧
    ((coords 0 0).storeCmd 1).block.cmd = 0x00000001 ∧ ((coords 0 0).storeCmd 2).block.cmd = 0x00000002 :=
  ⟨⟨all_written _ rfl, by decide +kernel, by decide +kernel⟩,
    ⟨all_written _ rfl, by decide +kernel, by decide +kernel⟩,
    ⟨rfl, not_written_at_reset _ (by decide), not_written_at_reset _ (by decide)⟩, rfl, rfl⟩

theorem witness_UnmapCommands :
    (OperandsWritten .unmaplat (fracs 0 0).block) ∧
    (OperandsWritten .unmaplng (fracs 0 0xFFFFFFFF).block) ∧
    (State.reset.onUnwritten = .stop ∧ ¬ OperandsWritten .unmaplat State.reset.block ∧
      ¬ OperandsWritten .unmaplng State.reset.block) ∧
    ((fracs 0 0).storeCmd 3).block.cmd = 0x00000003 ∧ ((fracs 0 0).storeCmd 4).block.cmd = 0x00000004 :=
  ⟨all_written _ rfl, all_written _ rfl,
    ⟨rfl, not_written_at_reset _ (by decide), not_written_at_reset _ (by decide)⟩, rfl, rfl⟩

/-- The last bit, and the first and the last character. -/
theorem witness_InterleaveLayout : 31 < 32 ∧ (0 < 12 ∧ 4 < 5) ∧ (11 < 12 ∧ 0 < 5) := by decide

theorem witness_InterleaveInverses :
    OperandsWritten .ilv (fracs 1 2).block ∧ OperandsWritten .dilv (keyed 5).block :=
  ⟨all_written _ rfl, all_written _ rfl⟩

theorem witness_InterleaveIsBitwise :
    31 < 32 ∧ (3 : Word).getLsbD 0 = (1 : Word).getLsbD 0 ∧ (4 : Word).getLsbD 0 = (0 : Word).getLsbD 0 := by decide

theorem witness_InterleaveCommands :
    (OperandsWritten .ilv (fracs 1 2).block) ∧ (OperandsWritten .dilv (keyed 5).block) ∧
    (State.reset.onUnwritten = .stop ∧ ¬ OperandsWritten .ilv State.reset.block ∧
      ¬ OperandsWritten .dilv State.reset.block) ∧
    ((fracs 0 0).storeCmd 5).block.cmd = 0x00000005 ∧ ((keyed 0).storeCmd 6).block.cmd = 0x00000006 :=
  ⟨all_written _ rfl, all_written _ rfl,
    ⟨rfl, not_written_at_reset _ (by decide), not_written_at_reset _ (by decide)⟩, rfl, rfl⟩

theorem witness_AlphabetBytes : indexb 0x7A = some 31 ∧ indexb 0x30 = some 0 := by decide

theorem witness_ValidateReportsFirstInvalid :
    validate w7er = none ∧ validate w7era = some (11, 0x61) ∧ validate (Vector.replicate 12 0x61) = some (0, 0x61) := by
  decide

/-- The first and the last character, and two keys that differ in the low 4 bits only. -/
theorem witness_KeyToStringChunks :
    (0 < 12 ∧ 11 < 12) ∧ (0xE1DB741DD57B0A25 : DWord) >>> 4 = (0xE1DB741DD57B0A20 : DWord) >>> 4 := by decide

theorem witness_StringToKeyChunks : validate w7er = none ∧ validate bcdef = none := by decide

theorem witness_CodecLaws :
    OperandsWritten .k2s (keyed 5).block ∧
    OperandsWritten .s2k (hashed w7er).block ∧ validate w7er = none :=
  ⟨all_written _ rfl, all_written _ rfl, by decide⟩

theorem witness_StringOrderIsKeyOrder : (0 ≤ 12 ∧ 12 ≤ 12) ∧ (30 : BitVec 5) < 31 := by decide

theorem witness_K2sCommand :
    OperandsWritten .k2s (keyed 5).block ∧ State.reset.onUnwritten = .stop ∧
    ¬ OperandsWritten .k2s State.reset.block ∧ ((keyed 5).storeCmd 7).block.cmd = 0x00000007 :=
  ⟨all_written _ rfl, rfl, not_written_at_reset _ (by decide), rfl⟩

theorem witness_S2kCommand :
    OperandsWritten .s2k (hashed w7er).block ∧ validate w7er = none ∧
    validate w7era = some (11, 0x61) ∧ State.reset.onUnwritten = .stop ∧
    ¬ OperandsWritten .s2k State.reset.block ∧ ((hashed w7er).storeCmd 8).block.cmd = 0x00000008 :=
  ⟨all_written _ rfl, by decide, by decide, rfl, not_written_at_reset _ (by decide), rfl⟩

theorem witness_ValidCommand :
    OperandsWritten .valid (hashed w7er).block ∧ validate w7er = none ∧
    validate w7era = some (11, 0x61) ∧ State.reset.onUnwritten = .stop ∧
    ¬ OperandsWritten .valid State.reset.block ∧ ((hashed w7er).storeCmd 9).block.cmd = 0x00000009 :=
  ⟨all_written _ rfl, by decide, by decide, rfl, not_written_at_reset _ (by decide), rfl⟩

theorem witness_EncCommand :
    OperandsWritten .enc (coords latMax lngMax).block ∧
    (checkLat latMax = true ∧ checkLng lngMax = true) ∧ checkLat 0x7FF8000000000000 = false ∧
    checkLng 0x4066800000000001 = false ∧
    (State.reset.onUnwritten = .stop ∧ ¬ OperandsWritten .enc State.reset.block) ∧
    ((coords 0 0).storeCmd 10).block.cmd = 0x0000000A ∧ (coords latMax lngMax).params.mapArith = .binary64 :=
  ⟨all_written _ rfl, by decide +kernel, by decide +kernel, by decide +kernel,
    ⟨rfl, not_written_at_reset _ (by decide)⟩, rfl, rfl⟩

theorem witness_DecCommand :
    OperandsWritten .dec (hashed w7er).block ∧ validate w7er = none ∧
    validate w7era = some (11, 0x61) ∧ State.reset.onUnwritten = .stop ∧
    ¬ OperandsWritten .dec State.reset.block ∧ ((hashed w7er).storeCmd 11).block.cmd = 0x0000000B :=
  ⟨all_written _ rfl, by decide, by decide, rfl, not_written_at_reset _ (by decide), rfl⟩

theorem witness_ComposedCommandsAreTheirSequences :
    (OperandsWritten .enc (coords latMin lngMin).block ∧ checkLat latMin = true ∧ checkLng lngMin = true) ∧
    (OperandsWritten .dec (hashed bcdef).block ∧ validate bcdef = none) ∧
    (OperandsWritten .enc (coords 0 0x4069000000000000).block ∧ checkLat 0 = true ∧ checkLng 0x4069000000000000 = false) :=
  ⟨⟨all_written _ rfl, by decide +kernel, by decide +kernel⟩, ⟨all_written _ rfl, by decide⟩,
    ⟨all_written _ rfl, by decide +kernel, by decide +kernel⟩⟩

/-- The corner where the upper bound is met. -/
theorem witness_StringRoundTripIsNear :
    OperandsWritten .enc (coords latMax lngMax).block ∧
    checkLat (coords latMax lngMax).block.lat = true ∧ checkLng (coords latMax lngMax).block.lng = true ∧
    (coords latMax lngMax).block.lat = latMax ∧ (coords latMax lngMax).block.lng = lngMax :=
  ⟨all_written _ rfl, by decide +kernel, by decide +kernel, rfl, rfl⟩

theorem witness_EncAfterDecRestoresHash :
    OperandsWritten .dec (hashed bcdef).block ∧ validate (hashed bcdef).block.hash = none :=
  ⟨all_written _ rfl, by decide⟩

end Sys2Proof.Tests
end

/-! The terms the proofs of this family are made in: what a command does, in two parts, the error that its own checks find
(spec/60_exceptions.md R202, R204) and the registers that it writes where they find none (spec/10_state.md R36); what it
leaves in STATUS (R30); and how two blocks can differ. Each is tied to the model by the lemmas that follow. -/

namespace Sys2Proof.Machine

open Sys2Proof

/-- The error that a command's own checks find in its operands, if any (R202). -/
def checkError : Instr → Block → Option CommandError
  | .maplat, b => if checkLat b.lat then none else some (.range 0)
  | .maplng, b => if checkLng b.lng then none else some (.range 1)
  | .enc, b => if !checkLat b.lat then some (.range 0) else if !checkLng b.lng then some (.range 1) else none
  | .s2k, b | .valid, b | .dec, b => (validate b.hash).map fun x => .invalidCharacter x.1 x.2
  | .nop, _ | .unmaplat, _ | .unmaplng, _ | .ilv, _ | .dilv, _ | .k2s, _ => none

/-- The block with a command's result registers written, before it reports (R36). -/
def results (arith : Config.MapArith) : Instr → Block → Block
  | .nop, b | .valid, b => b
  | .maplat, b => b.writeLatFrac (mapLat arith b.lat)
  | .maplng, b => b.writeLngFrac (mapLng arith b.lng)
  | .unmaplat, b => b.writeLat (unmapLat b.latFrac)
  | .unmaplng, b => b.writeLng (unmapLng b.lngFrac)
  | .ilv, b => b.writeKey (interleave b.latFrac b.lngFrac)
  | .dilv, b => (b.writeLatFrac (deinterleave b.key).1).writeLngFrac (deinterleave b.key).2
  | .k2s, b => b.writeHash (keyToString b.key)
  | .s2k, b => b.writeKey (stringToKey b.hash)
  | .enc, b => b.writeEncoded (mapLat arith b.lat) (mapLng arith b.lng)
  | .dec, b => b.writeDecoded (stringToKey b.hash)

/-- STATUS as a command leaves it: OP, and the error with its information if there is one (R30, R202). -/
def outcomeWord (op : Byte) : Option CommandError → Word
  | none => statusWord op errOk 0 0 0
  | some (.range axis) => statusWord op errRange axis 0 0
  | some (.invalidCharacter j c) => statusWord op errInvalidCharacter 0 j c
  | some .illegalCommand => statusWord op errIllegalCommand 0 0 0

/-- The error that a decoded word reports on a block: its command's, or ILLEGAL_COMMAND (R82, R84). -/
def decodedError (b : Block) : Decoded → Option CommandError
  | .command i => checkError i b
  | .illegal _ => some .illegalCommand

/-- The error that a command word reports on a block. -/
def wordError (w : Word) (b : Block) : Option CommandError := decodedError b (decode w)

/-- The two blocks hold the same bytes in the register `r`. -/
def SameReg (r : DataReg) (b c : Block) : Prop := ∀ k < r.bytes, b.regByte r k = c.regByte r k

/-- The block with this STATUS. -/
def Block.withStatus (b : Block) (old : Word) : Block := { b with status := old }

/-- The machine with this STATUS. -/
def State.withStatus (s : State) (old : Word) : State := { s with block := s.block.withStatus old }

/-- The block with every byte marked as written. -/
def Block.allMarked (b : Block) : Block := { b with marks := Vector.replicate 44 true }

/-- The marks with those of every byte of the registers `rs` set (R34). -/
def markRegs (rs : List DataReg) (m : Vector Bool 44) : Vector Bool 44 :=
  rs.foldl (fun m r => setMarks m r.offset r.bytes) m

/-- `c` is `b` but for the registers `rs`, which are marked as written, and STATUS. -/
structure WritesRegs (rs : List DataReg) (b c : Block) : Prop where
  cmd : c.cmd = b.cmd
  others : ∀ r ∉ rs, ∀ k, c.regByte r k = b.regByte r k
  marks : c.marks = markRegs rs b.marks

end Sys2Proof.Machine

/-! The decoder as a relation (spec/30_encoding.md R84, R85): a word selects a command exactly where it is that command's
word, and some command exactly where it is well formed. -/

namespace Sys2Proof

/-- RSVD = 0 and OPCODE at most 0x0B is the word as a number at most 0x0B (R84, R85). -/
theorem wellFormedWord_iff_toNat_le {w : Word} : wellFormedWord w = true ↔ w.toNat ≤ 0x0B := by
  have hshift : (w >>> 8 = 0) ↔ w.toNat < 256 := by
    rw [← BitVec.toNat_inj, BitVec.toNat_ushiftRight, Nat.shiftRight_eq_div_pow]
    have hzero : (0 : Word).toNat = 0 := rfl
    omega
  have hand : (w &&& 0xFF).toNat = w.toNat % 256 := Nat.and_two_pow_sub_one_eq_mod w.toNat 8
  rw [wellFormedWord, Bool.and_eq_true, beq_iff_eq, decide_eq_true_eq, hshift, hand]
  omega

/-- Where RSVD is zero, OPCODE alone is the word as a number (R80). -/
theorem toNat_opcodeField_of_rsvd {w : Word} (h : rsvdField w = 0) : (opcodeField w).toNat = w.toNat := by
  rw [toNat_opcodeField, Nat.mod_eq_of_lt (rsvdField_eq_zero_iff.mp h)]

/-- The decoder and the encoder agree (R85). -/
theorem decode_eq_command_iff {w : Word} {i : Instr} : decode w = .command i ↔ w = encode i := by
  constructor
  · intro h
    unfold decode at h
    split at h
    · next hr =>
      rw [opcodeMap, toNat_opcodeField_of_rsvd hr] at h
      apply BitVec.eq_of_toNat_eq
      split at h <;> cases h <;> assumption
    · cases h
  · rintro rfl
    cases i <;> decide

/-- A word that selects no command is not well formed (R84, R85). -/
theorem wellFormedWord_of_illegal {w : Word} {why : Illegal} (h : decode w = .illegal why) :
    wellFormedWord w = false := by
  rw [← Bool.not_eq_true, wellFormedWord_iff_toNat_le]
  intro hle
  have hr : rsvdField w = 0 := rsvdField_eq_zero_iff.mpr (by omega)
  rw [decode, if_pos hr, opcodeMap, toNat_opcodeField_of_rsvd hr] at h
  interval_cases w.toNat <;> cases h

theorem wellFormedWord_encode (i : Instr) : wellFormedWord (encode i) = true := by
  cases i <;> decide

end Sys2Proof

/-! What a command does, in two parts: the error that its own checks find (spec/60_exceptions.md R202, R204), and the
registers that it writes where they find none (spec/10_state.md R36). First an equation per command, then the equation
that ties both parts to `effect`. -/

namespace Sys2Proof.Machine

open Sys2Proof

section
variable (arith : Config.MapArith) (b : Block)

@[simp] theorem checkError_nop : checkError .nop b = none := by rfl
@[simp] theorem checkError_maplat :
    checkError .maplat b = if checkLat b.lat then none else some (.range 0) := by rfl
@[simp] theorem checkError_maplng :
    checkError .maplng b = if checkLng b.lng then none else some (.range 1) := by rfl
@[simp] theorem checkError_unmaplat : checkError .unmaplat b = none := by rfl
@[simp] theorem checkError_unmaplng : checkError .unmaplng b = none := by rfl
@[simp] theorem checkError_ilv : checkError .ilv b = none := by rfl
@[simp] theorem checkError_dilv : checkError .dilv b = none := by rfl
@[simp] theorem checkError_k2s : checkError .k2s b = none := by rfl
@[simp] theorem checkError_s2k :
    checkError .s2k b = (validate b.hash).map fun x => .invalidCharacter x.1 x.2 := by rfl
@[simp] theorem checkError_valid :
    checkError .valid b = (validate b.hash).map fun x => .invalidCharacter x.1 x.2 := by rfl
@[simp] theorem checkError_enc : checkError .enc b =
    if !checkLat b.lat then some (.range 0) else if !checkLng b.lng then some (.range 1) else none := by rfl
@[simp] theorem checkError_dec :
    checkError .dec b = (validate b.hash).map fun x => .invalidCharacter x.1 x.2 := by rfl

@[simp] theorem results_nop : results arith .nop b = b := by rfl
@[simp] theorem results_maplat : results arith .maplat b = b.writeLatFrac (mapLat arith b.lat) := by rfl
@[simp] theorem results_maplng : results arith .maplng b = b.writeLngFrac (mapLng arith b.lng) := by rfl
@[simp] theorem results_unmaplat : results arith .unmaplat b = b.writeLat (unmapLat b.latFrac) := by rfl
@[simp] theorem results_unmaplng : results arith .unmaplng b = b.writeLng (unmapLng b.lngFrac) := by rfl
@[simp] theorem results_ilv : results arith .ilv b = b.writeKey (interleave b.latFrac b.lngFrac) := by rfl
@[simp] theorem results_dilv : results arith .dilv b =
    (b.writeLatFrac (deinterleave b.key).1).writeLngFrac (deinterleave b.key).2 := by rfl
@[simp] theorem results_k2s : results arith .k2s b = b.writeHash (keyToString b.key) := by rfl
@[simp] theorem results_s2k : results arith .s2k b = b.writeKey (stringToKey b.hash) := by rfl
@[simp] theorem results_valid : results arith .valid b = b := by rfl
@[simp] theorem results_enc :
    results arith .enc b = b.writeEncoded (mapLat arith b.lat) (mapLng arith b.lng) := by rfl
@[simp] theorem results_dec : results arith .dec b = b.writeDecoded (stringToKey b.hash) := by rfl

end

/-- A command raises the error its checks find, or else writes its results and reports success (R201, R36). -/
theorem effect_eq (arith : Config.MapArith) (i : Instr) (b : Block) :
    effect arith i b = (checkError i b).elim (results arith i b).ok b.raise := by
  cases i with
  | maplat | maplng | enc => simp only [effect, checkError_maplat, checkError_maplng, checkError_enc]; split_ifs <;> rfl
  | s2k | valid | dec => cases h : validate b.hash <;> simp [effect, h]
  | nop | unmaplat | unmaplng | ilv | dilv | k2s => rfl

theorem effect_of_checkError_none {arith : Config.MapArith} {i : Instr} {b : Block} (h : checkError i b = none) :
    effect arith i b = (results arith i b).ok := by
  rw [effect_eq, h]; rfl

theorem effect_of_checkError_some {arith : Config.MapArith} {i : Instr} {b : Block} {e : CommandError}
    (h : checkError i b = some e) : effect arith i b = b.raise e := by
  rw [effect_eq, h]; rfl

/-- No command writes CMD among its results. -/
@[simp] theorem results_cmd (arith : Config.MapArith) (i : Instr) (b : Block) : (results arith i b).cmd = b.cmd := by
  cases i <;> simp [Block.writeEncoded, Block.writeDecoded]

section
variable (op : Byte)

@[simp] theorem outcomeWord_none : outcomeWord op none = statusWord op errOk 0 0 0 := by rfl
@[simp] theorem outcomeWord_range (axis : BitVec 1) :
    outcomeWord op (some (.range axis)) = statusWord op errRange axis 0 0 := by rfl
@[simp] theorem outcomeWord_invalidCharacter (j : BitVec 4) (c : Byte) :
    outcomeWord op (some (.invalidCharacter j c)) = statusWord op errInvalidCharacter 0 j c := by rfl
@[simp] theorem outcomeWord_illegalCommand :
    outcomeWord op (some .illegalCommand) = statusWord op errIllegalCommand 0 0 0 := by rfl

end

/-- Every error leaves STATUS as it says (R30). -/
theorem raise_status (b : Block) (e : CommandError) :
    (b.raise e).status = outcomeWord (opcodeField b.cmd) (some e) := by
  cases e <;> rfl

/-- Every command leaves STATUS as its checks decide (R30). -/
theorem effect_status (arith : Config.MapArith) (i : Instr) (b : Block) :
    (effect arith i b).status = outcomeWord (opcodeField b.cmd) (checkError i b) := by
  cases h : checkError i b with
  | none => rw [effect_of_checkError_none h, Block.ok_status, results_cmd]; rfl
  | some e => rw [effect_of_checkError_some h, raise_status]

section
variable {op : Byte} {e : Option CommandError}

/-- The codes 4 to 7 are never produced (R29). -/
theorem statusErr_outcomeWord_cases :
    statusErr (outcomeWord op e) = errOk ∨ statusErr (outcomeWord op e) = errRange ∨
      statusErr (outcomeWord op e) = errInvalidCharacter ∨ statusErr (outcomeWord op e) = errIllegalCommand := by
  rcases e with _ | _ | _ | _ <;> simp

/-- Each code of ERR stands for its own outcome (R29). -/
theorem statusErr_outcomeWord_eq_zero_iff : statusErr (outcomeWord op e) = 0 ↔ e = none := by
  rcases e with _ | _ | _ | _ <;> simp [errOk, errRange, errInvalidCharacter, errIllegalCommand]

theorem statusErr_outcomeWord_eq_range_iff :
    statusErr (outcomeWord op e) = errRange ↔ ∃ axis, e = some (.range axis) := by
  rcases e with _ | _ | _ | _ <;> simp [errOk, errRange, errInvalidCharacter, errIllegalCommand]

theorem statusErr_outcomeWord_eq_invalidCharacter_iff :
    statusErr (outcomeWord op e) = errInvalidCharacter ↔ ∃ j c, e = some (.invalidCharacter j c) := by
  rcases e with _ | _ | _ | _ <;> simp [errOk, errRange, errInvalidCharacter, errIllegalCommand]

theorem statusErr_outcomeWord_eq_illegalCommand_iff :
    statusErr (outcomeWord op e) = errIllegalCommand ↔ e = some .illegalCommand := by
  rcases e with _ | _ | _ | _ <;> simp [errOk, errRange, errInvalidCharacter, errIllegalCommand]

/-- DONE, RSVD and OP in every outcome (R28). -/
theorem outcomeWord_fields (op : Byte) (e : Option CommandError) :
    statusDone (outcomeWord op e) = 1 ∧ statusRsvd (outcomeWord op e) = 0 ∧ statusOp (outcomeWord op e) = op := by
  rcases e with _ | _ | _ | _ <;> simp

/-- AXIS belongs to RANGE_ERROR, IDX and CHAR to INVALID_CHARACTER; elsewhere they are 0 (R28, R30). -/
theorem outcomeWord_information (op : Byte) (e : Option CommandError) :
    (statusErr (outcomeWord op e) ≠ errRange → statusAxis (outcomeWord op e) = 0) ∧
    (statusErr (outcomeWord op e) ≠ errInvalidCharacter →
      statusChar (outcomeWord op e) = 0 ∧ statusIdx (outcomeWord op e) = 0) := by
  rcases e with _ | _ | _ | _ <;> simp

end

/-- RANGE_ERROR comes from the commands that check a range, with the axis of the register checked (R202). -/
theorem checkError_eq_range {i : Instr} {b : Block} {axis : BitVec 1} (h : checkError i b = some (.range axis)) :
    i ∈ mayRangeError ∧ (i = .maplat → axis = 0) ∧ (i = .maplng → axis = 1) := by
  cases i with
  | maplat | maplng =>
    simp only [checkError_maplat, checkError_maplng] at h
    split_ifs at h
    cases h
    simp [mayRangeError]
  | enc => simp [mayRangeError]
  | s2k | valid | dec => simp at h
  | nop | unmaplat | unmaplng | ilv | dilv | k2s => cases h

/-- INVALID_CHARACTER comes from the commands that validate HASH, with what `validate` found (R202). -/
theorem checkError_eq_invalidCharacter {i : Instr} {b : Block} {j : BitVec 4} {c : Byte}
    (h : checkError i b = some (.invalidCharacter j c)) : i ∈ mayInvalidCharacter ∧ validate b.hash = some (j, c) := by
  cases i with
  | maplat | maplng | enc =>
    simp only [checkError_maplat, checkError_maplng, checkError_enc] at h
    split_ifs at h <;> cases h
  | s2k | valid | dec => simpa [mayInvalidCharacter] using h
  | nop | unmaplat | unmaplng | ilv | dilv | k2s => cases h

/-- No command that is decoded reports ILLEGAL_COMMAND (R84). -/
theorem checkError_ne_illegalCommand (i : Instr) (b : Block) : checkError i b ≠ some .illegalCommand := by
  intro h
  cases i with
  | maplat | maplng | enc =>
    simp only [checkError_maplat, checkError_maplng, checkError_enc] at h
    split_ifs at h <;> cases h
  | s2k | valid | dec => simp at h
  | nop | unmaplat | unmaplng | ilv | dilv | k2s => cases h

/-- The checks look at data registers only. -/
@[simp] theorem checkError_storeCmd (i : Instr) (s : State) (w : Word) :
    checkError i (s.storeCmd w).block = checkError i s.block := by
  cases i <;> rfl

/-- What `validate` answers is an index of HASH and a byte that is no valid character (R151). -/
theorem validate_eq_some {h : Chars} {j : BitVec 4} {c : Byte} (hv : validate h = some (j, c)) :
    j.toNat < 12 ∧ indexb c = none := by
  obtain ⟨k, hk, hjc, hn, -⟩ := (firstInvalid_eq_some_iff h.toList 0 (j, c)).mp hv
  obtain ⟨rfl, rfl⟩ := Prod.mk.inj hjc
  have hk12 : k < 12 := by simpa using hk
  refine ⟨?_, hn⟩
  rw [Nat.zero_add, BitVec.toNat_ofNat, Nat.mod_eq_of_lt (by omega)]
  exact hk12

/-! What a CMD write that goes on leaves (spec/30_encoding.md R82). -/

theorem wordError_of_illegal {w : Word} {why : Illegal} (h : decode w = .illegal why) (b : Block) :
    wordError w b = some .illegalCommand :=
  congrArg (decodedError b) h

theorem wordError_encode (i : Instr) (b : Block) : wordError (encode i) b = checkError i b :=
  congrArg (decodedError b) (decode_eq_command_iff.mpr rfl)

/-- ILLEGAL_COMMAND is reported of exactly the words that select no command (R84, R85). -/
theorem wordError_eq_illegalCommand_iff {w : Word} {b : Block} :
    wordError w b = some .illegalCommand ↔ wellFormedWord w = false := by
  cases h : decode w with
  | command i =>
    obtain rfl := decode_eq_command_iff.mp h
    simp [wordError_encode, wellFormedWord_encode, checkError_ne_illegalCommand]
  | illegal why => simp [wordError_of_illegal h, wellFormedWord_of_illegal h]

/-- Any other error is that of the word's command. -/
theorem exists_of_wordError {w : Word} {b : Block} {e : CommandError} (h : wordError w b = some e)
    (he : e ≠ .illegalCommand) : ∃ i, w = encode i ∧ checkError i b = some e := by
  cases hd : decode w with
  | command i =>
    obtain rfl := decode_eq_command_iff.mp hd
    exact ⟨i, rfl, by rwa [wordError_encode] at h⟩
  | illegal why =>
    rw [wordError_of_illegal hd, Option.some.injEq] at h
    exact absurd h.symm he

/-- The fault that a use of bytes notes is all that `noting` changes. -/
theorem State.noting_eq (s : State) (w : Bool) (f : Fault) :
    s.noting w f = { s with modelFault := (s.noting w f).modelFault } := by
  cases w <;> rfl

/-- A command changes the block by its effect, and beside it nothing but the recorded model fault. -/
theorem exec_next {i : Instr} {s t : State} (h : exec i s = .next t) :
    t = { s with modelFault := t.modelFault, block := effect s.params.mapArith i s.block } := by
  obtain ⟨-, rfl⟩ := exec_eq_next_iff.mp h
  rw [State.noting_eq]

/-- With its operands written, a command records no model fault (R203). -/
theorem exec_modelFault_of_written {i : Instr} {s t : State} (h : exec i s = .next t) (hw : OperandsWritten i s.block) :
    t.modelFault = s.modelFault := by
  rw [exec_of_written hw] at h
  cases h
  rfl

/-- Otherwise it records UnwrittenOperand, unless a fault was recorded before. -/
theorem exec_modelFault_of_not_written {i : Instr} {s t : State} (h : exec i s = .next t)
    (hw : ¬ OperandsWritten i s.block) : t.modelFault = s.modelFault.or (some .unwrittenOperand) := by
  obtain ⟨-, rfl⟩ := exec_eq_next_iff.mp h
  rw [operandsWritten_iff, Bool.not_eq_true] at hw
  simp [hw]

/-- Under `stop`, a command that goes on has its operands written (R34). -/
theorem operandsWritten_of_next {i : Instr} {s t : State} (h : exec i s = .next t) (hs : s.onUnwritten = .stop) :
    OperandsWritten i s.block := by
  obtain ⟨hold | hw, -⟩ := exec_eq_next_iff.mp h
  · rw [hs] at hold
    cases hold
  · exact hw

/-- Everything a CMD write that goes on can leave: CMD is the word, STATUS the outcome, and beside the block only the
recorded model fault can change, which needs `hold`. -/
theorem issue_next {w : Word} {s t : State} (h : issue w s = .next t) :
    t = { s with modelFault := t.modelFault, block := t.block } ∧ t.block.cmd = w ∧
      t.block.status = outcomeWord (opcodeField w) (wordError w s.block) ∧
      (s.onUnwritten = .stop → t.modelFault = s.modelFault) := by
  cases hd : decode w with
  | command i =>
    rw [issue, execute_of_command hd] at h
    obtain rfl := decode_eq_command_iff.mp hd
    rw [wordError_encode]
    have hstop (hs : s.onUnwritten = .stop) : t.modelFault = s.modelFault :=
      exec_modelFault_of_written (s := s.storeCmd (encode i)) h
        (operandsWritten_of_next (s := s.storeCmd (encode i)) h hs)
    rw [exec_next h]
    exact ⟨rfl, effect_cmd .., by rw [← checkError_storeCmd i s]; exact effect_status .., hstop⟩
  | illegal why =>
    rw [issue, execute_of_illegal hd] at h
    cases h
    exact ⟨rfl, rfl, by rw [wordError_of_illegal hd]; rfl, fun _ => rfl⟩

end Sys2Proof.Machine

/-! The invariant (spec/10_state.md R28, R29, spec/60_exceptions.md R202, R203): it holds at reset, every outcome of a
command word meets it, and every other arrival leaves CMD and STATUS as they are. -/

namespace Sys2Proof.Machine

open Sys2Proof

/-- With CMD and STATUS cleared, as reset leaves them (R35, R230). -/
theorem statusInv_of_clear {b : Block} (hc : b.cmd = 0) (hs : b.status = 0) : StatusInv b := by
  have herr : statusErr b.status = errOk := by rw [hs]; decide
  constructor
  case rsvd => rw [hs]; decide
  case op => rw [hs, hc]; decide
  case err => exact .inl herr
  case axis => intro _; rw [hs]; decide
  case char => intro _; rw [hs]; decide
  case invalid => intro h; rw [herr] at h; cases h
  case rangeFrom => intro h; rw [herr] at h; cases h
  case invalidFrom => intro h; rw [herr] at h; cases h
  case illegalIff => rw [herr, hc]; decide
  case notDone => exact fun _ => ⟨hs, hc⟩

/-- What the invariant says of a block it says of CMD and STATUS. -/
theorem StatusInv.of_eq {b c : Block} (h : StatusInv b) (hc : c.cmd = b.cmd) (hs : c.status = b.status) : StatusInv c := by
  obtain ⟨rsvd, op, err, axis, char, invalid, rangeFrom, invalidFrom, illegalIff, notDone⟩ := h
  constructor <;> rw [hs] <;> (try rw [hc]) <;> assumption

/-- The outcome of every command word meets the invariant: the error it reports is its command's, found by that command's
checks (R28, R29, R202). -/
theorem statusInv_of_outcome {b c : Block}
    (hs : c.status = outcomeWord (opcodeField c.cmd) (wordError c.cmd b)) : StatusInv c := by
  obtain ⟨hdone, hrsvd, hop⟩ := outcomeWord_fields (opcodeField c.cmd) (wordError c.cmd b)
  obtain ⟨haxis, hchar⟩ := outcomeWord_information (opcodeField c.cmd) (wordError c.cmd b)
  constructor <;> rw [hs]
  case rsvd => exact hrsvd
  case op => exact hop
  case err => exact statusErr_outcomeWord_cases
  case axis => exact haxis
  case char => exact hchar
  case invalid =>
    intro herr
    obtain ⟨j, x, he⟩ := statusErr_outcomeWord_eq_invalidCharacter_iff.mp herr
    obtain ⟨i, -, hcheck⟩ := exists_of_wordError he (by simp)
    rw [he, outcomeWord_invalidCharacter, statusIdx_statusWord, statusChar_statusWord]
    exact validate_eq_some (checkError_eq_invalidCharacter hcheck).2
  case rangeFrom =>
    intro herr
    obtain ⟨axis, he⟩ := statusErr_outcomeWord_eq_range_iff.mp herr
    obtain ⟨i, hi, hcheck⟩ := exists_of_wordError he (by simp)
    obtain ⟨hmay, hlat, hlng⟩ := checkError_eq_range hcheck
    rw [he, outcomeWord_range, statusAxis_statusWord]
    exact ⟨i, hmay, hi, hlat, hlng⟩
  case invalidFrom =>
    intro herr
    obtain ⟨j, x, he⟩ := statusErr_outcomeWord_eq_invalidCharacter_iff.mp herr
    obtain ⟨i, hi, hcheck⟩ := exists_of_wordError he (by simp)
    exact ⟨i, (checkError_eq_invalidCharacter hcheck).1, hi⟩
  case illegalIff => exact statusErr_outcomeWord_eq_illegalCommand_iff.trans wordError_eq_illegalCommand_iff
  case notDone =>
    intro h
    rw [hdone] at h
    cases h

/-- Every CMD write that goes on leaves STATUS and CMD as the invariant has them. -/
theorem issue_statusInv {w : Word} {s t : State} (h : issue w s = .next t) : StatusInv t.block := by
  obtain ⟨-, hcmd, hstatus, -⟩ := issue_next h
  exact statusInv_of_outcome (b := s.block) (by rw [hcmd]; exact hstatus)

/-- No step changes the parameters or the treatment of unwritten bytes, and each takes the oldest arrival. -/
theorem step_frame {s t : State} (h : step s = .next t) :
    t.params = s.params ∧ t.onUnwritten = s.onUnwritten ∧ t.inbox = s.inbox.tail := by
  obtain ⟨hi, rfl⟩ | ⟨rest, hi, rfl⟩ | ⟨host, a, rest, hi, ⟨-, rfl⟩ | ⟨-, -, ⟨addr, n, rfl, rfl⟩ |
    ⟨addr, n, v, rfl, ⟨-, -, -, u, hu, rfl⟩ | ⟨-, rfl⟩ | ⟨-, rfl⟩⟩⟩⟩ := step_cases h
  case inr.inr.inr.inr.inl =>
    obtain ⟨heq, -⟩ := issue_next hu
    rw [heq, hi]
    exact ⟨rfl, rfl, rfl⟩
  all_goals simp [hi]

/-- Under `stop`, a read that goes on covers written bytes only (R57). -/
theorem readWritten_of_next {host o n : Nat} {s t : State} (h : readWindow host o n s = .next t)
    (hs : s.onUnwritten = .stop) : readWritten s.block o n = true := by
  cases hr : rowOf o with
  | cmd | status | reserved => simp [readWritten, hr, Row.isData]
  | data r =>
    cases hw : s.block.written o n with
    | true => simp [readWritten, hw]
    | false =>
      have hu : s.usable false = false := usable_eq_false_iff.mpr ⟨hs, rfl⟩
      simp [readWindow, hr, hw, hu] at h

/-- Under `stop`, no step records a model fault: a use of an unwritten byte ends the run instead (R203). -/
theorem step_modelFault_of_stop {s t : State} (h : step s = .next t) (hs : s.onUnwritten = .stop) :
    t.modelFault = s.modelFault := by
  obtain ⟨-, rfl⟩ | ⟨rest, -, rfl⟩ | ⟨host, a, rest, hi, ⟨-, rfl⟩ | ⟨hwin, hl, ⟨addr, n, rfl, rfl⟩ |
    ⟨addr, n, v, rfl, ⟨-, -, -, u, hu, rfl⟩ | ⟨-, rfl⟩ | ⟨-, rfl⟩⟩⟩⟩ := step_cases h
  case inr.inr.inr.inl =>
    rw [step_of_access hi, access_read_of_legal (addr := addr) (n := n) (s := { s with inbox := rest }) hwin hl] at h
    have hw : readWritten s.block (addr - s.params.base) n = true :=
      readWritten_of_next (s := { s with inbox := rest }) h hs
    rw [hw]
    rfl
  case inr.inr.inr.inr.inl =>
    obtain ⟨-, -, -, hstop⟩ := issue_next hu
    exact hstop hs
  all_goals rfl

/-- Every step leaves STATUS and CMD as the invariant has them: a reset clears them, a command word reports its outcome, and
nothing else changes them (R28, R59, R82). -/
theorem step_statusInv {s t : State} (h : step s = .next t) (hs : StatusInv s.block) : StatusInv t.block := by
  obtain ⟨-, rfl⟩ | ⟨rest, -, rfl⟩ | ⟨host, a, rest, -, ⟨-, rfl⟩ | ⟨-, -, ⟨addr, n, -, rfl⟩ |
    ⟨addr, n, v, -, ⟨-, -, -, u, hu, rfl⟩ | ⟨-, rfl⟩ | ⟨-, rfl⟩⟩⟩⟩ := step_cases h
  case inr.inl => exact statusInv_of_clear rfl rfl
  case inr.inr.inr.inr.inl => exact (issue_statusInv hu).of_eq rfl rfl
  all_goals exact hs.of_eq (by simp) (by simp)

/-- Settles O12: STATUS and CMD by `step_statusInv`, the parameters and arrivals by `step_frame`, and no model fault by
`step_modelFault_of_stop`. -/
theorem stepKeepsInvariant : Obligations.StepKeepsInvariant := by
  intro s t hinv h
  obtain ⟨hstatus, hparams, hstops, hunfaulted, hhosts⟩ := hinv
  obtain ⟨hp, hu, hi⟩ := step_frame h
  exact
    { status := step_statusInv h hstatus
      params := by rw [hp]; exact hparams
      stops := by rw [hu]; exact hstops
      unfaulted := by rw [step_modelFault_of_stop h hstops]; exact hunfaulted
      hosts := by
        intro e he
        rw [hi] at he
        rw [hp]
        exact hhosts e (List.mem_of_mem_tail he) }

/-- Settles O11: CMD and STATUS are clear at reset, and nothing is to come. -/
theorem invariantHoldsAtReset : Obligations.InvariantHoldsAtReset :=
  { status := statusInv_of_clear rfl rfl
    params := by decide
    stops := rfl
    unfaulted := rfl
    hosts := fun _ he => absurd he List.not_mem_nil }

/-- A block whose marks are all clear has no written byte (R35). -/
theorem markAt_of_clear {b : Block} (h : b.marks = Vector.replicate 44 false) (o : Nat) : b.markAt o = false := by
  rcases Nat.lt_or_ge (o - 0x08) 44 with ho | ho <;> simp [Block.markAt, h, ho]

/-- The reserved offsets read 0 in every block (R21). -/
theorem windowByte_of_reserved {b : Block} {o : Nat} (h : rowOf o = .reserved) : b.windowByte o = 0 := by
  simp [Block.windowByte, h]

/-- Settles O1: the fields of `State.reset`, its clear marks, and the constants' tables entry by entry. -/
theorem resetStateAsSpecified : Obligations.ResetStateAsSpecified := by
  refine ⟨rfl, rfl, rfl, by decide, by decide, by decide, ?marks, ?reserved, by decide, rfl, rfl, rfl, rfl⟩
  case marks => exact fun o _ => markAt_of_clear rfl o
  case reserved => exact fun o _ => windowByte_of_reserved

end Sys2Proof.Machine

/-! What every command word leaves in STATUS (spec/10_state.md R30), whatever STATUS was: no command reads it. -/

namespace Sys2Proof.Machine

open Sys2Proof

@[simp] theorem checkError_withStatus (i : Instr) (b : Block) (old : Word) :
    checkError i (b.withStatus old) = checkError i b := by
  cases i <;> rfl

@[simp] theorem results_withStatus (arith : Config.MapArith) (i : Instr) (b : Block) (old : Word) :
    results arith i (b.withStatus old) = (results arith i b).withStatus old :=
  match i with
  | .nop | .maplat | .maplng | .unmaplat | .unmaplng | .ilv | .dilv | .k2s | .s2k | .valid | .enc | .dec => rfl

/-- Success and errors write all of STATUS. -/
@[simp] theorem Block.ok_withStatus (b : Block) (old : Word) : (b.withStatus old).ok = b.ok := by rfl

@[simp] theorem Block.raise_withStatus (b : Block) (old : Word) (e : CommandError) :
    (b.withStatus old).raise e = b.raise e := by
  cases e <;> rfl

@[simp] theorem effect_withStatus (arith : Config.MapArith) (i : Instr) (b : Block) (old : Word) :
    effect arith i (b.withStatus old) = effect arith i b := by
  cases h : checkError i b <;> simp [effect_eq, h]

/-- A command whose effect does not look at STATUS does the same whatever STATUS was. -/
theorem runCommand_withStatus {rs : List DataReg} {f : Block → Block} (hf : ∀ b old, f (b.withStatus old) = f b)
    (s : State) (old : Word) : runCommand rs f (s.withStatus old) = runCommand rs f s := by
  have hw : (s.withStatus old).block.allWritten rs = s.block.allWritten rs := rfl
  have hb : f (s.withStatus old).block = f s.block := hf s.block old
  unfold runCommand
  rw [hw, hb]
  cases s.block.allWritten rs <;> rfl

theorem issue_withStatus (w : Word) (s : State) (old : Word) : issue w (s.withStatus old) = issue w s := by
  change execute w ((s.storeCmd w).withStatus old) = execute w (s.storeCmd w)
  cases hd : decode w with
  | command i =>
    rw [execute_of_command hd, execute_of_command hd, exec_eq_runCommand, exec_eq_runCommand]
    exact runCommand_withStatus (effect_withStatus s.params.mapArith i) _ old
  | illegal why =>
    simp only [execute, hd, execIllegal]
    exact runCommand_withStatus (fun b old => b.raise_withStatus old .illegalCommand) _ old

/-- Settles O23: STATUS is the outcome of the word, and the word does not read STATUS. -/
theorem commandsWriteAllOfStatus : Obligations.CommandsWriteAllOfStatus := by
  intro w s t h
  obtain ⟨-, hcmd, hstatus, -⟩ := issue_next h
  obtain ⟨hdone, hrsvd, hop⟩ := outcomeWord_fields (opcodeField w) (wordError w s.block)
  obtain ⟨haxis, hchar⟩ := outcomeWord_information (opcodeField w) (wordError w s.block)
  rw [hcmd, hstatus]
  exact ⟨hdone, hrsvd, hop, rfl, haxis, fun herr => (hchar herr).symm, fun old => (issue_withStatus w s old).trans h⟩

end Sys2Proof.Machine

/-! UnwrittenOperand (spec/10_state.md R34, spec/60_exceptions.md R203). -/

namespace Sys2Proof.Machine

open Sys2Proof

/-- Operands are written where the mark of each of their bytes is set (R34). -/
theorem operandsWritten_iff_markAt {i : Instr} {b : Block} :
    OperandsWritten i b ↔ ∀ r ∈ reads i, ∀ k < r.bytes, b.markAt (r.offset + k) = true := by
  simp only [OperandsWritten, Block.written_iff]

theorem not_operandsWritten_iff_markAt {i : Instr} {b : Block} :
    ¬ OperandsWritten i b ↔ ∃ r ∈ reads i, ∃ k < r.bytes, b.markAt (r.offset + k) = false := by
  simp [operandsWritten_iff_markAt]

/-- Under `hold`, every command goes on. -/
theorem exists_next_of_hold {s : State} (h : s.onUnwritten = .hold) (i : Instr) : ∃ t, exec i s = .next t :=
  ⟨_, exec_eq_next_iff.mpr ⟨ready_of_hold h i, rfl⟩⟩

/-- Settles O26: by `exec_eq_fault_iff` under `stop`, and by what a command that goes on records under `hold`. -/
theorem unwrittenOperandFaults : Obligations.UnwrittenOperandFaults := by
  intro i s
  constructor
  · intro hs
    refine ⟨?_, fun f hf => (exec_eq_fault_iff.mp hf).1⟩
    rw [← not_operandsWritten_iff_markAt, exec_eq_fault_iff]
    simp [hs]
  · intro hs
    obtain ⟨t, ht⟩ := exists_next_of_hold hs i
    exact ⟨t, ht, fun h => exec_modelFault_of_not_written ht (not_operandsWritten_iff_markAt.mpr h),
      fun h => exec_modelFault_of_written ht (operandsWritten_iff_markAt.mpr h)⟩

/-- Where every mark is set, setting some changes nothing. -/
@[simp] theorem setMarks_replicate_true (o n : Nat) :
    setMarks (Vector.replicate 44 true) o n = Vector.replicate 44 true := by
  ext k hk
  simp [setMarks_getElem]

section
variable (b : Block)

@[simp] theorem Block.allMarked_lat : b.allMarked.lat = b.lat := by rfl
@[simp] theorem Block.allMarked_lng : b.allMarked.lng = b.lng := by rfl
@[simp] theorem Block.allMarked_latFrac : b.allMarked.latFrac = b.latFrac := by rfl
@[simp] theorem Block.allMarked_lngFrac : b.allMarked.lngFrac = b.lngFrac := by rfl
@[simp] theorem Block.allMarked_key : b.allMarked.key = b.key := by rfl
@[simp] theorem Block.allMarked_hash : b.allMarked.hash = b.hash := by rfl
@[simp] theorem Block.allMarked_marks : b.allMarked.marks = Vector.replicate 44 true := by rfl

theorem Block.allMarked_eq : b.allMarked = { b with marks := Vector.replicate 44 true } := by rfl

/-- Marking every byte before a register is written is marking every byte after it. -/
@[simp] theorem Block.writeLat_allMarked (v : F64) : b.allMarked.writeLat v = (b.writeLat v).allMarked := by
  simp [Block.writeLat, Block.allMarked_eq]
@[simp] theorem Block.writeLng_allMarked (v : F64) : b.allMarked.writeLng v = (b.writeLng v).allMarked := by
  simp [Block.writeLng, Block.allMarked_eq]
@[simp] theorem Block.writeLatFrac_allMarked (v : Word) :
    b.allMarked.writeLatFrac v = (b.writeLatFrac v).allMarked := by
  simp [Block.writeLatFrac, Block.allMarked_eq]
@[simp] theorem Block.writeLngFrac_allMarked (v : Word) :
    b.allMarked.writeLngFrac v = (b.writeLngFrac v).allMarked := by
  simp [Block.writeLngFrac, Block.allMarked_eq]
@[simp] theorem Block.writeKey_allMarked (v : DWord) : b.allMarked.writeKey v = (b.writeKey v).allMarked := by
  simp [Block.writeKey, Block.allMarked_eq]
@[simp] theorem Block.writeHash_allMarked (v : Chars) : b.allMarked.writeHash v = (b.writeHash v).allMarked := by
  simp [Block.writeHash, Block.allMarked_eq]
@[simp] theorem Block.ok_allMarked : b.allMarked.ok = b.ok.allMarked := by rfl
@[simp] theorem Block.raise_allMarked (e : CommandError) : b.allMarked.raise e = (b.raise e).allMarked := by
  cases e <;> rfl

end

/-- With every byte marked, every register counts as written. -/
theorem operandsWritten_allMarked (i : Instr) (b : Block) : OperandsWritten i b.allMarked := by
  rw [operandsWritten_iff_markAt]
  intro r _ k hk
  have hin : r.offset + k - 8 < 44 ∧ 8 ≤ r.offset + k := by
    cases r <;> simp only [DataReg.offset, DataReg.bytes] at hk ⊢ <;> omega
  simp [Block.markAt, hin]

@[simp] theorem checkError_allMarked (i : Instr) (b : Block) : checkError i b.allMarked = checkError i b := by
  cases i <;> rfl

@[simp] theorem results_allMarked (arith : Config.MapArith) (i : Instr) (b : Block) :
    results arith i b.allMarked = (results arith i b).allMarked := by
  cases i <;> simp [Block.writeEncoded, Block.writeDecoded]

/-- No command looks at a mark for anything but UnwrittenOperand. -/
theorem effect_allMarked (arith : Config.MapArith) (i : Instr) (b : Block) :
    effect arith i b.allMarked = (effect arith i b).allMarked := by
  cases h : checkError i b <;> simp [effect_eq, h]

/-- Settles O27: under `hold` the command has its effect, and with every byte marked it has the same effect. -/
theorem heldOperandsReadAsTheirValues : Obligations.HeldOperandsReadAsTheirValues := by
  intro i s hs
  obtain ⟨t, ht⟩ := exists_next_of_hold hs i
  refine ⟨t, _, ht, exec_of_written (s := { s with block := s.block.allMarked }) (operandsWritten_allMarked i s.block), ?_⟩
  rw [effect_allMarked, exec_next ht]
  rfl

end Sys2Proof.Machine

/-! The frame of a command (spec/10_state.md R36, spec/60_exceptions.md R201): it changes the registers of its write column
on success, and STATUS. -/

namespace Sys2Proof.Machine

open Sys2Proof

theorem markRegs_cons (r : DataReg) (rs : List DataReg) (m : Vector Bool 44) :
    markRegs (r :: rs) m = markRegs rs (setMarks m r.offset r.bytes) :=
  List.foldl_cons ..

theorem markRegs_append (rs qs : List DataReg) (m : Vector Bool 44) :
    markRegs (rs ++ qs) m = markRegs qs (markRegs rs m) :=
  List.foldl_append

/-- Writes one after the other. -/
theorem WritesRegs.trans {rs qs : List DataReg} {b c d : Block} (h : WritesRegs rs b c) (h' : WritesRegs qs c d) :
    WritesRegs (rs ++ qs) b d where
  cmd := h'.cmd.trans h.cmd
  others r hr k := by
    rw [List.mem_append, not_or] at hr
    exact (h'.others r hr.2 k).trans (h.others r hr.1 k)
  marks := by rw [h'.marks, h.marks, markRegs_append]

section
variable (b : Block)

theorem writesRegs_nil : WritesRegs [] b b := ⟨rfl, fun _ _ _ => rfl, rfl⟩

/-- A write of one register leaves the bytes of every other register. -/
theorem writesRegs_writeLat (v : F64) : WritesRegs [.lat] b (b.writeLat v) :=
  ⟨rfl, fun r hr k => by cases r <;> simp_all [Block.regByte], rfl⟩
theorem writesRegs_writeLng (v : F64) : WritesRegs [.lng] b (b.writeLng v) :=
  ⟨rfl, fun r hr k => by cases r <;> simp_all [Block.regByte], rfl⟩
theorem writesRegs_writeLatFrac (v : Word) : WritesRegs [.latFrac] b (b.writeLatFrac v) :=
  ⟨rfl, fun r hr k => by cases r <;> simp_all [Block.regByte], rfl⟩
theorem writesRegs_writeLngFrac (v : Word) : WritesRegs [.lngFrac] b (b.writeLngFrac v) :=
  ⟨rfl, fun r hr k => by cases r <;> simp_all [Block.regByte], rfl⟩
theorem writesRegs_writeKey (v : DWord) : WritesRegs [.key] b (b.writeKey v) :=
  ⟨rfl, fun r hr k => by cases r <;> simp_all [Block.regByte], rfl⟩
theorem writesRegs_writeHash (v : Chars) : WritesRegs [.hash] b (b.writeHash v) :=
  ⟨rfl, fun r hr k => by cases r <;> simp_all [Block.regByte], rfl⟩

/-- Reporting writes STATUS only. -/
theorem writesRegs_ok : WritesRegs [] b b.ok :=
  ⟨rfl, fun r _ k => by cases r <;> rfl, rfl⟩
theorem writesRegs_raise (e : CommandError) : WritesRegs [] b (b.raise e) :=
  ⟨b.raise_cmd e, fun r _ k => by cases r <;> simp [Block.regByte], b.raise_marks e⟩

end

/-- The results of a command are the registers of its write column (R36). -/
theorem writesRegs_results (arith : Config.MapArith) (i : Instr) (b : Block) :
    WritesRegs (writes i) b (results arith i b) :=
  match i with
  | .nop | .valid => writesRegs_nil b
  | .maplat => writesRegs_writeLatFrac b _
  | .maplng => writesRegs_writeLngFrac b _
  | .unmaplat => writesRegs_writeLat b _
  | .unmaplng => writesRegs_writeLng b _
  | .ilv | .s2k => writesRegs_writeKey b _
  | .dilv => (writesRegs_writeLatFrac b _).trans (writesRegs_writeLngFrac _ _)
  | .k2s => writesRegs_writeHash b _
  | .enc =>
    (((writesRegs_writeLatFrac b _).trans (writesRegs_writeLngFrac _ _)).trans (writesRegs_writeKey _ _)).trans
      (writesRegs_writeHash _ _)
  | .dec =>
    ((((writesRegs_writeKey b _).trans (writesRegs_writeLatFrac _ _)).trans (writesRegs_writeLngFrac _ _)).trans
      (writesRegs_writeLat _ _)).trans (writesRegs_writeLng _ _)

theorem writesRegs_effect_of_success {i : Instr} {b : Block} (h : checkError i b = none) (arith : Config.MapArith) :
    WritesRegs (writes i) b (effect arith i b) := by
  rw [effect_of_checkError_none h, ← List.append_nil (writes i)]
  exact (writesRegs_results arith i b).trans (writesRegs_ok _)

theorem writesRegs_effect_of_error {i : Instr} {b : Block} {e : CommandError} (h : checkError i b = some e)
    (arith : Config.MapArith) : WritesRegs [] b (effect arith i b) := by
  rw [effect_of_checkError_some h]
  exact writesRegs_raise b e

/-- The marks are those of the data registers' bytes, below offset 0x34 (R34). -/
theorem markAt_of_ge {b : Block} {o : Nat} (h : 0x34 ≤ o) : b.markAt o = false := by
  have hout : ¬ o - 8 < 44 := by omega
  simp [Block.markAt, hout]

/-- Marking a register marks the bytes of its row. -/
theorem markAt_setMarks_reg {b c : Block} {r : DataReg} (h : c.marks = setMarks b.marks r.offset r.bytes) (o : Nat) :
    c.markAt o = (b.markAt o || decide (rowOf o = .data r)) := by
  rcases Nat.lt_or_ge o 0x34 with ho | ho
  · have h8 : r.offset ≤ o → 8 ≤ o := by cases r <;> simp only [DataReg.offset] <;> omega
    rw [markAt_setMarks h o ho, Bool.and_assoc, ← Bool.decide_and, ← Bool.decide_and]
    congr 2
    rw [rowOf_data_iff]
    exact propext ⟨fun hb => hb.2, fun hb => ⟨h8 hb.1, hb⟩⟩
  · have hrow : rowOf o ≠ .data r := by
      rw [Ne, rowOf_data_iff]
      cases r <;> simp only [DataReg.offset, DataReg.bytes] <;> omega
    simp [markAt_of_ge ho, hrow]

/-- Marking registers marks the bytes of their rows and no other. -/
theorem markAt_markRegs (rs : List DataReg) : ∀ {b c : Block}, c.marks = markRegs rs b.marks → ∀ o,
    c.markAt o = true ↔ b.markAt o = true ∨ ∃ r ∈ rs, rowOf o = .data r := by
  induction rs with
  | nil =>
    intro b c h o
    have hm : c.markAt o = b.markAt o := by unfold Block.markAt; rw [h]; rfl
    simp [hm]
  | cons r rs ih =>
    intro b c h o
    rw [markRegs_cons] at h
    have hfirst := markAt_setMarks_reg (b := b) (c := { b with marks := setMarks b.marks r.offset r.bytes }) rfl o
    rw [ih (b := { b with marks := setMarks b.marks r.offset r.bytes }) h o, hfirst]
    simp [or_assoc]

/-- Every written register has all its bytes marked (R34). -/
theorem WritesRegs.written {rs : List DataReg} {b c : Block} (h : WritesRegs rs b c) {r : DataReg} (hr : r ∈ rs) :
    c.written r.offset r.bytes = true := by
  rw [Block.written_iff]
  intro k hk
  exact (markAt_markRegs rs h.marks _).mpr (.inr ⟨r, hr, rowOf_data_iff.mpr ⟨by omega, by omega⟩⟩)

/-- Outside the rows of the written registers and STATUS, every byte of the window is as before. -/
theorem WritesRegs.windowByte {rs : List DataReg} {b c : Block} (h : WritesRegs rs b c) {o : Nat}
    (hs : rowOf o ≠ .status) (hr : ∀ r ∈ rs, rowOf o ≠ .data r) : c.windowByte o = b.windowByte o := by
  cases ho : rowOf o with
  | cmd => simp [Block.windowByte, ho, h.cmd]
  | status => exact absurd ho hs
  | data r =>
    rw [windowByte_of_data ho, windowByte_of_data ho]
    exact h.others r (fun hmem => hr r hmem ho) _
  | reserved => rw [windowByte_of_reserved ho, windowByte_of_reserved ho]

/-- Outside the rows of the written registers, every mark is as before. -/
theorem WritesRegs.markAt {rs : List DataReg} {b c : Block} (h : WritesRegs rs b c) {o : Nat}
    (hr : ∀ r ∈ rs, rowOf o ≠ .data r) : c.markAt o = b.markAt o := by
  have hnone : ¬ ∃ r ∈ rs, rowOf o = .data r := fun ⟨r, hmem, ho⟩ => hr r hmem ho
  rw [Bool.eq_iff_iff, markAt_markRegs rs h.marks, or_iff_left hnone]

/-- The frame of a machine whose block has changed in these registers and STATUS only. -/
theorem WritesRegs.onlyChanges {rs : List DataReg} {s : State} {c : Block} (h : WritesRegs rs s.block c) :
    OnlyChanges rs s { s with block := c } where
  inbox := rfl
  replies := rfl
  resets := rfl
  params := rfl
  onUnwritten := rfl
  modelFault := rfl
  cmd := h.cmd
  window _ _ hs hr := h.windowByte hs hr
  marks _ _ hr := h.markAt hr

/-- The block after a command that goes on. -/
theorem exec_next_block {i : Instr} {s t : State} (h : exec i s = .next t) :
    t.block = effect s.params.mapArith i s.block := by
  rw [exec_next h]

/-- ERR says whether the command's checks found an error (R29). -/
theorem exec_statusErr_eq_zero_iff {i : Instr} {s t : State} (h : exec i s = .next t) :
    statusErr t.block.status = 0 ↔ checkError i s.block = none := by
  rw [exec_next_block h, effect_status, statusErr_outcomeWord_eq_zero_iff]

/-- A command that goes on, framed by the registers that its effect on the block writes. -/
theorem exec_onlyChanges {rs : List DataReg} {i : Instr} {s t : State} (h : exec i s = .next t)
    (hw : WritesRegs rs s.block (effect s.params.mapArith i s.block)) :
    OnlyChanges rs { s with modelFault := t.modelFault } t := by
  have hf := WritesRegs.onlyChanges (s := { s with modelFault := t.modelFault }) hw
  rw [exec_next h]
  exact hf

/-- Settles O21: the frame of the command's effect, and what it records of an unwritten operand. -/
theorem commandsWriteTheirRegistersOnly : Obligations.CommandsWriteTheirRegistersOnly := by
  intro i s t h
  refine ⟨exec_modelFault_of_written h, operandsWritten_of_next h, exec_modelFault_of_not_written h, ?success, ?error⟩
  case success =>
    intro herr
    have hw := writesRegs_effect_of_success ((exec_statusErr_eq_zero_iff h).mp herr) s.params.mapArith
    refine ⟨exec_onlyChanges h hw, fun r hr => ?_⟩
    rw [exec_next_block h]
    exact hw.written hr
  case error =>
    intro herr
    obtain ⟨e, he⟩ := Option.ne_none_iff_exists'.mp (mt (exec_statusErr_eq_zero_iff h).mpr herr)
    exact exec_onlyChanges h (writesRegs_effect_of_error he _)

end Sys2Proof.Machine

/-! What a command looks at (spec/10_state.md R36, spec/30_encoding.md R86): its operand registers. -/

namespace Sys2Proof.Machine

open Sys2Proof

/-- A register of whole bytes is known by its bytes. -/
theorem eq_of_byteOf_eq {w n : Nat} {u v : BitVec w} (hw : w = 8 * n) (h : ∀ k < n, byteOf u k = byteOf v k) : u = v := by
  apply BitVec.eq_of_getLsbD_eq
  intro i hi
  have hbit := congrArg (fun x => x.getLsbD (i % 8)) (h (i / 8) (by omega))
  have hmod : i % 8 < 8 := Nat.mod_lt i (by omega)
  simpa only [byteOf_getLsbD, Nat.div_add_mod, hmod, decide_true, Bool.true_and] using hbit

section
variable {b c : Block}

@[simp] theorem sameReg_lat : SameReg .lat b c ↔ b.lat = c.lat :=
  ⟨eq_of_byteOf_eq rfl, fun h _ _ => congrArg (byteOf · _) h⟩
@[simp] theorem sameReg_lng : SameReg .lng b c ↔ b.lng = c.lng :=
  ⟨eq_of_byteOf_eq rfl, fun h _ _ => congrArg (byteOf · _) h⟩
@[simp] theorem sameReg_latFrac : SameReg .latFrac b c ↔ b.latFrac = c.latFrac :=
  ⟨eq_of_byteOf_eq rfl, fun h _ _ => congrArg (byteOf · _) h⟩
@[simp] theorem sameReg_lngFrac : SameReg .lngFrac b c ↔ b.lngFrac = c.lngFrac :=
  ⟨eq_of_byteOf_eq rfl, fun h _ _ => congrArg (byteOf · _) h⟩
@[simp] theorem sameReg_key : SameReg .key b c ↔ b.key = c.key :=
  ⟨eq_of_byteOf_eq rfl, fun h _ _ => congrArg (byteOf · _) h⟩
@[simp] theorem sameReg_hash : SameReg .hash b c ↔ b.hash = c.hash := by
  constructor
  · intro h
    ext k hk : 1
    simpa [Block.regByte, hk] using h k hk
  · intro h k _
    simp [Block.regByte, h]

/-- Reporting success leaves every data register. -/
theorem sameReg_ok {r : DataReg} : SameReg r b.ok c.ok ↔ SameReg r b c := by
  cases r <;> simp

/-- The checks of a command look at its operands only. -/
theorem checkError_congr {i : Instr} (h : ∀ r ∈ reads i, SameReg r b c) : checkError i b = checkError i c := by
  cases i <;> simp_all [reads]

/-- So do its results. -/
theorem results_congr (arith : Config.MapArith) {i : Instr} (h : ∀ r ∈ reads i, SameReg r b c) :
    ∀ r ∈ writes i, SameReg r (results arith i b) (results arith i c) := by
  cases i <;> simp_all [reads, writes, Block.writeEncoded, Block.writeDecoded]

end

/-- Settles O22: the checks find the same error, and where they find none the results are the same. -/
theorem commandsReadTheirOperandsOnly : Obligations.CommandsReadTheirOperandsOnly := by
  intro i s s' t t' h h' harith hcmd hops
  have hcheck : checkError i s.block = checkError i s'.block := checkError_congr hops
  refine ⟨?status, fun herr => ?registers⟩
  case status => rw [exec_next_block h, exec_next_block h', effect_status, effect_status, hcmd, hcheck]
  case registers =>
    have hnone : checkError i s.block = none := (exec_statusErr_eq_zero_iff h).mp herr
    rw [exec_next_block h, exec_next_block h', effect_of_checkError_none hnone,
      effect_of_checkError_none (hcheck ▸ hnone), harith]
    exact fun r hr => sameReg_ok.mpr (results_congr _ hops r hr)

end Sys2Proof.Machine

/-! What one arrival does (spec/20_memory.md R51 to R58), kind by kind: what `step` answers to it, and, as a relation with
a case for each kind, everything that a step that goes on can have done. -/

namespace Sys2Proof.Machine

open Sys2Proof

/-- The window is [BASE, BASE + 64) (R51). -/
theorem inWindow_iff {base addr : Nat} : inWindow base addr = true ↔ base ≤ addr ∧ addr < base + 64 := by
  simp [inWindow]

theorem inWindow_eq_false_iff {base addr : Nat} :
    inWindow base addr = false ↔ addr < base ∨ base + 64 ≤ addr := by
  rw [← Bool.not_eq_true, inWindow_iff]
  omega

section
variable {s : State} {host : Nat} {rest : List Event}

theorem step_of_outside {a : Access} (hi : s.inbox = .access host a :: rest)
    (hw : inWindow s.params.base a.addr = false) : step s = .next ({ s with inbox := rest }.reply host .notOurs) := by
  rw [step_of_access hi]
  exact access_of_outside hw

theorem step_of_illegal {a : Access} (hi : s.inbox = .access host a :: rest)
    (hw : inWindow s.params.base a.addr = true) (hl : legal (a.addr - s.params.base) a.width = false) :
    step s = .fault (.busError host) := by
  rw [step_of_access hi]
  exact access_of_illegal hw hl

theorem step_of_read {addr n : Nat} (hi : s.inbox = .access host (.read addr n) :: rest)
    (hw : inWindow s.params.base addr = true) (hl : legal (addr - s.params.base) n = true) :
    step s = readWindow host (addr - s.params.base) n { s with inbox := rest } := by
  rw [step_of_access hi]
  exact access_read_of_legal hw hl

theorem step_of_write {addr n : Nat} {v : DWord} (hi : s.inbox = .access host (.write addr n v) :: rest)
    (hw : inWindow s.params.base addr = true) (hl : legal (addr - s.params.base) n = true) :
    step s = writeWindow host (addr - s.params.base) n v { s with inbox := rest } := by
  rw [step_of_access hi]
  exact access_write_of_legal hw hl

/-- What a write does to each kind of row (R58). -/
theorem writeWindow_of_data {o n : Nat} {v : DWord} (h : (rowOf o).isData = true) :
    writeWindow host o n v s = .next ({ s with block := s.block.storeBytes o v n }.reply host .written) := by
  cases hr : rowOf o with
  | data r => simp [writeWindow, hr]
  | cmd | status | reserved => simp [hr, Row.isData] at h

theorem writeWindow_of_ignored {o n : Nat} {v : DWord} (h : rowOf o = .status ∨ rowOf o = .reserved) :
    writeWindow host o n v s = .next (s.reply host .written) := by
  rcases h with hr | hr <;> simp [writeWindow, hr]

theorem writeWindow_of_cmd {o n : Nat} {v : DWord} (h : rowOf o = .cmd) :
    writeWindow host o n v s = answering host .written (issue (v.setWidth 32) s) := by
  simp [writeWindow, h, issue]

/-- A read goes on where the bytes it covers need no mark, or have it, or an unwritten byte does not stop it (R57). -/
theorem readWindow_eq (host o n : Nat) (s : State) :
    readWindow host o n s =
      if s.usable (readWritten s.block o n) then
        .next ((s.noting (readWritten s.block o n) (.unwrittenRead host)).reply host (.data n (s.block.loadBytes o n)))
      else .fault (.unwrittenRead host) := by
  cases hr : rowOf o with
  | data r => simp [readWindow, readWritten, hr, Row.isData]
  | cmd | status | reserved => simp [readWindow, readWritten, hr, Row.isData, State.usable]

end

/-- What a step that goes on has done, with the state it has led to. -/
inductive StepDoes (s : State) : State → Prop
  | idle (hi : s.inbox = []) : StepDoes s s
  | reset {rest : List Event} (hi : s.inbox = .reset :: rest) : StepDoes s (resetEvent { s with inbox := rest })
  | outside {host : Nat} {a : Access} {rest : List Event} (hi : s.inbox = .access host a :: rest)
      (hw : inWindow s.params.base a.addr = false) : StepDoes s ({ s with inbox := rest }.reply host .notOurs)
  | read {host addr n : Nat} {rest : List Event} (hi : s.inbox = .access host (.read addr n) :: rest)
      (hw : inWindow s.params.base addr = true) (hl : legal (addr - s.params.base) n = true) :
      StepDoes s (({ s with inbox := rest }.noting (readWritten s.block (addr - s.params.base) n)
        (.unwrittenRead host)).reply host (.data n (s.block.loadBytes (addr - s.params.base) n)))
  | command {host : Nat} {v : DWord} {rest : List Event} {u : State}
      (hi : s.inbox = .access host (.write s.params.base 4 v) :: rest)
      (hu : issue (v.setWidth 32) { s with inbox := rest } = .next u) : StepDoes s (u.reply host .written)
  | ignored {host addr n : Nat} {v : DWord} {rest : List Event} (hi : s.inbox = .access host (.write addr n v) :: rest)
      (hr : rowOf (addr - s.params.base) = .status ∨ rowOf (addr - s.params.base) = .reserved) :
      StepDoes s ({ s with inbox := rest }.reply host .written)
  | store {host addr n : Nat} {v : DWord} {rest : List Event} (hi : s.inbox = .access host (.write addr n v) :: rest)
      (hw : inWindow s.params.base addr = true) (hr : (rowOf (addr - s.params.base)).isData = true) :
      StepDoes s ({ s with inbox := rest, block := s.block.storeBytes (addr - s.params.base) v n }.reply host .written)

/-- A step that goes on has done one of these. -/
theorem stepDoes_of_next {s t : State} (h : step s = .next t) : StepDoes s t := by
  obtain ⟨hi, rfl⟩ | ⟨rest, hi, rfl⟩ | ⟨host, a, rest, hi, ⟨hw, rfl⟩ | ⟨hw, hl, ⟨addr, n, rfl, rfl⟩ |
    ⟨addr, n, v, rfl, ⟨-, rfl, rfl, u, hu, rfl⟩ | ⟨hr, rfl⟩ | ⟨hr, rfl⟩⟩⟩⟩ := step_cases h
  · exact .idle hi
  · exact .reset hi
  · exact .outside hi hw
  · exact .read hi hw hl
  · exact .command hi hu
  · exact .ignored hi hr
  · exact .store hi hw hr

end Sys2Proof.Machine

/-! A data register's byte and its written mark along a run (spec/20_memory.md R63): a command touches the bytes of its
result registers only, and a write of data the bytes it names. -/

namespace Sys2Proof.Machine

open Sys2Proof

/-- The two blocks hold the same byte at offset `o` of the window, with the same mark. -/
def SameByte (o : Nat) (b c : Block) : Prop := c.windowByte o = b.windowByte o ∧ c.markAt o = b.markAt o

theorem SameByte.refl (o : Nat) (b : Block) : SameByte o b b := ⟨rfl, rfl⟩

theorem SameByte.trans {o : Nat} {b c d : Block} (h : SameByte o b c) (h' : SameByte o c d) : SameByte o b d :=
  ⟨h'.1.trans h.1, h'.2.trans h.2⟩

theorem exists_of_isData {row : Row} (h : row.isData = true) : ∃ r, row = .data r := by
  cases row with
  | data r => exact ⟨r, rfl⟩
  | cmd | status | reserved => cases h

/-- The data registers end before offset 0x34 (R21). -/
theorem lt_of_isData {o : Nat} (h : (rowOf o).isData = true) : o < 0x34 := by
  obtain ⟨r, hr⟩ := exists_of_isData h
  have hb := rowOf_data_iff.mp hr
  cases r <;> simp only [DataReg.offset, DataReg.bytes] at hb <;> omega

/-- A command changes only the registers of its write column, and only STATUS beside them (R36). -/
theorem writesRegs_effect (arith : Config.MapArith) (i : Instr) (b : Block) :
    ∃ rs ⊆ writes i, WritesRegs rs b (effect arith i b) := by
  cases h : checkError i b with
  | none => exact ⟨writes i, List.Subset.refl _, writesRegs_effect_of_success h arith⟩
  | some e => exact ⟨[], List.nil_subset _, writesRegs_effect_of_error h arith⟩

/-- A change of some registers touches no data byte of another. -/
theorem WritesRegs.sameByte {rs : List DataReg} {b c : Block} (h : WritesRegs rs b c) {o : Nat}
    (hd : (rowOf o).isData = true) (hr : ∀ r ∈ rs, rowOf o ≠ .data r) : SameByte o b c := by
  have hs : rowOf o ≠ .status := by rintro hrow; simp [hrow, Row.isData] at hd
  exact ⟨h.windowByte hs hr, h.markAt hr⟩

/-- Storing CMD touches no data byte. -/
theorem sameByte_storeCmd {o : Nat} (hd : (rowOf o).isData = true) (s : State) (w : Word) :
    SameByte o s.block (s.storeCmd w).block := by
  obtain ⟨r, hr⟩ := exists_of_isData hd
  refine ⟨?_, rfl⟩
  rw [windowByte_of_data hr, windowByte_of_data hr]
  cases r <;> rfl

/-- A command word touches no data byte but those of its command's result registers (R36, R201). -/
theorem issue_sameByte {w : Word} {s t : State} (h : issue w s = .next t) {o : Nat} (hd : (rowOf o).isData = true)
    (hr : ∀ i, decode w = .command i → ∀ r ∈ writes i, rowOf o ≠ .data r) : SameByte o s.block t.block := by
  refine (sameByte_storeCmd hd s w).trans ?_
  cases hdec : decode w with
  | command i =>
    rw [issue, execute_of_command hdec] at h
    obtain ⟨rs, hsub, hw⟩ := writesRegs_effect s.params.mapArith i (s.storeCmd w).block
    rw [exec_next_block h]
    exact hw.sameByte hd fun r hmem => hr i hdec r (hsub hmem)
  | illegal why =>
    rw [issue, execute_of_illegal hdec] at h
    cases h
    exact (writesRegs_raise _ _).sameByte hd (by simp)

/-- Storing bytes touches only those. -/
theorem sameByte_storeBytes {b : Block} {o o' n : Nat} (v : DWord) (hd : (rowOf o).isData = true)
    (ho : ¬ (o' ≤ o ∧ o < o' + n)) : SameByte o b (b.storeBytes o' v n) := by
  have hout : ¬ (o' ≤ o ∧ o < o' + n ∧ (rowOf o).isData = true) := fun ⟨h1, h2, _⟩ => ho ⟨h1, h2⟩
  constructor
  · rw [windowByte_storeBytes, if_neg hout]
  · rw [markAt_storeBytes _ _ _ _ (lt_of_isData hd), decide_eq_false hout, Bool.or_false]

/-- A step whose arrival does not touch a data byte leaves it (R58, R63). -/
theorem step_sameByte {s t : State} (h : step s = .next t) {o : Nat} (hd : (rowOf o).isData = true)
    (ht : ∀ e rest, s.inbox = e :: rest → ¬ e.touches s.params.base o) : SameByte o s.block t.block := by
  cases stepDoes_of_next h with
  | idle => exact .refl o _
  | reset hi => exact absurd trivial (ht _ _ hi)
  | outside => exact .refl o _
  | read => simpa using SameByte.refl o s.block
  | command hi hu =>
    refine issue_sameByte hu hd fun i hdec r hr hrow => ht _ _ hi ?_
    exact .inl ⟨rfl, rfl, i, hdec, r, hr, hrow⟩
  | ignored => exact .refl o _
  | store hi hw =>
    refine sameByte_storeBytes _ hd fun hin => ht _ _ hi ?_
    exact .inr ⟨(inWindow_iff.mp hw).1, hin⟩

/-- Settles O19, by induction on the number of steps. -/
theorem bytesHoldUntilWritten : Obligations.BytesHoldUntilWritten := by
  intro k
  induction k with
  | zero =>
    intro s t o h _ _ _
    cases h
    exact SameByte.refl o _
  | succ k ih =>
    intro s t o h ho hd ht
    obtain ⟨u, hstep, hrun⟩ := run_succ_eq_next_iff.mp h
    obtain ⟨hparams, -, hinbox⟩ := step_frame hstep
    have hfirst : ∀ e rest, s.inbox = e :: rest → ¬ e.touches s.params.base o := fun e rest hi =>
      ht e (by simp [hi])
    have hrest : ∀ e ∈ u.inbox.take k, ¬ e.touches u.params.base o := by
      intro e he
      have htail : u.inbox.take k = (s.inbox.take (k + 1)).tail := by
        rw [hinbox, List.tail_take_eq_take_tail, Nat.add_sub_cancel]
      rw [hparams]
      exact ht e (List.mem_of_mem_tail (htail ▸ he))
    exact (step_sameByte hstep hd hfirst).trans (ih u t o hrun ho hd hrest)

end Sys2Proof.Machine

/-! Progress (spec/60_exceptions.md R203): written marks are cleared by a reset only, and where every byte is written, or
a use of an unwritten byte goes on, no allowed arrival ends the run. -/

namespace Sys2Proof.Machine

open Sys2Proof

/-- Every byte of the data registers is written (R34). -/
def AllWritten (b : Block) : Prop := ∀ o < 0x40, (rowOf o).isData = true → b.markAt o = true

/-- Every byte written in `b` is written in `c`. -/
def KeepsMarks (b c : Block) : Prop := ∀ o, b.markAt o = true → c.markAt o = true

/-- Every arrival to come is a reset, a legal access, or an access outside the window. -/
def AllAllowed (s : State) : Prop := ∀ e ∈ s.inbox, e.allowed s.params.base = true

/-- The condition of the second half of `LegalAccessesNeverStop`: every byte is written, no arrival to come clears a mark,
and no model fault is recorded. -/
structure FaultFree (s : State) : Prop where
  allowed : AllAllowed s
  written : AllWritten s.block
  noReset : .reset ∉ s.inbox
  unfaulted : s.modelFault = none

theorem KeepsMarks.refl (b : Block) : KeepsMarks b b := fun _ h => h

theorem AllWritten.mono {b c : Block} (h : AllWritten b) (hk : KeepsMarks b c) : AllWritten c :=
  fun o ho hd => hk o (h o ho hd)

/-- With every byte written, so are the operands of every command. -/
theorem AllWritten.operandsWritten {b : Block} (h : AllWritten b) (i : Instr) : OperandsWritten i b := by
  rw [operandsWritten_iff_markAt]
  intro r _ k hk
  have hrow : rowOf (r.offset + k) = .data r := rowOf_data_iff.mpr ⟨by omega, by omega⟩
  have hd : (rowOf (r.offset + k)).isData = true := by rw [hrow]; rfl
  exact h _ (by have := lt_of_isData hd; omega) hd

/-- The bytes of a read count as written unless it reads a data register at an unwritten byte (R57). -/
theorem readWritten_eq_false_iff {b : Block} {o n : Nat} :
    readWritten b o n = false ↔ (rowOf o).isData = true ∧ ∃ k < n, b.markAt (o + k) = false := by
  rw [readWritten, Bool.or_eq_false_iff, Bool.not_eq_false', ← Bool.not_eq_true (b.written o n), Block.written_iff]
  simp

/-- With every byte written, so are the bytes of every legal read. -/
theorem AllWritten.readWritten {b : Block} (h : AllWritten b) {o n : Nat} (hl : legal o n = true) :
    readWritten b o n = true := by
  rw [← Bool.not_eq_false, readWritten_eq_false_iff]
  rintro ⟨hd, k, hk, hm⟩
  have hlt := (legal_bounds hl).2.2
  rw [h (o + k) (by omega) (by rwa [rowOf_of_legal hl k hk])] at hm
  cases hm

/-- Writing registers clears no mark. -/
theorem WritesRegs.keepsMarks {rs : List DataReg} {b c : Block} (h : WritesRegs rs b c) : KeepsMarks b c :=
  fun o ho => (markAt_markRegs rs h.marks o).mpr (.inl ho)

/-- Neither does a write of bytes. -/
theorem keepsMarks_storeBytes (b : Block) (o : Nat) (v : DWord) (n : Nat) : KeepsMarks b (b.storeBytes o v n) := by
  intro x hx
  have hlt : x < 0x34 := Nat.lt_of_not_le fun hge => by simp [markAt_of_ge hge] at hx
  rw [markAt_storeBytes b o v x hlt, hx, Bool.true_or]

/-- Neither does a command word. -/
theorem issue_keepsMarks {w : Word} {s t : State} (h : issue w s = .next t) : KeepsMarks s.block t.block := by
  change KeepsMarks (s.storeCmd w).block t.block
  cases hdec : decode w with
  | command i =>
    rw [issue, execute_of_command hdec] at h
    obtain ⟨rs, -, hw⟩ := writesRegs_effect s.params.mapArith i (s.storeCmd w).block
    rw [exec_next_block h]
    exact hw.keepsMarks
  | illegal why =>
    rw [issue, execute_of_illegal hdec] at h
    cases h
    exact (writesRegs_raise _ _).keepsMarks

/-- No arrival but a reset clears a mark (R34, R230). -/
theorem step_keepsMarks {s t : State} (h : step s = .next t) (hr : .reset ∉ s.inbox) : KeepsMarks s.block t.block := by
  cases stepDoes_of_next h with
  | idle | outside | ignored => exact .refl _
  | reset hi => simp [hi] at hr
  | read => simpa using KeepsMarks.refl s.block
  | command _ hu =>
    have hk := issue_keepsMarks hu
    exact hk
  | store => exact keepsMarks_storeBytes s.block _ _ _

/-- Where every byte is written, no command word records a model fault (R203). -/
theorem issue_modelFault_of_allWritten {w : Word} {s t : State} (h : issue w s = .next t) (hw : AllWritten s.block) :
    t.modelFault = s.modelFault := by
  cases hdec : decode w with
  | command i =>
    rw [issue, execute_of_command hdec] at h
    exact exec_modelFault_of_written (s := s.storeCmd w) h (hw.operandsWritten (b := (s.storeCmd w).block) i)
  | illegal why =>
    rw [issue, execute_of_illegal hdec] at h
    cases h
    rfl

/-- Where every byte is written, no arrival records a model fault. -/
theorem step_modelFault_of_allWritten {s t : State} (h : step s = .next t) (hw : AllWritten s.block) :
    t.modelFault = s.modelFault := by
  cases stepDoes_of_next h with
  | idle | reset | outside | ignored | store => rfl
  | read _ _ hl => rw [hw.readWritten hl]; rfl
  | command _ hu =>
    have hm := issue_modelFault_of_allWritten hu hw
    exact hm

/-- A command word goes on where its operands are written or an unwritten byte does not stop it. -/
theorem exists_issue_next {s : State} (h : s.onUnwritten = .hold ∨ AllWritten s.block) (w : Word) :
    ∃ t, issue w s = .next t := by
  cases hdec : decode w with
  | command i =>
    have hready : Ready i (s.storeCmd w) := h.imp_right fun hw => hw.operandsWritten (b := (s.storeCmd w).block) i
    rw [issue, execute_of_command hdec]
    exact ⟨_, exec_eq_next_iff.mpr ⟨hready, rfl⟩⟩
  | illegal why =>
    rw [issue, execute_of_illegal hdec]
    exact ⟨_, rfl⟩

/-- A legal write goes on where the command word it may carry does. -/
theorem exists_writeWindow_next {s : State} (h : s.onUnwritten = .hold ∨ AllWritten s.block) (host o n : Nat) (v : DWord) :
    ∃ t, writeWindow host o n v s = .next t := by
  cases hr : rowOf o with
  | cmd =>
    obtain ⟨u, hu⟩ := exists_issue_next h (v.setWidth 32)
    rw [writeWindow_of_cmd hr, hu]
    exact ⟨_, rfl⟩
  | status => exact ⟨_, writeWindow_of_ignored (.inl hr)⟩
  | reserved => exact ⟨_, writeWindow_of_ignored (.inr hr)⟩
  | data r => exact ⟨_, writeWindow_of_data (by rw [hr]; rfl)⟩

/-- So does a legal read. -/
theorem exists_readWindow_next {s : State} (h : s.onUnwritten = .hold ∨ AllWritten s.block) (host : Nat) {o n : Nat}
    (hl : legal o n = true) : ∃ t, readWindow host o n s = .next t := by
  rw [readWindow_eq, if_pos (usable_iff.mpr (h.imp_right fun hw => hw.readWritten hl))]
  exact ⟨_, rfl⟩

/-- Progress: an allowed arrival ends no run where no use of a byte does (R55, R203). -/
theorem exists_step_next {s : State} (ha : AllAllowed s) (h : s.onUnwritten = .hold ∨ AllWritten s.block) :
    ∃ t, step s = .next t := by
  cases hi : s.inbox with
  | nil => exact ⟨_, step_of_idle hi⟩
  | cons e rest =>
    have he : e.allowed s.params.base = true := ha e (by simp [hi])
    cases e with
    | reset => exact ⟨_, step_of_reset hi⟩
    | access host a =>
      cases hw : inWindow s.params.base a.addr with
      | false => exact ⟨_, step_of_outside hi hw⟩
      | true =>
        have hl : legal (a.addr - s.params.base) a.width = true := by simpa [Event.allowed, hw] using he
        cases a with
        | read addr n =>
          rw [step_of_read hi hw hl]
          exact exists_readWindow_next (s := { s with inbox := rest }) h host hl
        | write addr n v =>
          rw [step_of_write hi hw hl]
          exact exists_writeWindow_next (s := { s with inbox := rest }) h ..

/-- A step leaves fewer arrivals, of the same window. -/
theorem AllAllowed.of_step {s t : State} (ha : AllAllowed s) (h : step s = .next t) : AllAllowed t := by
  obtain ⟨hparams, -, hinbox⟩ := step_frame h
  intro e he
  rw [hinbox] at he
  rw [hparams]
  exact ha e (List.mem_of_mem_tail he)

theorem FaultFree.of_step {s t : State} (hf : FaultFree s) (h : step s = .next t) : FaultFree t where
  allowed := hf.allowed.of_step h
  written := hf.written.mono (step_keepsMarks h hf.noReset)
  noReset := by
    obtain ⟨-, -, hinbox⟩ := step_frame h
    rw [hinbox]
    exact fun hmem => hf.noReset (List.mem_of_mem_tail hmem)
  unfaulted := (step_modelFault_of_allWritten h hf.written).trans hf.unfaulted

/-- Where every state with a property has a next one with it, every run from such a state goes on and keeps it. -/
theorem exists_run_next {P : State → Prop} (hP : ∀ s, P s → ∃ t, step s = .next t ∧ P t) :
    ∀ k s, P s → ∃ t, Sys2Proof.core.run k s = .next t ∧ P t := by
  intro k
  induction k with
  | zero => exact fun s hs => ⟨s, rfl, hs⟩
  | succ k ih =>
    intro s hs
    obtain ⟨u, hu, hPu⟩ := hP s hs
    obtain ⟨t, ht, hPt⟩ := ih u hPu
    exact ⟨t, run_succ_eq_next_iff.mpr ⟨u, hu, ht⟩, hPt⟩

/-- Under `hold`, every run of allowed arrivals goes on. -/
theorem runsOn_of_hold {s : State} (ha : AllAllowed s) (hs : s.onUnwritten = .hold) (k : Nat) : RunsOn k s := by
  have hstep : ∀ s : State, AllAllowed s ∧ s.onUnwritten = .hold →
      ∃ t, step s = .next t ∧ AllAllowed t ∧ t.onUnwritten = .hold := by
    rintro s ⟨ha, hs⟩
    obtain ⟨t, ht⟩ := exists_step_next ha (.inl hs)
    obtain ⟨-, hon, -⟩ := step_frame ht
    exact ⟨t, ht, ha.of_step ht, hon.trans hs⟩
  obtain ⟨t, ht, -⟩ := exists_run_next hstep k s ⟨ha, hs⟩
  exact ⟨t, ht⟩

/-- From a fault-free state every run goes on without a model fault. -/
theorem FaultFree.succeedsIn {s : State} (hf : FaultFree s) (k : Nat) : SucceedsIn k s := by
  have hstep : ∀ s : State, FaultFree s → ∃ t, step s = .next t ∧ FaultFree t := by
    intro s hf
    obtain ⟨t, ht⟩ := exists_step_next hf.allowed (.inr hf.written)
    exact ⟨t, ht, hf.of_step ht⟩
  obtain ⟨t, ht, hft⟩ := exists_run_next hstep k s hf
  exact ⟨t, ht, hft.unfaulted⟩

/-- Settles O20: progress (`exists_step_next`) with what each step keeps, under `hold` and in a fault-free state. -/
theorem legalAccessesNeverStop : Obligations.LegalAccessesNeverStop := fun _ ha =>
  ⟨runsOn_of_hold ha, fun hwritten hreset hfault => FaultFree.succeedsIn ⟨ha, hwritten, hreset, hfault⟩⟩

end Sys2Proof.Machine

/-! What a step takes and gives (spec/20_memory.md R59, R60, R63), and the arrivals that end a run or do not reach the
block (R51, R56). -/

namespace Sys2Proof.Machine

open Sys2Proof

/-- Settles O9: of the kinds of access, only a CMD write can change CMD or STATUS, and beside it only a write of data
changes the block. -/
theorem onlyCmdWritesExecute : Obligations.OnlyCmdWritesExecute := by
  intro s t host a rest hi hne h
  cases stepDoes_of_next h with
  | idle hi' | reset hi' => cases hi.symm.trans hi'
  | outside | ignored => exact ⟨rfl, rfl, fun _ _ _ => rfl⟩
  | read => simp
  | command hi' =>
    cases hi.symm.trans hi'
    exact absurd rfl (hne _)
  | store hi' =>
    cases hi.symm.trans hi'
    exact ⟨storeBytes_cmd .., storeBytes_status .., fun _ _ hread => by cases hread⟩

/-- An access adds one answer, for its own host. -/
theorem step_replies_of_access {s t : State} (h : step s = .next t) {host : Nat} {a : Access} {rest : List Event}
    (hi : s.inbox = .access host a :: rest) : ∃ x, t.replies = ⟨host, x⟩ :: s.replies := by
  cases stepDoes_of_next h with
  | idle hi' | reset hi' => cases hi.symm.trans hi'
  | outside hi' | ignored hi' | store hi' =>
    cases hi.symm.trans hi'
    exact ⟨_, rfl⟩
  | read hi' =>
    cases hi.symm.trans hi'
    exact ⟨_, congrArg (_ :: ·) (State.noting_replies ..)⟩
  | command hi' hu =>
    cases hi.symm.trans hi'
    obtain ⟨heq, -⟩ := issue_next hu
    rw [heq]
    exact ⟨.written, rfl⟩

/-- With no access, none is added. -/
theorem step_replies_of_no_access {s t : State} (h : step s = .next t)
    (hi : ∀ host a rest, s.inbox ≠ .access host a :: rest) : t.replies = s.replies := by
  cases stepDoes_of_next h with
  | idle | reset => rfl
  | outside hi' | read hi' | command hi' | ignored hi' | store hi' => exact absurd hi' (hi _ _ _)

/-- Settles O10: the frame of every step, and its answer. -/
theorem stepTakesOneArrival : Obligations.StepTakesOneArrival := by
  intro s t h
  obtain ⟨hparams, hon, hinbox⟩ := step_frame h
  exact ⟨hparams, hon, hinbox, fun _ _ _ => step_replies_of_access h, step_replies_of_no_access h⟩

/-- A run ends in the first fault. -/
theorem run_succ_of_fault {s : State} {f : Fault} (h : step s = .fault f) (k : Nat) :
    Sys2Proof.core.run (k + 1) s = .fault f := by
  have hstep : Sys2Proof.core.step s = .fault f := h
  simp only [Host.Core.run, hstep]

/-- Settles O14: the step is a bus error, and no run goes on after it. -/
theorem illegalAccessIsBusError : Obligations.IllegalAccessIsBusError := by
  intro s host a rest hi hlo hhi hl
  have hstep := step_of_illegal hi (inWindow_iff.mpr ⟨hlo, hhi⟩) hl
  exact ⟨hstep, run_succ_of_fault hstep⟩

/-- Settles O15: outside the window the step adds an answer and nothing else. -/
theorem outsideAccessDoesNotReachTheBlock : Obligations.OutsideAccessDoesNotReachTheBlock := by
  intro s host a rest hi hout
  exact ⟨_, step_of_outside hi (inWindow_eq_false_iff.mpr hout), rfl, rfl, rfl, rfl⟩

end Sys2Proof.Machine

/-! Host accesses: which are legal (spec/20_memory.md R55), the order of the window's bytes (R52, R53), what a legal read
answers (R57) and what a legal write leaves (R54, R58). -/

namespace Sys2Proof.Machine

open Sys2Proof

/-- An access is legal where it lies inside some row, is aligned, and has a width that R55 allows there. -/
theorem legal_iff_exists_row {o n : Nat} (ho : o < 0x40) : legal o n = true ↔
    ∃ row : Row, row.first ≤ o ∧ o + n ≤ row.first + row.bytes ∧ n ∣ o ∧ (n = 1 ∨ n = 2 ∨ n = 4 ∨ n = 8) ∧
      (row = .cmd → n = 4) := by
  have hlegal : legal o n = true ↔ (n = 1 ∨ n = 2 ∨ n = 4 ∨ n = 8) ∧ n ∣ o ∧
      o + n ≤ (rowOf o).first + (rowOf o).bytes ∧ (rowOf o = .cmd → n = 4) := by
    simp only [legal, Bool.and_eq_true, Bool.or_eq_true, decide_eq_true_eq, and_assoc, Nat.dvd_iff_mod_eq_zero, ne_eq,
      imp_iff_not_or]
  rw [hlegal]
  constructor
  · rintro ⟨hn, hdvd, hend, hcmd⟩
    exact ⟨rowOf o, first_le_rowOf o, hend, hdvd, hn, hcmd⟩
  · rintro ⟨row, hfirst, hend, hdvd, hn, hcmd⟩
    obtain rfl : rowOf o = row := (rowOf_eq_iff ho row).mpr ⟨hfirst, by omega⟩
    exact ⟨hn, hdvd, hend, hcmd⟩

/-- The nine rows of R55's table. -/
theorem exists_row_iff {P : Row → Prop} : (∃ row, P row) ↔
    P .cmd ∨ P .status ∨ P (.data .lat) ∨ P (.data .lng) ∨ P (.data .latFrac) ∨ P (.data .lngFrac) ∨ P (.data .key) ∨
      P (.data .hash) ∨ P .reserved := by
  constructor
  · rintro ⟨_ | _ | (_ | _ | _ | _ | _ | _) | _, h⟩ <;> simp [h]
  · rintro (h | h | h | h | h | h | h | h | h) <;> exact ⟨_, h⟩

/-- Settles O13: row by row, which widths fit between its ends. -/
theorem legalAccessTable : Obligations.LegalAccessTable := by
  intro o n ho
  rw [legal_iff_exists_row ho, exists_row_iff]
  simp only [Row.first, Row.bytes, DataReg.offset, DataReg.bytes, reduceCtorEq, false_implies, and_true, forall_const]
  refine or_congr ?cmd (or_congr ?status (or_congr Iff.rfl (or_congr Iff.rfl (or_congr ?latFrac (or_congr ?lngFrac
    (or_congr Iff.rfl (or_congr ?hash ?reserved)))))))
  case cmd =>
    constructor
    · rintro ⟨-, hend, -, -, rfl⟩
      omega
    · rintro ⟨rfl, rfl⟩
      decide
  case status | latFrac | lngFrac =>
    exact and_congr_right fun hlo => and_congr_right fun hend => and_congr_right fun _ => by omega
  case hash | reserved =>
    refine and_congr_right fun hlo => and_congr_right fun hend => and_congr_right fun hdvd => ?_
    constructor
    · rintro (rfl | rfl | rfl | rfl) <;> omega
    · omega
theorem windowByte_of_cmd {b : Block} {o : Nat} (h : rowOf o = .cmd) : b.windowByte o = byteOf b.cmd o := by
  simp [Block.windowByte, h]

theorem windowByte_of_status {b : Block} {o : Nat} (h : rowOf o = .status) :
    b.windowByte o = byteOf b.status (o - 0x04) := by
  simp [Block.windowByte, h]

/-- Byte `k` of a data register stands at its offset + k (R52, R53). -/
theorem windowByte_dataReg (b : Block) (r : DataReg) {k : Nat} (hk : k < r.bytes) :
    b.windowByte (r.offset + k) = b.regByte r k := by
  have hrow : rowOf (r.offset + k) = .data r := rowOf_data_iff.mpr ⟨by omega, by omega⟩
  rw [windowByte_of_data hrow, Nat.add_sub_cancel_left]

/-- Character `j` stands at 0x28 + j (R53). -/
theorem windowByte_hash (b : Block) {j : Nat} (hj : j < 12) : b.windowByte (0x28 + j) = b.hash[j] := by
  have h : b.windowByte (0x28 + j) = b.hash[j]?.getD 0 := windowByte_dataReg b .hash hj
  simpa [hj] using h

section
variable {m : Nat} (x : BitVec m) (y : Byte)

/-- The bytes of a value built from bytes, the last appended lowest. -/
theorem byteOf_append_zero : byteOf (x ++ y) 0 = y := by
  apply BitVec.eq_of_getLsbD_eq
  intro i hi
  rw [byteOf_getLsbD, BitVec.getLsbD_append]
  simp [hi]

theorem byteOf_append_succ (k : Nat) : byteOf (x ++ y) (k + 1) = byteOf x k := by
  apply BitVec.eq_of_getLsbD_eq
  intro i hi
  have hge : ¬ 8 * (k + 1) + i < 8 := by omega
  have hsub : 8 * (k + 1) + i - 8 = 8 * k + i := by omega
  simp [byteOf_getLsbD, BitVec.getLsbD_append, hge, hsub]

theorem byteOf_byte_zero : byteOf y 0 = y := by
  simp [byteOf]

theorem byteOf_byte_succ (k : Nat) : byteOf y (k + 1) = 0 := by
  apply BitVec.eq_of_getLsbD_eq
  intro i hi
  simp [byteOf_getLsbD, BitVec.getLsbD_of_ge y (8 * (k + 1) + i) (by omega)]

/-- Widening a value to 64 bits keeps its bytes. -/
theorem byteOf_setWidth {k : Nat} (hk : k < 8) : byteOf (x.setWidth 64) k = byteOf x k := by
  apply BitVec.eq_of_getLsbD_eq
  intro i hi
  have hlt : 8 * k + i < 64 := by omega
  simp [byteOf_getLsbD, hlt]

end

/-- A read of HASH from its first character on gives the characters, character 0 lowest (R53). -/
theorem byteOf_loadBytes_hash (b : Block) {n k : Nat} (hn : n ≤ 8) (hk : k < 8) :
    byteOf (b.loadBytes 0x28 n) k = if k < n then b.hash[k] else 0 := by
  rw [byteOf_loadBytes b 0x28 n k hn hk, windowByte_hash b (by omega)]

theorem loadBytes_hash_four (b : Block) :
    b.loadBytes 0x28 4 = (b.hash[3] ++ b.hash[2] ++ b.hash[1] ++ b.hash[0]).setWidth 64 := by
  apply eq_of_byteOf_eq (n := 8) rfl
  intro k hk
  rw [byteOf_loadBytes_hash b (by omega) hk, byteOf_setWidth _ hk]
  interval_cases k <;> simp [byteOf_append_zero, byteOf_append_succ, byteOf_byte_zero, byteOf_byte_succ]

theorem loadBytes_hash_eight (b : Block) :
    b.loadBytes 0x28 8 =
      b.hash[7] ++ b.hash[6] ++ b.hash[5] ++ b.hash[4] ++ b.hash[3] ++ b.hash[2] ++ b.hash[1] ++ b.hash[0] := by
  apply eq_of_byteOf_eq (n := 8) rfl
  intro k hk
  rw [byteOf_loadBytes_hash b (by omega) hk]
  interval_cases k <;> simp [byteOf_append_zero, byteOf_append_succ, byteOf_byte_zero]

/-- Settles O16: each row by the register it holds, and the two reads of HASH byte by byte. -/
theorem windowIsLittleEndian : Obligations.WindowIsLittleEndian := by
  intro b
  refine ⟨?cmd, ?status, fun k => windowByte_dataReg b .lat, fun k => windowByte_dataReg b .lng,
    fun k => windowByte_dataReg b .latFrac, fun k => windowByte_dataReg b .lngFrac, fun k => windowByte_dataReg b .key,
    fun j => windowByte_hash b, ?reserved, loadBytes_hash_four b, loadBytes_hash_eight b⟩
  case cmd =>
    intro k hk
    have hrow : rowOf (0x00 + k) = .cmd :=
      (rowOf_eq_iff (by omega) .cmd).mpr ⟨Nat.zero_le _, Nat.add_lt_add_left hk 0⟩
    rw [windowByte_of_cmd hrow, Nat.zero_add]
    rfl
  case status =>
    intro k hk
    have hrow : rowOf (0x04 + k) = .status :=
      (rowOf_eq_iff (by omega) .status).mpr ⟨Nat.le_add_right _ _, Nat.add_lt_add_left hk 4⟩
    rw [windowByte_of_status hrow, Nat.add_sub_cancel_left]
    rfl
  case reserved =>
    intro o ho hlo
    exact windowByte_of_reserved ((rowOf_eq_iff ho .reserved).mpr ⟨hlo, ho⟩)

/-- A read of `n` bytes is zero above them (R57). -/
theorem loadBytes_lt (b : Block) (o n : Nat) : (b.loadBytes o n).toNat < 2 ^ (8 * n) := by
  induction n with
  | zero => simp [Block.loadBytes]
  | succ n ih =>
    have hbyte := (b.windowByte (o + n)).isLt
    have hshift : (BitVec.setWidth 64 (b.windowByte (o + n)) <<< (8 * n)).toNat < 2 ^ (8 * (n + 1)) := by
      rw [BitVec.toNat_shiftLeft, Nat.shiftLeft_eq, BitVec.toNat_setWidth_of_le (by omega)]
      calc (b.windowByte (o + n)).toNat * 2 ^ (8 * n) % 2 ^ 64
          ≤ (b.windowByte (o + n)).toNat * 2 ^ (8 * n) := Nat.mod_le _ _
        _ < 2 ^ 8 * 2 ^ (8 * n) := Nat.mul_lt_mul_of_pos_right hbyte (Nat.two_pow_pos _)
        _ = 2 ^ (8 * (n + 1)) := by rw [← Nat.pow_add]; congr 1; omega
    rw [Block.loadBytes, BitVec.toNat_or]
    exact Nat.or_lt_two_pow (ih.trans_le (Nat.pow_le_pow_right (by omega) (by omega))) hshift

/-- What a read of `n` bytes at offset `o` that goes on leaves, with the arrivals `rest` after it. -/
def State.afterRead (s : State) (rest : List Event) (host o n : Nat) : State :=
  { s with
    inbox := rest
    modelFault := (s.noting (readWritten s.block o n) (.unwrittenRead host)).modelFault }.reply host
      (.data n (s.block.loadBytes o n))

/-- What noting a fault changes, with the oldest arrival taken. -/
theorem State.noting_with_inbox (s : State) (rest : List Event) (w : Bool) (f : Fault) :
    { s with inbox := rest }.noting w f = { s with inbox := rest, modelFault := (s.noting w f).modelFault } := by
  cases w <;> rfl

/-- A read that goes on (R57). -/
theorem step_of_usable_read {s : State} {host addr n : Nat} {rest : List Event}
    (hi : s.inbox = .access host (.read addr n) :: rest) (hw : inWindow s.params.base addr = true)
    (hl : legal (addr - s.params.base) n = true)
    (hu : s.usable (readWritten s.block (addr - s.params.base) n) = true) :
    step s = .next (s.afterRead rest host (addr - s.params.base) n) := by
  rw [step_of_read hi hw hl, readWindow_eq, State.noting_with_inbox]
  exact if_pos hu

/-- A use of the same bytes again records nothing new: the first fault to arise is kept (R203). -/
theorem State.noting_modelFault_again {s t : State} {w : Bool} {f : Fault} (h : t.modelFault = (s.noting w f).modelFault)
    (g : Fault) : (t.noting w g).modelFault = t.modelFault := by
  cases w with
  | true => rfl
  | false => simp [h]

/-- So the same read again takes its arrival and adds its answer, the same one (R57). -/
theorem State.afterRead_afterRead (s : State) (rest rest' : List Event) (host host' o n : Nat) :
    (s.afterRead rest host o n).afterRead rest' host' o n =
      { s.afterRead rest host o n with inbox := rest' }.reply host' (.data n (s.block.loadBytes o n)) :=
  congrArg
    (fun m => { s.afterRead rest host o n with inbox := rest', modelFault := m }.reply host'
      (.data n (s.block.loadBytes o n)))
    (State.noting_modelFault_again (s := s) (t := s.afterRead rest host o n) (w := readWritten s.block o n) rfl _)

/-- Settles O17: an unwritten byte makes the read unusable under `stop`, and is noted under `hold`; the bytes are those of
`loadBytes`. -/
theorem readAnswersItsBytes : Obligations.ReadAnswersItsBytes := by
  intro s host addr n rest hi hlo hhi hl
  have hw := inWindow_iff.mpr ⟨hlo, hhi⟩
  simp only [← readWritten_eq_false_iff, ← usable_eq_false_iff, Bool.not_eq_false]
  constructor
  · intro hu
    rw [step_of_read hi hw hl, readWindow_eq]
    exact if_neg (ne_true_of_eq_false hu)
  · intro hu
    refine ⟨_, _, step_of_usable_read hi hw hl hu, ?unwritten, ?written, ?bytes, loadBytes_lt .., ?again⟩
    case unwritten => intro h; rw [h]; rfl
    case written => intro h; rw [h]; rfl
    case bytes =>
      intro k hk
      have hn := (legal_bounds hl).2.1
      rw [byteOf_loadBytes _ _ _ _ hn (by omega), if_pos hk]
    case again =>
      intro host' rest' hrest
      have hfirst := step_of_usable_read hi hw hl hu
      have hsecond := step_of_usable_read (s := s.afterRead rest host (addr - s.params.base) n) hrest hw hl hu
      refine run_succ_eq_next_iff.mpr ⟨_, hfirst, run_succ_eq_next_iff.mpr ⟨_, hsecond, ?_⟩⟩
      exact congrArg Host.Outcome.next (s.afterRead_afterRead rest rest' host host' (addr - s.params.base) n)

/-- A legal write to a data register ends inside it (R55), before offset 0x34. -/
theorem end_le_of_legal_data {o n : Nat} (hl : legal o n = true) (hd : (rowOf o).isData = true) : o + n ≤ 0x34 := by
  have hn := (legal_bounds hl).1
  have hlast := lt_of_isData (o := o + (n - 1)) (by rwa [rowOf_of_legal hl _ (by omega)])
  omega

/-- The offsets that a legal write to a data register names are all of that register (R55). -/
theorem isData_of_legal {o n x : Nat} (hl : legal o n = true) (hd : (rowOf o).isData = true) (hx : o ≤ x ∧ x < o + n) :
    (rowOf x).isData = true := by
  have hrow := rowOf_of_legal hl (x - o) (by omega)
  rw [Nat.add_sub_cancel' hx.1] at hrow
  rwa [hrow]

/-- What a legal write to a data register leaves at every offset (R54, R58). -/
theorem windowByte_storeBytes_of_legal {o n : Nat} (hl : legal o n = true) (hd : (rowOf o).isData = true) (b : Block)
    (v : DWord) (x : Nat) :
    (b.storeBytes o v n).windowByte x = if o ≤ x ∧ x < o + n then byteOf v (x - o) else b.windowByte x := by
  rw [windowByte_storeBytes]
  exact if_congr ⟨fun ⟨h1, h2, _⟩ => ⟨h1, h2⟩, fun hx => ⟨hx.1, hx.2, isData_of_legal hl hd hx⟩⟩ rfl rfl

theorem markAt_storeBytes_of_legal {o n : Nat} (hl : legal o n = true) (hd : (rowOf o).isData = true) (b : Block)
    (v : DWord) (x : Nat) :
    (b.storeBytes o v n).markAt x = (b.markAt x || decide (o ≤ x ∧ x < o + n)) := by
  rcases Nat.lt_or_ge x 0x34 with hx | hx
  · rw [markAt_storeBytes b o v x hx]
    congr 1
    exact decide_eq_decide.mpr ⟨fun ⟨h1, h2, _⟩ => ⟨h1, h2⟩, fun h => ⟨h.1, h.2, isData_of_legal hl hd h⟩⟩
  · have hend := end_le_of_legal_data hl hd
    have hout : ¬ (o ≤ x ∧ x < o + n) := by omega
    rw [markAt_of_ge hx, markAt_of_ge hx, decide_eq_false hout, Bool.or_false]

/-- Settles O18, by the kind of row: stored, ignored, or executed. -/
theorem writeReplacesItsBytes : Obligations.WriteReplacesItsBytes := by
  intro s host addr n v rest hi hlo hhi hl
  rw [step_of_write hi (inWindow_iff.mpr ⟨hlo, hhi⟩) hl]
  refine ⟨fun hd => ?data, writeWindow_of_ignored, writeWindow_of_cmd⟩
  case data =>
    exact ⟨_, writeWindow_of_data hd, storeBytes_cmd .., storeBytes_status .., fun x _ =>
      ⟨windowByte_storeBytes_of_legal hl hd s.block v x, markAt_storeBytes_of_legal hl hd s.block v x⟩⟩

end Sys2Proof.Machine

/-! Repeating a command (spec/20_memory.md R59): no command reads a register it writes (spec/10_state.md R36), so a repeat
sees the same operands and leaves the same block. -/

namespace Sys2Proof.Machine

open Sys2Proof

/-- No command reads a register it writes (R36). -/
theorem not_mem_writes_of_mem_reads {i : Instr} {r : DataReg} (h : r ∈ reads i) : r ∉ writes i := by
  revert h
  cases i <;> cases r <;> decide

/-- Two blocks are the same where CMD, STATUS, every data register and the marks are. -/
theorem Block.eq_of_sameReg {b c : Block} (hcmd : b.cmd = c.cmd) (hstatus : b.status = c.status)
    (hregs : ∀ r, SameReg r b c) (hmarks : b.marks = c.marks) : b = c := by
  have hlat := sameReg_lat.mp (hregs .lat)
  have hlng := sameReg_lng.mp (hregs .lng)
  have hlatFrac := sameReg_latFrac.mp (hregs .latFrac)
  have hlngFrac := sameReg_lngFrac.mp (hregs .lngFrac)
  have hkey := sameReg_key.mp (hregs .key)
  have hhash := sameReg_hash.mp (hregs .hash)
  cases b
  cases c
  simp_all

/-- Marks are set in any order, those of whole registers too. -/
theorem markRegs_setMarks (rs : List DataReg) (o n : Nat) :
    ∀ m, markRegs rs (setMarks m o n) = setMarks (markRegs rs m) o n := by
  induction rs with
  | nil => exact fun _ => rfl
  | cons r rs ih => intro m; rw [markRegs_cons, markRegs_cons, setMarks_comm, ih]

/-- Marking the same registers twice is marking them once. -/
theorem markRegs_markRegs (rs : List DataReg) : ∀ m, markRegs rs (markRegs rs m) = markRegs rs m := by
  induction rs with
  | nil => exact fun _ => rfl
  | cons r rs ih => intro m; rw [markRegs_cons, markRegs_cons, ← markRegs_setMarks, setMarks_setMarks_self, ih]

/-- A command leaves its operands as they are (R36). -/
theorem effect_sameReg_of_reads (arith : Config.MapArith) (i : Instr) (b : Block) :
    ∀ r ∈ reads i, SameReg r (effect arith i b) b := by
  intro r hr k _
  obtain ⟨rs, hsub, hw⟩ := writesRegs_effect arith i b
  exact hw.others r (fun hmem => not_mem_writes_of_mem_reads hr (hsub hmem)) k

/-- So its checks find the same error in a repeat. -/
theorem checkError_effect (arith : Config.MapArith) (i : Instr) (b : Block) :
    checkError i (effect arith i b) = checkError i b :=
  checkError_congr (effect_sameReg_of_reads arith i b)

theorem raise_raise (b : Block) (e : CommandError) : (b.raise e).raise e = b.raise e := by
  cases e <;> rfl

/-- The effect of a command that is repeated (R59). -/
theorem effect_effect (arith : Config.MapArith) (i : Instr) (b : Block) :
    effect arith i (effect arith i b) = effect arith i b := by
  cases h : checkError i b with
  | some e =>
    have h' : checkError i (effect arith i b) = some e := (checkError_effect arith i b).trans h
    rw [effect_of_checkError_some h', effect_of_checkError_some h, raise_raise]
  | none =>
    have h' : checkError i (effect arith i b) = none := (checkError_effect arith i b).trans h
    have hw := writesRegs_effect_of_success h arith
    have hw' := writesRegs_effect_of_success h' arith
    apply Block.eq_of_sameReg
    case hcmd => exact hw'.cmd
    case hstatus => rw [effect_status, effect_status, h, h', hw.cmd]
    case hmarks => rw [hw'.marks, hw.marks, markRegs_markRegs]
    case hregs =>
      intro r
      by_cases hr : r ∈ writes i
      · have hres := results_congr arith (effect_sameReg_of_reads arith i b) r hr
        rw [effect_of_checkError_none h']
        nth_rw 2 [effect_of_checkError_none h]
        exact sameReg_ok.mpr hres
      · exact fun k _ => hw'.others r hr k

theorem OperandsWritten.mono {i : Instr} {b c : Block} (h : OperandsWritten i b) (hk : KeepsMarks b c) :
    OperandsWritten i c := by
  rw [operandsWritten_iff_markAt] at h ⊢
  exact fun r hr k hlt => hk _ (h r hr k hlt)

theorem keepsMarks_effect (arith : Config.MapArith) (i : Instr) (b : Block) : KeepsMarks b (effect arith i b) := by
  obtain ⟨rs, -, hw⟩ := writesRegs_effect arith i b
  exact hw.keepsMarks

/-- A command that goes on goes on again, and changes nothing: an unwritten operand is recorded already. -/
theorem exec_again {i : Instr} {s t : State} (h : exec i s = .next t) : exec i t = .next t := by
  have hblock : t.block = effect s.params.mapArith i s.block := exec_next_block h
  have hparams : t.params = s.params := by rw [exec_next h]
  have hon : t.onUnwritten = s.onUnwritten := by rw [exec_next h]
  have hmarks : KeepsMarks s.block t.block := hblock ▸ keepsMarks_effect _ i s.block
  have hready : Ready i t := (exec_eq_next_iff.mp h).1.imp hon.trans (·.mono hmarks)
  obtain ⟨u, hu⟩ : ∃ u, exec i t = .next u := ⟨_, exec_eq_next_iff.mpr ⟨hready, rfl⟩⟩
  have hfault : u.modelFault = t.modelFault := by
    by_cases hw : OperandsWritten i t.block
    · exact exec_modelFault_of_written hu hw
    · have hws : ¬ OperandsWritten i s.block := fun hws => hw (hws.mono hmarks)
      rw [exec_modelFault_of_not_written hu hw, exec_modelFault_of_not_written h hws, Option.or_assoc, Option.or_self]
  have heffect : effect t.params.mapArith i t.block = t.block := by rw [hparams, hblock, effect_effect]
  rw [hu, exec_next hu, hfault, heffect]

/-- Settles O29: CMD holds the word already, and the command repeats its effect (`exec_again`). -/
theorem repeatedCommandChangesNothing : Obligations.RepeatedCommandChangesNothing := by
  intro w s t h
  obtain ⟨-, hcmd, -, -⟩ := issue_next h
  have hstore : t.storeCmd w = t := by rw [← hcmd]; rfl
  rw [issue, hstore]
  cases hdec : decode w with
  | command i =>
    rw [issue, execute_of_command hdec] at h
    rw [execute_of_command hdec]
    exact exec_again h
  | illegal why =>
    rw [issue, execute_of_illegal hdec] at h
    rw [execute_of_illegal hdec]
    cases h
    rfl

end Sys2Proof.Machine

/-! The encoding (spec/30_encoding.md R80 to R85): the bytes of a CMD write and its word are two views of one number, so the
decoder on bytes accepts what the decoder on words does. -/

namespace Sys2Proof

/-- Four bytes are those of the word they make (spec/20_memory.md R52). -/
theorem ofNat_leNat_eq_iff {bs : List Byte} (hlen : bs.length = 4) {w : Word} :
    BitVec.ofNat 32 (leNat bs) = w ↔ bs = leBytes 4 w.toNat := by
  constructor
  · rintro rfl
    have hlt : leNat bs < 2 ^ 32 := by simpa [hlen] using leNat_lt bs
    rw [BitVec.toNat_ofNat, Nat.mod_eq_of_lt hlt, ← hlen, leBytes_leNat]
  · rintro rfl
    rw [leNat_leBytes, Nat.mod_eq_of_lt (by simpa using w.isLt), BitVec.ofNat_toNat, BitVec.setWidth_eq]

/-- A decoder always takes exactly one word (R81), and there the bytes decode as the word does. -/
theorem decodeBytes_eq_command_iff {bs : List Byte} {i : Instr} :
    decodeBytes bs = .command i ↔ bs = encodeBytes i := by
  by_cases hlen : bs.length = 4
  · rw [decodeBytes, if_pos hlen, decode_eq_command_iff, ofNat_leNat_eq_iff hlen, encodeBytes]
  · rw [decodeBytes, if_neg hlen]
    constructor
    · intro h
      cases h
    · rintro rfl
      exact absurd (leBytes_length 4 _) hlen

theorem decodeTableWord_encode (i : Instr) : decodeTableWord 32 (encode i).toNat = some i := by
  have hbytes : decodeBytes (leBytes 4 (encode i).toNat) = .command i := decodeBytes_eq_command_iff.mpr rfl
  rw [decodeTableWord, if_pos ⟨le_rfl, (encode i).isLt⟩, hbytes]

/-- The legal words are those that select a command (R84, R85). -/
theorem wellFormedWord_iff_exists_decode {w : Word} : wellFormedWord w = true ↔ ∃ i, decode w = .command i := by
  cases h : decode w with
  | command i =>
    obtain rfl := decode_eq_command_iff.mp h
    simp [wellFormedWord_encode]
  | illegal why => simp [wellFormedWord_of_illegal h]

theorem exists_decode_illegal {w : Word} (hw : wellFormedWord w = false) : ∃ why, decode w = .illegal why := by
  cases h : decode w with
  | command i => simp [wellFormedWord_iff_exists_decode.mpr ⟨i, h⟩] at hw
  | illegal why => exact ⟨why, rfl⟩

theorem opcodeField_eq_setWidth (w : Word) : opcodeField w = w.setWidth 8 :=
  (BitVec.setWidth_eq_extractLsb' (by decide)).symm

/-- Settles O4: both decoders invert the encoder. -/
theorem encodeDecodeRoundTrip : Obligations.EncodeDecodeRoundTrip := fun i =>
  ⟨decodeBytes_eq_command_iff.mpr rfl, decode_eq_command_iff.mpr rfl, decodeTableWord_encode i, wellFormedWord_encode i⟩

/-- Settles O5: only a command's encoding decodes to it. -/
theorem decodeAcceptsOnlyEncodings : Obligations.DecodeAcceptsOnlyEncodings :=
  ⟨fun _ _ => decodeBytes_eq_command_iff, fun _ _ => decode_eq_command_iff, fun _ => wellFormedWord_iff_exists_decode⟩

end Sys2Proof

/-! What an illegal command word does (spec/30_encoding.md R84, R85), and how a CMD write comes to run a command (R82). -/

namespace Sys2Proof.Machine

open Sys2Proof

/-- A word that selects no command is stored, reports ILLEGAL_COMMAND and does nothing else. -/
theorem exists_issue_of_not_wellFormed {w : Word} (hw : wellFormedWord w = false) (s : State) :
    ∃ t, issue w s = .next t ∧ t.block.cmd = w ∧ t.block.status = statusWord (w.setWidth 8) 3 0 0 0 ∧
      OnlyChanges [] (s.storeCmd w) t := by
  obtain ⟨why, hdec⟩ := exists_decode_illegal hw
  refine ⟨_, execute_of_illegal hdec (s.storeCmd w), rfl, ?status, (writesRegs_raise _ _).onlyChanges⟩
  case status => rw [← opcodeField_eq_setWidth]; rfl

/-- Settles O6: a word with a reserved bit set is not well formed. -/
theorem reservedBitsAreIllegal : Obligations.ReservedBitsAreIllegal := by
  intro s w hrsvd
  have hw : wellFormedWord w = false := by
    rw [wellFormedWord, beq_eq_false_iff_ne.mpr hrsvd, Bool.false_and]
  obtain ⟨t, ht, hcmd, hstatus, hframe⟩ := exists_issue_of_not_wellFormed hw s
  exact ⟨t, ht, hcmd, by rw [hstatus, statusErr_statusWord], hstatus, hframe⟩

/-- Every word has one outcome (R85): that of the one command it selects, or ILLEGAL_COMMAND. -/
theorem execute_command_or_illegal (w : Word) :
    (∃! i, decode w = .command i ∧ ∀ s, execute w s = exec i s) ∨
      ∀ s, ∃ t, execute w s = .next t ∧ statusErr t.block.status = 3 := by
  cases hdec : decode w with
  | command i =>
    refine .inl ⟨i, ⟨rfl, execute_of_command hdec⟩, ?_⟩
    rintro j ⟨hj, -⟩
    cases hj
    rfl
  | illegal why => exact .inr fun s => ⟨_, execute_of_illegal hdec s, statusErr_statusWord ..⟩

/-- Settles O7: the table row by row, then the reserved OPCODEs, which are not well formed, then every word. -/
theorem opcodeMapIsTotal : Obligations.OpcodeMapIsTotal := by
  have hrow (i : Instr) : decode (encode i) = .command i := decode_eq_command_iff.mpr rfl
  refine ⟨hrow .nop, hrow .maplat, hrow .maplng, hrow .unmaplat, hrow .unmaplng, hrow .ilv, hrow .dilv, hrow .k2s,
    hrow .s2k, hrow .valid, hrow .enc, hrow .dec, ?reserved, execute_command_or_illegal⟩
  case reserved =>
    intro s w _ hop
    have hw : wellFormedWord w = false := by
      rw [← Bool.not_eq_true, wellFormedWord_iff_toNat_le]
      omega
    exact exists_issue_of_not_wellFormed hw s

/-- A CMD write is always legal (R55), and issues its word before it is answered (R82). -/
theorem step_of_cmd_write {s : State} {host : Nat} {v : DWord} {rest : List Event}
    (hi : s.inbox = .access host (.write s.params.base 4 v) :: rest) :
    step s = answering host .written (issue (v.setWidth 32) { s with inbox := rest }) := by
  have hw : inWindow s.params.base s.params.base = true := inWindow_iff.mpr ⟨le_rfl, by omega⟩
  have hl : legal (s.params.base - s.params.base) 4 = true := by rw [Nat.sub_self]; decide
  rw [step_of_write hi hw hl, Nat.sub_self]
  exact writeWindow_of_cmd rfl

/-- Where the word selects a command, that command runs. -/
theorem step_of_cmd_write_command {s : State} {host : Nat} {v : DWord} {rest : List Event} {i : Instr}
    (hi : s.inbox = .access host (.write s.params.base 4 v) :: rest) (hdec : decode (v.setWidth 32) = .command i) :
    step s = answering host .written (exec i ({ s with inbox := rest }.storeCmd (v.setWidth 32))) := by
  rw [step_of_cmd_write hi, issue, execute_of_command hdec]

/-- The command that `withFetchWord` places is the next to run, with every byte marked as written. -/
theorem step_withFetchWord (s : State) (i : Instr) :
    step (s.withFetchWord 32 (encode i).toNat) =
      answering 0 .written (exec i ({ s with block := s.block.allMarked }.storeCmd (encode i))) := by
  have hword : (BitVec.ofNat 64 ((encode i).toNat % 2 ^ 32 % 2 ^ 32)).setWidth 32 = encode i := by
    cases i <;> rfl
  have hdec := decode_eq_command_iff.mpr hword
  rw [step_of_cmd_write_command (s := s.withFetchWord 32 (encode i).toNat) rfl hdec, hword]
  rfl

/-- Settles O8: a CMD write issues its word, and `withFetchWord` places one whose operands are written. -/
theorem stepExecutesTheCmdWrite : Obligations.StepExecutesTheCmdWrite := by
  refine ⟨fun s host v rest hi => ⟨step_of_cmd_write hi, fun i => step_of_cmd_write_command hi⟩, fun s i => ?placed⟩
  case placed =>
    have hnext := exec_of_written (s := { s with block := s.block.allMarked }.storeCmd (encode i))
      (operandsWritten_allMarked i { s.block with cmd := encode i })
    exact ⟨step_withFetchWord s i, _, (step_withFetchWord s i).trans (congrArg _ hnext)⟩

end Sys2Proof.Machine

/-! The pseudo-instructions (spec/30_encoding.md R88): a host that stores every byte of a register leaves what a command's
write of that register does (spec/10_state.md R34, spec/20_memory.md R58). -/

namespace Sys2Proof.Machine

open Sys2Proof

/-- Mark `k` is that of offset 0x08 + k (R34). -/
theorem marks_getElem (b : Block) {k : Nat} (hk : k < 44) : b.marks[k] = b.markAt (8 + k) := by
  simp [Block.markAt, hk]

/-- A data register's offsets hold data. -/
theorem isData_dataReg {r : DataReg} {k : Nat} (hk : k < r.bytes) : (rowOf (r.offset + k)).isData = true := by
  rw [rowOf_data_iff.mpr ⟨Nat.le_add_right _ _, Nat.add_lt_add_left hk _⟩]
  rfl

/-- The data registers fill the offsets 0x08 to 0x33 (R21). -/
theorem isData_of_lt {o : Nat} (h8 : 8 ≤ o) (ho : o < 0x34) : (rowOf o).isData = true := by
  cases hr : rowOf o with
  | data r => rfl
  | cmd | status | reserved =>
    have hb := (rowOf_eq_iff (by omega) _).mp hr
    simp only [Row.first, Row.bytes] at hb
    omega

/-- Two blocks are the same where CMD, STATUS and every data byte, with its mark, are. -/
theorem Block.eq_of_sameByte {b c : Block} (hcmd : c.cmd = b.cmd) (hstatus : c.status = b.status)
    (hbytes : ∀ o, (rowOf o).isData = true → SameByte o b c) : c = b := by
  apply Block.eq_of_sameReg hcmd hstatus
  case hregs =>
    intro r k hk
    rw [← windowByte_dataReg c r hk, ← windowByte_dataReg b r hk]
    exact (hbytes _ (isData_dataReg hk)).1
  case hmarks =>
    ext k hk
    rw [marks_getElem c hk, marks_getElem b hk]
    exact (hbytes _ (isData_of_lt (by omega) (by omega))).2

theorem SameByte.symm {o : Nat} {b c : Block} (h : SameByte o b c) : SameByte o c b := ⟨h.1.symm, h.2.symm⟩

/-- Storing from offset `o` up what a read there answers in the block `c` makes the bytes those of `c`, if marked there. -/
theorem sameByte_storeBytes_loadBytes {c : Block} {o n x : Nat} (hn : n ≤ 8) (hx : o ≤ x ∧ x < o + n)
    (hd : (rowOf x).isData = true) (hm : c.markAt x = true) (b : Block) :
    SameByte x c (b.storeBytes o (c.loadBytes o n) n) := by
  constructor
  · rw [windowByte_storeBytes, if_pos ⟨hx.1, hx.2, hd⟩, byteOf_loadBytes _ _ _ _ hn (by omega), if_pos (by omega),
      Nat.add_sub_cancel' hx.1]
  · rw [markAt_storeBytes _ _ _ _ (lt_of_isData hd), decide_eq_true ⟨hx.1, hx.2, hd⟩, Bool.or_true, hm]

/-- A block that agrees with a write of the register `r` inside it, and with the block before elsewhere. -/
theorem WritesRegs.eq_of_sameByte {r : DataReg} {b c d : Block} (hw : WritesRegs [r] b c) (hcmd : d.cmd = b.cmd)
    (hstatus : d.status = c.status) (hin : ∀ o, rowOf o = .data r → SameByte o c d)
    (hout : ∀ o, (rowOf o).isData = true → rowOf o ≠ .data r → SameByte o b d) : d = c := by
  refine Block.eq_of_sameByte (hcmd.trans hw.cmd.symm) hstatus fun o hd => ?_
  by_cases ho : rowOf o = .data r
  · exact hin o ho
  · exact (hw.sameByte hd (by simpa using ho)).symm.trans (hout o hd ho)

/-- A write of a register marks its row. -/
theorem WritesRegs.markAt_of_row {r : DataReg} {b c : Block} (hw : WritesRegs [r] b c) {o : Nat}
    (ho : rowOf o = .data r) : c.markAt o = true :=
  (markAt_markRegs [r] hw.marks o).mpr (.inr ⟨r, List.mem_singleton_self r, ho⟩)

/-- A host's write of all the bytes of an 8-byte register is a command's write of it. -/
theorem WritesRegs.storeBytes_eq {r : DataReg} {b c : Block} {v : DWord} (hw : WritesRegs [r] b c)
    (hstatus : b.status = c.status) (hr : r.bytes = 8) (hv : ∀ k < 8, c.regByte r k = byteOf v k) :
    b.storeBytes r.offset v 8 = c := by
  have hload : c.loadBytes r.offset 8 = v := by
    apply eq_of_byteOf_eq (n := 8) rfl
    intro k hk
    rw [byteOf_loadBytes _ _ _ _ le_rfl hk, if_pos hk, windowByte_dataReg c r (by omega), hv k hk]
  have hrow (o : Nat) : rowOf o = .data r ↔ r.offset ≤ o ∧ o < r.offset + 8 := hr ▸ rowOf_data_iff
  rw [← hload]
  refine hw.eq_of_sameByte (storeBytes_cmd ..) ((storeBytes_status ..).trans hstatus) (fun o ho => ?inside)
    fun o hd ho => sameByte_storeBytes _ hd (mt (hrow o).mpr ho)
  case inside =>
    exact sameByte_storeBytes_loadBytes le_rfl ((hrow o).mp ho) (by rw [ho]; rfl) (hw.markAt_of_row ho) b

theorem storeBytes_lat (b : Block) (v : F64) : b.storeBytes DataReg.lat.offset v 8 = b.writeLat v :=
  (writesRegs_writeLat b v).storeBytes_eq rfl rfl fun _ _ => rfl

theorem storeBytes_lng (b : Block) (v : F64) : b.storeBytes DataReg.lng.offset v 8 = b.writeLng v :=
  (writesRegs_writeLng b v).storeBytes_eq rfl rfl fun _ _ => rfl

/-- The value that `sethash` writes at character `j` is what a read there answers once HASH holds the string (R53). -/
theorem charsValue_eq_loadBytes (b : Block) (str : Chars) (j : Nat) :
    ∀ n, j + n ≤ 12 → charsValue str j n = (b.writeHash str).loadBytes (DataReg.hash.offset + j) n := by
  intro n
  induction n with
  | zero => exact fun _ => rfl
  | succ n ih =>
    intro hn
    have hchar : (b.writeHash str).windowByte (DataReg.hash.offset + (j + n)) = str[j + n]?.getD 0 :=
      windowByte_dataReg _ .hash hn
    rw [charsValue, Block.loadBytes, ih (by omega), Nat.add_assoc, hchar]

/-- The two writes of `sethash` are a command's write of HASH: each of its bytes is stored by one of them (R88). -/
theorem storeBytes_hash (b : Block) (str : Chars) :
    (b.storeBytes 0x28 (charsValue str 0 8) 8).storeBytes 0x30 (charsValue str 8 4) 4 = b.writeHash str := by
  have hw := writesRegs_writeHash b str
  have hrow (o : Nat) : rowOf o = .data .hash ↔ 0x28 ≤ o ∧ o < 0x34 := rowOf_data_iff
  rw [charsValue_eq_loadBytes b str 0 8 (by omega), charsValue_eq_loadBytes b str 8 4 (by omega)]
  refine hw.eq_of_sameByte (by simp) (by simp) (fun o ho => ?inside) fun o hd ho => ?outside
  case inside =>
    have hd : (rowOf o).isData = true := by rw [ho]; rfl
    have hm := hw.markAt_of_row ho
    have hrange := (hrow o).mp ho
    by_cases hlow : o < 0x30
    · exact (sameByte_storeBytes_loadBytes (by omega) ⟨hrange.1, hlow⟩ hd hm b).trans
        (sameByte_storeBytes _ hd (by omega))
    · exact sameByte_storeBytes_loadBytes (by omega) ⟨by omega, hrange.2⟩ hd hm _
  case outside =>
    have hrange := mt (hrow o).mpr ho
    exact (sameByte_storeBytes _ hd (by omega)).trans (sameByte_storeBytes _ hd (by omega))

section
variable {s : State} {base host n reg k : Nat} {v : DWord} {rest : List Event}

/-- What the host's `wr` to a data register does (R58, R87). -/
theorem exists_step_of_wr_data (hbase : s.params.base = base) (hi : s.inbox = .access host (wr base n reg k v) :: rest)
    (hl : legal (reg + k) n = true) (hd : (rowOf (reg + k)).isData = true) :
    ∃ t, step s = .next t ∧ t.inbox = rest ∧ t.params = s.params ∧ t.block = s.block.storeBytes (reg + k) v n := by
  have hoff : base + reg + k - base = reg + k := by omega
  have hlt := lt_of_isData hd
  have hw : inWindow base (base + reg + k) = true := inWindow_iff.mpr ⟨by omega, by omega⟩
  subst hbase
  rw [step_of_write hi hw (by rwa [hoff]), hoff, writeWindow_of_data hd]
  exact ⟨_, rfl, rfl, rfl, rfl⟩

/-- What its `cmd` does (R82, R88): it is a CMD write of the command's word. -/
theorem step_of_cmd {i : Instr} (hbase : s.params.base = base) (hi : s.inbox = .access host (cmd base i) :: rest) :
    step s = answering host .written (exec i ({ s with inbox := rest }.storeCmd (encode i))) := by
  have hword : ((encode i).setWidth 64).setWidth 32 = encode i := BitVec.setWidth_setWidth_of_le _ (by decide)
  subst hbase
  rw [step_of_cmd_write_command hi (decode_eq_command_iff.mpr hword), hword]

end

/-- Storing CMD leaves the marks. -/
theorem operandsWritten_storeCmd {i : Instr} {s : State} {w : Word} :
    OperandsWritten i (s.storeCmd w).block ↔ OperandsWritten i s.block := Iff.rfl

/-- What a command leaves in the block depends on the block and the parameters only. -/
theorem exists_exec_storeCmd_of_same_block {i : Instr} {s s' : State} (hw : OperandsWritten i s.block)
    (hblock : s'.block = s.block) (hparams : s'.params = s.params) (w : Word) :
    ∃ t u, exec i (s.storeCmd w) = .next t ∧ exec i (s'.storeCmd w) = .next u ∧ u.block = t.block := by
  refine ⟨_, _, exec_of_written (operandsWritten_storeCmd.mpr hw),
    exec_of_written (operandsWritten_storeCmd.mpr (by rwa [hblock])), ?_⟩
  simp only [State.storeCmd, hblock, hparams]

/-- With LAT and LNG written, ENC has its operands. -/
theorem operandsWritten_enc (b : Block) (lat lng : F64) : OperandsWritten .enc ((b.writeLat lat).writeLng lng) :=
  fun _ hr => ((writesRegs_writeLat b lat).trans (writesRegs_writeLng _ lng)).written hr

/-- The two steps of `sethash` (R88). -/
theorem exists_run_sethash (s : State) (host : Nat) (str : Chars) : ∃ t,
    Sys2Proof.core.run 2 ({ s with inbox := [] }.issue host (sethash s.params.base str)) = .next t ∧
      t.block = s.block.writeHash str := by
  obtain ⟨s1, h1, hi1, hp1, hb1⟩ := exists_step_of_wr_data
    (s := { s with inbox := [] }.issue host (sethash s.params.base str)) rfl rfl rfl rfl
  obtain ⟨s2, h2, -, -, hb2⟩ := exists_step_of_wr_data (congrArg _ hp1) hi1 rfl rfl
  refine ⟨s2, run_succ_eq_next_iff.mpr ⟨s1, h1, run_succ_eq_next_iff.mpr ⟨s2, h2, rfl⟩⟩, ?_⟩
  rw [hb2, hb1]
  exact storeBytes_hash s.block str

/-- The three steps of `encode` (R88). -/
theorem exists_run_encodePair (s : State) (host : Nat) (lat lng : F64) :
    ∃ t, exec .enc ({ s with block := (s.block.writeLat lat).writeLng lng }.storeCmd (encode .enc)) = .next t ∧
      ∃ u, Sys2Proof.core.run 3 ({ s with inbox := [] }.issue host (encodePair s.params.base lat lng)) = .next u ∧
        u.block = t.block := by
  obtain ⟨s1, h1, hi1, hp1, hb1⟩ := exists_step_of_wr_data
    (s := { s with inbox := [] }.issue host (encodePair s.params.base lat lng)) rfl rfl rfl rfl
  obtain ⟨s2, h2, hi2, hp2, hb2⟩ := exists_step_of_wr_data (congrArg _ hp1) hi1 rfl rfl
  have hp : s2.params = s.params := hp2.trans hp1
  have hblock : s2.block = (s.block.writeLat lat).writeLng lng := by
    rw [hb2, hb1, ← storeBytes_lng, ← storeBytes_lat]
    rfl
  obtain ⟨t, u, ht, hu, htu⟩ := exists_exec_storeCmd_of_same_block (s' := { s2 with inbox := [] })
    (s := { s with block := (s.block.writeLat lat).writeLng lng }) (operandsWritten_enc s.block lat lng) hblock hp
    (encode .enc)
  have h3 : step s2 = .next (u.reply host .written) := by
    rw [step_of_cmd (rest := []) (congrArg _ hp) hi2, hu]
    rfl
  exact ⟨t, ht, u.reply host .written, run_succ_eq_next_iff.mpr ⟨s1, h1, run_succ_eq_next_iff.mpr ⟨s2, h2,
    run_succ_eq_next_iff.mpr ⟨_, h3, rfl⟩⟩⟩, htu⟩

/-- Settles O59, one pseudo-instruction after the other. -/
theorem pseudoInstructionsDoTheirWork : Obligations.PseudoInstructionsDoTheirWork :=
  ⟨exists_run_sethash, exists_run_encodePair⟩

end Sys2Proof.Machine

/-! The mapper in whole numbers (spec/40_mapper.md R100 to R105). A coordinate in range stands `offset` units above the lower
end, the range is 2^32 cells of `cellWidth` units, and both arithmetics give the number of a cell; what later proofs need
of rounding is that it never crosses the boundary of a cell. -/

namespace Sys2Proof.Machine

open Sys2Proof Sys2Proof.Machine.Float64

/-- The binary64 constants of one axis with its upper end, `hi` = W (R5). -/
structure AxisRange (W : Nat) (lo hi span : F64) : Prop extends Axis W lo span where
  hiFinite : isFinite hi = true
  hiUnits : units hi = ((W * one : Nat) : Int)

/-- The width of a cell, span / 2^32, in units. -/
def cellWidth (W : Nat) : Nat := 2 * W * fracUnit

/-- How many units the coordinate `v` lies above the lower end -W. -/
def offset (W : Nat) (v : F64) : Nat := (units v + ((W * one : Nat) : Int)).toNat

/-- The floor of the quotient (R100, R102) for a coordinate `u` units above the lower end. -/
def cellIndex (arith : Config.MapArith) (W u : Nat) : Nat :=
  match arith with
  | .binary64 => roundUnits (2 ^ 32 * roundUnits u 1 * one) (2 * W * one) / one
  | .exact => u / cellWidth W

/-- The fraction: the floor, saturated (R101). -/
def fractionIndex (arith : Config.MapArith) (W u : Nat) : Nat := min (cellIndex arith W u) (2 ^ 32 - 1)

/-- Some finite encoding has this magnitude. -/
def Representable (n : Nat) : Prop := ∃ m, magUnits m = n ∧ m < infBits

theorem latRange : AxisRange 90 latMin latMax latSpan := ⟨latAxis, by decide +kernel, by decide +kernel⟩

theorem lngRange : AxisRange 180 lngMin lngMax lngSpan := ⟨lngAxis, by decide +kernel, by decide +kernel⟩

/-! ## The range check -/

/-- No larger in magnitude than a finite value: finite. -/
theorem isFinite_of_natAbs_units_le {x y : F64} (hy : isFinite y = true) (h : (units x).natAbs ≤ (units y).natAbs) :
    isFinite x = true := by
  rw [natAbs_units, natAbs_units, magUnits_strictMono.le_iff_le] at h
  exact isFinite_iff.mpr (h.trans_lt (isFinite_iff.mp hy))

/-- With exponent field 0, a value is less than 2^52 units in magnitude. -/
theorem natAbs_units_of_expField {x : F64} (h : expField x = 0) : (units x).natAbs < 2 ^ 52 := by
  rw [expField] at h
  rw [natAbs_units, magUnits, if_pos h]
  omega

theorem le64_iff {x y : F64} : le64 x y = true ↔ isNaN x = false ∧ isNaN y = false ∧ units x ≤ units y := by
  simp [le64, and_assoc]

section
variable {W : Nat} {lo hi span v : F64} (ax : AxisRange W lo hi span)
include ax

theorem AxisRange.isFinite_of_units (hlo : -((W * one : Nat) : Int) ≤ units v) (hhi : units v ≤ ((W * one : Nat) : Int)) :
    isFinite v = true := by
  apply isFinite_of_natAbs_units_le ax.hiFinite
  rw [ax.hiUnits]
  omega

/-- The range check is a comparison of values (R103): what it admits is no NaN and no infinity. -/
theorem AxisRange.inRange_iff :
    inRange v lo hi = true ↔ -((W * one : Nat) : Int) ≤ units v ∧ units v ≤ ((W * one : Nat) : Int) := by
  rw [inRange, Bool.and_eq_true, le64_iff, le64_iff, ax.loUnits, ax.hiUnits]
  constructor
  · rintro ⟨⟨-, -, hlo⟩, -, -, hhi⟩
    exact ⟨hlo, hhi⟩
  · rintro ⟨hlo, hhi⟩
    have hv := isNaN_eq_false (ax.isFinite_of_units hlo hhi)
    exact ⟨⟨isNaN_eq_false ax.loFinite, hv, hlo⟩, hv, isNaN_eq_false ax.hiFinite, hhi⟩

theorem AxisRange.isFinite (h : inRange v lo hi = true) : isFinite v = true :=
  ax.isFinite_of_units (ax.inRange_iff.mp h).1 (ax.inRange_iff.mp h).2

/-- A NaN or an infinity fails the check (R104). -/
theorem AxisRange.inRange_of_not_finite (h : isNaN v = true ∨ isInf v = true) : inRange v lo hi = false := by
  rw [← Bool.not_eq_true]
  intro hr
  have hv := ax.isFinite hr
  simp [isNaN_eq_false hv, isInf_eq_false hv] at h

end

/-! ## Rounding against a representable magnitude -/

theorem representable_frac {n : Nat} (hn : n < 2 ^ 53) : Representable (n * fracUnit) := exists_finite_frac hn

theorem representable_int {n : Nat} (hn : n < 2 ^ 53) : Representable (n * one) := by
  obtain ⟨m, -, hm, hn⟩ := toF64_exact hn
  exact ⟨m, hn, hm⟩

/-- Rounding never crosses a representable magnitude. -/
theorem Representable.roundUnits_le {n num den : Nat} (hn : Representable n) (hden : 0 < den) (h : num ≤ n * den) :
    roundUnits num den ≤ n := by
  obtain ⟨m, rfl, hm⟩ := hn
  exact magUnits_strictMono.monotone (roundMag_le hden hm.le h)

theorem Representable.le_roundUnits {n num den : Nat} (hn : Representable n) (hden : 0 < den) (h : n * den ≤ num) :
    n ≤ roundUnits num den := by
  obtain ⟨m, rfl, hm⟩ := hn
  exact magUnits_strictMono.monotone (le_roundMag hden hm.le h)

/-- The rounding error is at most 2^-53 of a representable bound that is no tiny number. -/
theorem Representable.roundUnits_near {n num den : Nat} (hn : Representable n) (hden : 0 < den) (h : num ≤ n * den)
    (hbig : 2 ^ 52 ≤ n) : 2 ^ 53 * (roundUnits num den * den) ≤ 2 ^ 53 * num + n * den := by
  obtain ⟨m, rfl, hm⟩ := hn
  obtain ⟨k, hk, -, hnear⟩ := roundMag_near hden ((roundMag_le hden hm.le h).trans_lt hm)
  have hulp : 2 ^ 52 * (den * 2 ^ k) ≤ magUnits m * den := by
    rcases hk with rfl | hk
    · rw [pow_zero, Nat.mul_one]
      exact Nat.mul_le_mul_right _ hbig
    · exact hk.trans h
  unfold roundUnits
  omega

/-! ## Offsets and cells -/

/-- The span is 2^32 cells. -/
theorem span_eq_cells (W : Nat) : 2 * W * one = 2 ^ 32 * cellWidth W := by
  rw [one_eq_fracUnit, cellWidth]
  ring

theorem natCast_span_eq_cells (W : Nat) : ((2 * W : Nat) : Int) * (one : Int) = 2 ^ 32 * (cellWidth W : Int) := by
  exact_mod_cast span_eq_cells W

/-- Cell `i` begins at the integer `i` of the quotient. -/
theorem boundary_scaled (W i : Nat) : 2 ^ 32 * (i * cellWidth W) * one = i * one * (2 * W * one) := by
  rw [span_eq_cells]
  ring

section
variable {W : Nat} {lo hi span v : F64} (ax : AxisRange W lo hi span)
include ax

theorem AxisRange.cellWidth_pos : 0 < cellWidth W :=
  Nat.mul_pos (Nat.mul_pos Nat.two_pos ax.pos) fracUnit_pos

/-- The offset as an integer: in range, nothing is cut off at 0. -/
theorem AxisRange.natCast_offset (h : inRange v lo hi = true) : (offset W v : Int) = units v + ((W * one : Nat) : Int) := by
  have hlo := (ax.inRange_iff.mp h).1
  exact Int.toNat_of_nonneg (by omega)

theorem AxisRange.offset_le (h : inRange v lo hi = true) : offset W v ≤ 2 * W * one := by
  have hhi := (ax.inRange_iff.mp h).2
  have hoff := ax.natCast_offset h
  rw [Nat.mul_assoc]
  omega

theorem AxisRange.span_pos : 0 < 2 * W * one := Nat.mul_pos (Nat.mul_pos Nat.two_pos ax.pos) Float64.one_pos

/-- The boundaries of the cells are representable (R111). -/
theorem AxisRange.representable_boundary {i : Nat} (hmax : i ≤ 2 ^ 33) : Representable (i * cellWidth W) := by
  have hW := ax.small
  have hsmall : i * (2 * W) < 2 ^ 53 :=
    calc i * (2 * W) ≤ 2 ^ 33 * (2 * 2 ^ 8) := Nat.mul_le_mul hmax (by omega)
      _ < 2 ^ 53 := by norm_num
  rw [cellWidth, ← Nat.mul_assoc]
  exact representable_frac hsmall

/-- From the boundary of cell `i` on, the index is at least `i` … -/
theorem AxisRange.le_cellIndex (arith : Config.MapArith) {i u : Nat} (hmax : i ≤ 2 ^ 33) (h : i * cellWidth W ≤ u) :
    i ≤ cellIndex arith W u := by
  cases arith with
  | exact => exact (Nat.le_div_iff_mul_le ax.cellWidth_pos).mpr h
  | binary64 =>
    have hoffset : i * cellWidth W ≤ roundUnits u 1 :=
      (ax.representable_boundary hmax).le_roundUnits Nat.one_pos (by rwa [Nat.mul_one])
    refine (Nat.le_div_iff_mul_le Float64.one_pos).mpr
      ((representable_int (n := i) (by omega)).le_roundUnits ax.span_pos ?_)
    rw [← boundary_scaled]
    exact Nat.mul_le_mul_right _ (Nat.mul_le_mul_left _ hoffset)

/-- … and up to it, at most `i`. -/
theorem AxisRange.cellIndex_le (arith : Config.MapArith) {i u : Nat} (hmax : i ≤ 2 ^ 33) (h : u ≤ i * cellWidth W) :
    cellIndex arith W u ≤ i := by
  cases arith with
  | exact => exact Nat.div_le_of_le_mul (by rwa [Nat.mul_comm])
  | binary64 =>
    have hoffset : roundUnits u 1 ≤ i * cellWidth W :=
      (ax.representable_boundary hmax).roundUnits_le Nat.one_pos (by rwa [Nat.mul_one])
    refine (Nat.div_le_div_right (c := one) ?_).trans (Nat.mul_div_cancel i Float64.one_pos).le
    refine (representable_int (n := i) (by omega)).roundUnits_le ax.span_pos ?_
    rw [← boundary_scaled]
    exact Nat.mul_le_mul_right _ (Nat.mul_le_mul_left _ hoffset)

/-- A larger offset never gets a smaller index (R112): both roundings, the scaling, the division and the floor keep the
order. -/
theorem AxisRange.cellIndex_mono (arith : Config.MapArith) {u u' : Nat} (h : u ≤ u') :
    cellIndex arith W u ≤ cellIndex arith W u' := by
  cases arith with
  | exact => exact Nat.div_le_div_right h
  | binary64 =>
    have hoffset : roundUnits u 1 ≤ roundUnits u' 1 :=
      roundUnits_mono Nat.one_pos Nat.one_pos (Nat.mul_le_mul_right _ h)
    exact Nat.div_le_div_right (roundUnits_mono ax.span_pos ax.span_pos
      (Nat.mul_le_mul_right _ (Nat.mul_le_mul_right _ (Nat.mul_le_mul_left _ hoffset))))

/-- A boundary has the index of the cell it begins. -/
theorem AxisRange.cellIndex_boundary (arith : Config.MapArith) {i : Nat} (hmax : i ≤ 2 ^ 33) :
    cellIndex arith W (i * cellWidth W) = i :=
  le_antisymm (ax.cellIndex_le arith hmax le_rfl) (ax.le_cellIndex arith hmax le_rfl)

/-- An offset lies in the cell of its exact index. -/
theorem AxisRange.cell_bounds (u : Nat) :
    cellIndex .exact W u * cellWidth W ≤ u ∧ u < (cellIndex .exact W u + 1) * cellWidth W :=
  ⟨Nat.div_mul_le_self u _, by rw [Nat.mul_comm]; exact Nat.lt_mul_div_succ u ax.cellWidth_pos⟩

/-- In range, the index is at most 2^32 (R101). -/
theorem AxisRange.cellIndex_le_of_inRange (arith : Config.MapArith) (h : inRange v lo hi = true) :
    cellIndex arith W (offset W v) ≤ 2 ^ 32 :=
  ax.cellIndex_le arith (by norm_num) (by rw [← span_eq_cells]; exact ax.offset_le h)

/-- Rounding carries an offset into the next cell at most, and never down (R111). -/
theorem AxisRange.cellIndex_binary64 {u : Nat} (hu : u ≤ 2 * W * one) :
    cellIndex .exact W u ≤ cellIndex .binary64 W u ∧ cellIndex .binary64 W u ≤ cellIndex .exact W u + 1 := by
  have hmax : cellIndex .exact W u ≤ 2 ^ 32 := ax.cellIndex_le .exact (by norm_num) (by rwa [← span_eq_cells])
  obtain ⟨hlo, hhi⟩ := ax.cell_bounds u
  exact ⟨ax.le_cellIndex .binary64 (by omega) hlo, ax.cellIndex_le .binary64 (by omega) hhi.le⟩

/-- It is carried there from at most 2^-43 below (R111): each of the two roundings is off by at most 2^-53 of the span. -/
theorem AxisRange.cellIndex_binary64_near {u : Nat} (hu : u ≤ 2 * W * one) :
    2 ^ 43 * (cellIndex .binary64 W u * cellWidth W) ≤ 2 ^ 43 * u + one := by
  have hW := ax.small
  have hWpos := ax.pos
  have hbig : 2 ^ 52 ≤ one := by decide +kernel
  have hspan : Representable (2 * W * one) := representable_int (by omega)
  have htop : Representable (2 ^ 32 * one) := representable_int (by norm_num)
  have hoffset_le : roundUnits u 1 ≤ 2 * W * one := hspan.roundUnits_le Nat.one_pos (by rwa [Nat.mul_one])
  have hoffset : 2 ^ 53 * roundUnits u 1 ≤ 2 ^ 53 * u + 2 * W * one := by
    have h := hspan.roundUnits_near Nat.one_pos (num := u) (by rwa [Nat.mul_one])
      (hbig.trans (Nat.le_mul_of_pos_left _ (by omega)))
    simpa only [Nat.mul_one] using h
  have hfloor : cellIndex .binary64 W u * one ≤ roundUnits (2 ^ 32 * roundUnits u 1 * one) (2 * W * one) :=
    Nat.div_mul_le_self _ _
  have hquotient := htop.roundUnits_near ax.span_pos (num := 2 ^ 32 * roundUnits u 1 * one)
    (by rw [Nat.mul_right_comm]; exact Nat.mul_le_mul_left _ hoffset_le) (hbig.trans (Nat.le_mul_of_pos_left _ (by norm_num)))
  have hscaled : (2 ^ 32 * one) * (2 ^ 53 * (cellIndex .binary64 W u * cellWidth W)) ≤
      (2 ^ 32 * one) * (2 ^ 53 * roundUnits u 1 + 2 * W * one) :=
    calc (2 ^ 32 * one) * (2 ^ 53 * (cellIndex .binary64 W u * cellWidth W))
        = 2 ^ 53 * (cellIndex .binary64 W u * one * (2 * W * one)) := by rw [← boundary_scaled]; ring
      _ ≤ 2 ^ 53 * (roundUnits (2 ^ 32 * roundUnits u 1 * one) (2 * W * one) * (2 * W * one)) :=
          Nat.mul_le_mul_left _ (Nat.mul_le_mul_right _ hfloor)
      _ ≤ 2 ^ 53 * (2 ^ 32 * roundUnits u 1 * one) + 2 ^ 32 * one * (2 * W * one) := hquotient
      _ = (2 ^ 32 * one) * (2 ^ 53 * roundUnits u 1 + 2 * W * one) := by ring
  have hunscaled := Nat.le_of_mul_le_mul_left hscaled (Nat.mul_pos (by norm_num) Float64.one_pos)
  have hspan_le : 2 * W * one ≤ 2 ^ 9 * one := Nat.mul_le_mul_right _ (by omega)
  omega

end

end Sys2Proof.Machine

/-! What the mapper computes, in cells: `mapFrac` is the saturated index of the cell, and `unmapFrac` is the boundary where
the cell of a fraction begins (spec/40_mapper.md R100, R102, R105). -/

namespace Sys2Proof.Machine

open Sys2Proof Sys2Proof.Machine.Float64

/-- What `saturate` gives for an integer in [0, 2^32] (R101). -/
theorem toNat_saturate {i : Nat} (hi : i ≤ 2 ^ 32) : (saturate i).toNat = min i (2 ^ 32 - 1) := by
  unfold saturate
  split_ifs with h
  · have hmax : i = 2 ^ 32 := by exact_mod_cast h
    rw [hmax]
    rfl
  · have hlt : i ≤ 2 ^ 32 - 1 := by omega
    rw [BitVec.ofInt_natCast, BitVec.toNat_ofNat, Nat.mod_eq_of_lt (by omega), min_eq_left hlt]

section
variable {W : Nat} {lo hi span v w : F64} (ax : AxisRange W lo hi span)
include ax

theorem AxisRange.quotientBinary64_eq (h : inRange v lo hi = true) :
    quotientBinary64 v lo span = (cellIndex .binary64 W (offset W v) : Int) := by
  refine Machine.quotientBinary64_eq ax.toAxis (ax.isFinite h) ?_ (ax.offset_le h)
  rw [ax.natCast_offset h, ax.loUnits, sub_neg_eq_add]

theorem AxisRange.quotientExact_eq (h : inRange v lo hi = true) :
    quotientExact v lo span = (cellIndex .exact W (offset W v) : Int) := by
  have hspan : units span = ((2 ^ 32 * cellWidth W : Nat) : Int) := by
    rw [units, ax.spanSign, ax.spanMag, span_eq_cells]
    rfl
  have hoffset : units v - units lo = (offset W v : Int) := by
    rw [ax.natCast_offset h, ax.loUnits, sub_neg_eq_add]
  rw [quotientExact, hspan, hoffset, cellIndex, ← Nat.mul_div_mul_left (offset W v) (cellWidth W) (m := 2 ^ 32) (by norm_num)]
  push_cast
  rfl

/-- The fraction is the saturated index of the cell (R100 to R102). -/
theorem AxisRange.toNat_mapFrac (arith : Config.MapArith) (h : inRange v lo hi = true) :
    (mapFrac arith v lo span).toNat = fractionIndex arith W (offset W v) := by
  have hsat := toNat_saturate (ax.cellIndex_le_of_inRange arith h)
  cases arith with
  | binary64 => rw [mapFrac, ax.quotientBinary64_eq h, hsat, fractionIndex]
  | exact => rw [mapFrac, ax.quotientExact_eq h, hsat, fractionIndex]

/-- A fraction is unmapped to the boundary where its cell begins (R105). -/
theorem AxisRange.units_unmapFrac (f : Word) :
    units (unmapFrac f lo span) + ((W * one : Nat) : Int) = ((f.toNat * cellWidth W : Nat) : Int) := by
  rw [(unmapFrac_exact ax.toAxis f).2.1, one_eq_fracUnit, cellWidth]
  push_cast
  ring

/-- Unmapped values are in range (R110). -/
theorem AxisRange.inRange_unmapFrac (f : Word) : inRange (unmapFrac f lo span) lo hi = true := by
  have hunits := ax.units_unmapFrac f
  have hcell : f.toNat * cellWidth W ≤ 2 * W * one := by
    rw [span_eq_cells]
    exact Nat.mul_le_mul_right _ f.isLt.le
  rw [ax.inRange_iff]
  rw [Nat.mul_assoc] at hcell
  omega

theorem AxisRange.offset_unmapFrac (f : Word) : offset W (unmapFrac f lo span) = f.toNat * cellWidth W := by
  rw [offset, ax.units_unmapFrac, Int.toNat_natCast]

/-- Mapping an unmapped fraction gives it back (R110). -/
theorem AxisRange.mapFrac_unmapFrac (arith : Config.MapArith) (f : Word) :
    mapFrac arith (unmapFrac f lo span) lo span = f := by
  have hf : f.toNat ≤ 2 ^ 32 - 1 := Nat.le_pred_of_lt f.isLt
  apply BitVec.eq_of_toNat_eq
  rw [ax.toNat_mapFrac arith (ax.inRange_unmapFrac f), ax.offset_unmapFrac, fractionIndex,
    ax.cellIndex_boundary arith (by omega), min_eq_left hf]

theorem AxisRange.offset_mono (hv : inRange v lo hi = true) (hw : inRange w lo hi = true) (h : units v ≤ units w) :
    offset W v ≤ offset W w := by
  have hoffv := ax.natCast_offset hv
  have hoffw := ax.natCast_offset hw
  omega

/-- A larger coordinate never gets a smaller fraction (R112). -/
theorem AxisRange.mapFrac_mono (arith : Config.MapArith) (hv : inRange v lo hi = true) (hw : inRange w lo hi = true)
    (h : units v ≤ units w) : mapFrac arith v lo span ≤ mapFrac arith w lo span := by
  rw [BitVec.le_def, ax.toNat_mapFrac arith hv, ax.toNat_mapFrac arith hw]
  exact min_le_min_right _ (ax.cellIndex_mono arith (ax.offset_mono hv hw h))

/-- Below the upper end, an offset lies in the cell of its exact fraction (R102). -/
theorem AxisRange.mapFrac_exact_bounds (h : inRange v lo hi = true) (hlt : units v < ((W * one : Nat) : Int)) :
    (mapFrac .exact v lo span).toNat * cellWidth W ≤ offset W v ∧
      offset W v < ((mapFrac .exact v lo span).toNat + 1) * cellWidth W := by
  have hoff := ax.natCast_offset h
  have hspan := span_eq_cells W
  have hbelow : cellIndex .exact W (offset W v) < 2 ^ 32 := by
    refine (Nat.div_lt_iff_lt_mul ax.cellWidth_pos).mpr ?_
    rw [← hspan, Nat.mul_assoc]
    omega
  rw [ax.toNat_mapFrac .exact h, fractionIndex, min_eq_left (by omega)]
  exact ax.cell_bounds _

/-- At the upper end, the floor is 2^32 (R101). -/
theorem AxisRange.cellIndex_of_max (arith : Config.MapArith) (h : inRange v lo hi = true)
    (hmax : units v = ((W * one : Nat) : Int)) : cellIndex arith W (offset W v) = 2 ^ 32 := by
  have hoff : offset W v = 2 ^ 32 * cellWidth W := by
    have hoff := ax.natCast_offset h
    rw [← span_eq_cells, Nat.mul_assoc]
    omega
  rw [hoff, ax.cellIndex_boundary arith (by norm_num)]

end

end Sys2Proof.Machine

/-! The range checks and the map and unmap primitives on both axes (spec/40_mapper.md R101 to R105, R110 to R112). -/

namespace Sys2Proof.Machine

open Sys2Proof Sys2Proof.Machine.Float64

section
variable {W : Nat} {lo hi span v : F64} (ax : AxisRange W lo hi span)
include ax

/-- What the range check admits (R103). -/
theorem AxisRange.inRange_iff_bounds : inRange v lo hi = true ↔
    isNaN v = false ∧ isInf v = false ∧ -(W : Int) * (one : Int) ≤ units v ∧ units v ≤ (W : Int) * (one : Int) := by
  have hbounds : inRange v lo hi = true ↔ -(W : Int) * (one : Int) ≤ units v ∧ units v ≤ (W : Int) * (one : Int) := by
    rw [ax.inRange_iff, Nat.cast_mul, neg_mul]
  constructor
  · intro h
    exact ⟨isNaN_eq_false (ax.isFinite h), isInf_eq_false (ax.isFinite h), hbounds.mp h⟩
  · rintro ⟨-, -, h⟩
    exact hbounds.mpr h

/-- The floor in range, and its saturation (R101). -/
theorem AxisRange.quotientBinary64_bounds (h : inRange v lo hi = true) :
    0 ≤ quotientBinary64 v lo span ∧ quotientBinary64 v lo span ≤ 2 ^ 32 ∧
      ((mapFrac .binary64 v lo span).toNat : Int) = min (quotientBinary64 v lo span) (2 ^ 32 - 1) := by
  have hle := ax.cellIndex_le_of_inRange .binary64 h
  rw [ax.quotientBinary64_eq h, ax.toNat_mapFrac .binary64 h, fractionIndex]
  omega

/-- The exact fraction in exact arithmetic (R102). -/
theorem AxisRange.mapFrac_exact_floor (h : inRange v lo hi = true) (hlt : units v < (W : Int) * (one : Int)) :
    ((mapFrac .exact v lo span).toNat : Int) * (((2 * W : Nat) : Int) * (one : Int)) ≤
        2 ^ 32 * (units v + (W : Int) * (one : Int)) ∧
      2 ^ 32 * (units v + (W : Int) * (one : Int)) <
        ((mapFrac .exact v lo span).toNat + 1 : Int) * (((2 * W : Nat) : Int) * (one : Int)) := by
  obtain ⟨hlo, hhi⟩ := ax.mapFrac_exact_bounds h (by exact_mod_cast hlt)
  have hoff : units v + (W : Int) * (one : Int) = (offset W v : Int) := by rw [ax.natCast_offset h, Nat.cast_mul]
  rw [hoff, natCast_span_eq_cells]
  zify at hlo hhi
  constructor <;> linarith

theorem AxisRange.mapFrac_of_max (arith : Config.MapArith) (h : inRange v lo hi = true)
    (hmax : units v = ((W * one : Nat) : Int)) : mapFrac arith v lo span = 0xFFFFFFFF := by
  apply BitVec.eq_of_toNat_eq
  rw [ax.toNat_mapFrac arith h, fractionIndex, ax.cellIndex_of_max arith h hmax]
  rfl

/-- The unmapped value in exact arithmetic (R105). -/
theorem AxisRange.units_unmapFrac_scaled (f : Word) :
    2 ^ 32 * units (unmapFrac f lo span) = (one : Int) * (-(W : Int) * 2 ^ 32 + ((2 * W : Nat) : Int) * (f.toNat : Int)) := by
  rw [(unmapFrac_exact ax.toAxis f).2.1, one_eq_fracUnit]
  push_cast
  ring

/-- A larger fraction gives a larger value. -/
theorem AxisRange.units_unmapFrac_strictMono {f g : Word} (h : f < g) :
    units (unmapFrac f lo span) < units (unmapFrac g lo span) := by
  have hcell := Nat.mul_lt_mul_of_pos_right (BitVec.lt_def.mp h) ax.cellWidth_pos
  have hf := ax.units_unmapFrac f
  have hg := ax.units_unmapFrac g
  omega

/-- A value with exponent field 0 is smaller than the unit of a fraction, so an unmapped one is the zero. -/
theorem AxisRange.unmapFrac_of_expField {f : Word} (h : expField (unmapFrac f lo span) = 0) :
    unmapFrac f lo span = 0 := by
  obtain ⟨-, hunits, hzero⟩ := unmapFrac_exact ax.toAxis f
  have hmag := natAbs_units_of_expField h
  have hunit : 2 ^ 52 ≤ fracUnit := by decide +kernel
  apply hzero
  apply Int.eq_zero_of_abs_lt_dvd (Dvd.intro_left _ hunits.symm)
  rw [Int.abs_eq_natAbs]
  exact_mod_cast hmag.trans_le hunit

/-- The error of unmapping a mapped coordinate, in units: how far its offset is above the boundary of the fraction. -/
theorem AxisRange.units_sub_unmapFrac (arith : Config.MapArith) (h : inRange v lo hi = true) :
    units v - units (unmapFrac (mapFrac arith v lo span) lo span) =
      (offset W v : Int) - ((fractionIndex arith W (offset W v) * cellWidth W : Nat) : Int) := by
  have hunits := ax.units_unmapFrac (mapFrac arith v lo span)
  rw [ax.toNat_mapFrac arith h] at hunits
  have hoff := ax.natCast_offset h
  omega

/-- The offset is at most one cell above the boundary of the fraction, and that far only where the index saturates. -/
theorem AxisRange.offset_le_succ (arith : Config.MapArith) (h : inRange v lo hi = true) :
    offset W v ≤ fractionIndex arith W (offset W v) * cellWidth W + cellWidth W ∧
      (offset W v = fractionIndex arith W (offset W v) * cellWidth W + cellWidth W →
        cellIndex arith W (offset W v) = 2 ^ 32) := by
  have hmax := ax.cellIndex_le_of_inRange arith h
  have hle : cellIndex .exact W (offset W v) ≤ cellIndex arith W (offset W v) := by
    cases arith with
    | exact => exact le_rfl
    | binary64 => exact (ax.cellIndex_binary64 (ax.offset_le h)).1
  rcases Nat.lt_or_ge (cellIndex arith W (offset W v)) (2 ^ 32) with hlt | hge
  · have hcell : offset W v < (cellIndex arith W (offset W v) + 1) * cellWidth W :=
      (ax.cell_bounds _).2.trans_le (Nat.mul_le_mul_right _ (Nat.succ_le_succ hle))
    rw [Nat.succ_mul] at hcell
    rw [fractionIndex, min_eq_left (by omega)]
    omega
  · have hoff := ax.offset_le h
    rw [span_eq_cells] at hoff
    rw [fractionIndex, min_eq_right (by omega)]
    omega

/-- Value first, under `binary64` (R111). -/
theorem AxisRange.binary64_error (h : inRange v lo hi = true) :
    -(one : Int) ≤ 2 ^ 43 * (units v - units (unmapFrac (mapFrac .binary64 v lo span) lo span)) ∧
      2 ^ 32 * (units v - units (unmapFrac (mapFrac .binary64 v lo span) lo span)) ≤ ((2 * W : Nat) : Int) * (one : Int) ∧
      (2 ^ 32 * (units v - units (unmapFrac (mapFrac .binary64 v lo span) lo span)) = ((2 * W : Nat) : Int) * (one : Int) →
        quotientBinary64 v lo span = 2 ^ 32) := by
  have hnear := ax.cellIndex_binary64_near (ax.offset_le h)
  have hfraction : fractionIndex .binary64 W (offset W v) * cellWidth W ≤
      cellIndex .binary64 W (offset W v) * cellWidth W := Nat.mul_le_mul_right _ (min_le_left _ _)
  obtain ⟨hle, heq⟩ := ax.offset_le_succ .binary64 h
  rw [ax.units_sub_unmapFrac .binary64 h, ax.quotientBinary64_eq h, natCast_span_eq_cells]
  omega

/-- Value first, under `exact` (R111). -/
theorem AxisRange.exact_error (h : inRange v lo hi = true) :
    0 ≤ units v - units (unmapFrac (mapFrac .exact v lo span) lo span) ∧
      (units v < (W : Int) * (one : Int) →
        2 ^ 32 * (units v - units (unmapFrac (mapFrac .exact v lo span) lo span)) < ((2 * W : Nat) : Int) * (one : Int)) ∧
      (units v = (W : Int) * (one : Int) →
        2 ^ 32 * (units v - units (unmapFrac (mapFrac .exact v lo span) lo span)) = ((2 * W : Nat) : Int) * (one : Int)) := by
  have hfraction : fractionIndex .exact W (offset W v) * cellWidth W ≤ offset W v :=
    (Nat.mul_le_mul_right _ (min_le_left _ _)).trans (ax.cell_bounds _).1
  rw [ax.units_sub_unmapFrac .exact h, natCast_span_eq_cells, ← Nat.cast_mul]
  refine ⟨by omega, fun hlt => ?below, fun hmax => ?max⟩
  case below =>
    have hcell := (ax.mapFrac_exact_bounds h hlt).2
    rw [ax.toNat_mapFrac .exact h, Nat.succ_mul] at hcell
    omega
  case max =>
    have hindex := ax.cellIndex_of_max .exact h hmax
    have hoff := (ax.cell_bounds (offset W v)).1
    rw [hindex] at hoff
    have hspan := span_eq_cells W
    have hle := ax.offset_le h
    rw [fractionIndex, hindex, min_eq_right (by norm_num)]
    omega

/-- The `binary64` fraction is the `exact` one or one more (R111). -/
theorem AxisRange.mapFrac_binary64_exact (h : inRange v lo hi = true) :
    (mapFrac .binary64 v lo span).toNat = (mapFrac .exact v lo span).toNat ∨
      (mapFrac .binary64 v lo span).toNat = (mapFrac .exact v lo span).toNat + 1 := by
  obtain ⟨hle, hge⟩ := ax.cellIndex_binary64 (ax.offset_le h)
  rw [ax.toNat_mapFrac .binary64 h, ax.toNat_mapFrac .exact h, fractionIndex, fractionIndex]
  omega

end

/-- Settles O30: values in range are no larger than the finite ends, and the order of `le64` is that of the values. -/
theorem rangeCheckIsInclusive : Obligations.RangeCheckIsInclusive :=
  ⟨fun _ => latRange.inRange_iff_bounds, fun _ => lngRange.inRange_iff_bounds⟩

/-- Settles O32: the generic bounds on both axes, and the three saturating quotients evaluated. -/
theorem mapIsTheSaturatedFloor : Obligations.MapIsTheSaturatedFloor :=
  ⟨fun _ => latRange.quotientBinary64_bounds, fun _ => lngRange.quotientBinary64_bounds, by decide +kernel,
    by decide +kernel, by decide +kernel⟩

/-- Settles O33: the exact fraction is the cell of the coordinate; the worked disagreement is evaluated. -/
theorem exactMapIsTheExactFloor : Obligations.ExactMapIsTheExactFloor :=
  ⟨fun _ => latRange.mapFrac_exact_floor, fun _ => lngRange.mapFrac_exact_floor,
    latRange.mapFrac_of_max .exact (by decide +kernel) latRange.hiUnits,
    lngRange.mapFrac_of_max .exact (by decide +kernel) lngRange.hiUnits, by decide +kernel, by decide +kernel⟩

/-- Settles O34: the boundaries of the cells are representable, and the only one near 0 is +0. -/
theorem unmapIsExact : Obligations.UnmapIsExact :=
  ⟨fun f => ⟨(unmapFrac_exact latAxis f).1, latRange.units_unmapFrac_scaled f, latRange.unmapFrac_of_expField⟩,
    fun f => ⟨(unmapFrac_exact lngAxis f).1, lngRange.units_unmapFrac_scaled f, lngRange.unmapFrac_of_expField⟩,
    by decide +kernel, by decide +kernel,
    fun _ _ h => ⟨latRange.units_unmapFrac_strictMono h, lngRange.units_unmapFrac_strictMono h⟩⟩

/-- Settles O36: the coordinate lies in the cell of its exact fraction, and rounding carries it into the next one from at
most 2^-43 below. -/
theorem unmapOfMapIsNear : Obligations.UnmapOfMapIsNear := by
  constructor
  · intro v h
    obtain ⟨hlo, hhi, hsat⟩ := latRange.binary64_error h
    obtain ⟨hpos, hbelow, hmax⟩ := latRange.exact_error h
    exact ⟨hlo, hhi, hsat, hpos, hbelow, hmax, latRange.mapFrac_binary64_exact h⟩
  · intro v h
    obtain ⟨hlo, hhi, hsat⟩ := lngRange.binary64_error h
    obtain ⟨hpos, hbelow, hmax⟩ := lngRange.exact_error h
    exact ⟨hlo, hhi, hsat, hpos, hbelow, hmax, lngRange.mapFrac_binary64_exact h⟩

/-- Settles O37: a cell's index grows with the offset; the ends are the first cell and the saturated one. -/
theorem mapIsMonotone : Obligations.MapIsMonotone :=
  ⟨fun arith _ _ hv hw h => latRange.mapFrac_mono arith hv hw (le64_iff.mp h).2.2,
    fun arith _ _ hv hw h => lngRange.mapFrac_mono arith hv hw (le64_iff.mp h).2.2,
    fun arith => ⟨by cases arith <;> decide +kernel,
      latRange.mapFrac_of_max arith (by decide +kernel) latRange.hiUnits⟩⟩

end Sys2Proof.Machine

/-! The mapper's commands (spec/40_mapper.md R104, R106 to R110). What a command with written operands answers comes in two
lemmas for all commands: its results where its checks find no error, and its error where they find one. -/

namespace Sys2Proof.Machine

open Sys2Proof Sys2Proof.Machine.Float64

/-- A command whose checks find no error writes its results and reports success (R201, R36). -/
theorem completes_of_success {i : Instr} {s : State} {post : State → Prop} (hw : OperandsWritten i s.block)
    (h : checkError i s.block = none)
    (hpost : post { s with block := (results s.params.mapArith i s.block).ok }) : Completes i s (writes i) post := by
  have hregs := writesRegs_effect_of_success h s.params.mapArith
  have hstatus := effect_status s.params.mapArith i s.block
  rw [effect_of_checkError_none h] at hregs hstatus
  refine ⟨_, exec_of_written hw, ?_⟩
  rw [effect_of_checkError_none h]
  exact ⟨hpost, by rw [Reports, hstatus, h]; rfl, hregs.onlyChanges, fun r hr => hregs.written hr⟩

/-- A command whose checks find an error reports it and changes nothing else (R201). -/
theorem fails_of_error {i : Instr} {s : State} {e : CommandError} (hw : OperandsWritten i s.block)
    (h : checkError i s.block = some e) {err : BitVec 3} {axis : BitVec 1} {idx : BitVec 4} {chr : Byte}
    (he : outcomeWord (opcodeField s.block.cmd) (some e) = statusWord (opcodeField s.block.cmd) err axis idx chr) :
    Fails i s err axis idx chr := by
  refine ⟨_, exec_of_written hw, ?status, (writesRegs_effect_of_error h _).onlyChanges⟩
  case status => rw [Reports, effect_status, h, he]

/-- Under `stop`, an unwritten operand ends the run (R34). -/
theorem exec_of_not_written {i : Instr} {s : State} (hs : s.onUnwritten = .stop) (hw : ¬ OperandsWritten i s.block) :
    exec i s = .fault .unwrittenOperand :=
  exec_eq_fault_iff.mpr ⟨rfl, hs, hw⟩

/-- STATUS as a number where CMD is known (R30). -/
theorem reports_iff {s t : State} {w word : Word} {err : BitVec 3} {axis : BitVec 1} {idx : BitVec 4} {chr : Byte}
    (hcmd : s.block.cmd = w) (hword : statusWord (opcodeField w) err axis idx chr = word) :
    Reports s t err axis idx chr ↔ t.block.status = word := by
  rw [Reports, hcmd, hword]

/-- A CMD write of a command's word runs that command (R82). -/
theorem issue_encode (i : Instr) (s : State) : issue (encode i) s = exec i (s.storeCmd (encode i)) :=
  execute_of_command (decode_eq_command_iff.mpr rfl) _

/-- A command word whose operands are written and whose checks find no error (R82, R201). -/
theorem issue_of_success {i : Instr} {s : State} (hw : OperandsWritten i s.block) (h : checkError i s.block = none) :
    issue (encode i) s =
      .next { s with block := (results s.params.mapArith i (s.storeCmd (encode i)).block).ok } := by
  have hc : checkError i (s.storeCmd (encode i)).block = none := by rwa [checkError_storeCmd]
  rw [issue_encode, exec_of_written (operandsWritten_storeCmd.mpr hw), effect_of_checkError_none hc]
  rfl

/-- A command has its operands after one that writes them (R34). -/
theorem operandsWritten_ok_results {i j : Instr} (h : reads j ⊆ writes i) (arith : Config.MapArith) (b : Block) :
    OperandsWritten j (results arith i b).ok := fun _ hr =>
  ((writesRegs_results arith i b).trans (writesRegs_ok _)).written (List.mem_append_left _ (h hr))

/-- Two command words, the second of whose commands reads what the first writes. -/
theorem exists_issue_issue {i j : Instr} {s : State} (hw : OperandsWritten i s.block) (hi : checkError i s.block = none)
    (hsub : reads j ⊆ writes i)
    (hj : checkError j (results s.params.mapArith i (s.storeCmd (encode i)).block).ok = none) :
    ∃ t u, issue (encode i) s = .next t ∧ issue (encode j) t = .next u ∧ statusErr u.block.status = 0 ∧
      u.block = (results s.params.mapArith j
        { (results s.params.mapArith i (s.storeCmd (encode i)).block).ok with cmd := encode j }).ok :=
  ⟨_, _, issue_of_success hw hi, issue_of_success (operandsWritten_ok_results hsub _ _) hj, by simp [errOk], rfl⟩

section
variable {s : State}

theorem completes_maplat (hw : OperandsWritten .maplat s.block) (h : checkLat s.block.lat = true) :
    Completes .maplat s [.latFrac] fun t => t.block.latFrac = mapLat s.params.mapArith s.block.lat :=
  completes_of_success hw (by simp [h]) (by simp)

theorem fails_maplat (hw : OperandsWritten .maplat s.block) (h : checkLat s.block.lat = false) :
    Fails .maplat s 1 0 0 0 :=
  fails_of_error (e := .range 0) hw (by simp [h]) rfl

theorem completes_maplng (hw : OperandsWritten .maplng s.block) (h : checkLng s.block.lng = true) :
    Completes .maplng s [.lngFrac] fun t => t.block.lngFrac = mapLng s.params.mapArith s.block.lng :=
  completes_of_success hw (by simp [h]) (by simp)

theorem fails_maplng (hw : OperandsWritten .maplng s.block) (h : checkLng s.block.lng = false) :
    Fails .maplng s 1 1 0 0 :=
  fails_of_error (e := .range 1) hw (by simp [h]) rfl

theorem completes_unmaplat (hw : OperandsWritten .unmaplat s.block) :
    Completes .unmaplat s [.lat] fun t => t.block.lat = unmapLat s.block.latFrac :=
  completes_of_success hw rfl (by simp)

theorem completes_unmaplng (hw : OperandsWritten .unmaplng s.block) :
    Completes .unmaplng s [.lng] fun t => t.block.lng = unmapLng s.block.lngFrac :=
  completes_of_success hw rfl (by simp)

end

/-- Settles O38: both commands in range and out of it, then the listed STATUS words and corner cases evaluated. -/
theorem mapCommands : Obligations.MapCommands :=
  ⟨⟨rfl, rfl⟩, fun _ hw => ⟨completes_maplat hw, fails_maplat hw⟩, fun _ hw => ⟨completes_maplng hw, fails_maplng hw⟩,
    fun _ hs => ⟨exec_of_not_written hs, exec_of_not_written hs⟩,
    fun _ _ hcmd => ⟨reports_iff hcmd (by decide), reports_iff hcmd (by decide)⟩,
    fun _ _ hcmd => ⟨reports_iff hcmd (by decide), reports_iff hcmd (by decide)⟩, by decide +kernel, by decide +kernel⟩

/-- Settles O39: no check can fail; the listed STATUS words and corner cases are evaluated. -/
theorem unmapCommands : Obligations.UnmapCommands :=
  ⟨⟨rfl, rfl⟩, fun _ => completes_unmaplat, fun _ => completes_unmaplng,
    fun _ hs => ⟨exec_of_not_written hs, exec_of_not_written hs⟩, fun _ _ hcmd => reports_iff hcmd (by decide),
    fun _ _ hcmd => reports_iff hcmd (by decide), by decide +kernel, by decide +kernel⟩

/-- The values with exponent field 0 lie between the two largest subnormals. -/
theorem units_of_expField {v : F64} (h : expField v = 0) :
    units 0x800FFFFFFFFFFFFF ≤ units v ∧ units v ≤ units 0x000FFFFFFFFFFFFF := by
  have hmag := natAbs_units_of_expField h
  have hlo : units 0x800FFFFFFFFFFFFF = -(2 ^ 52 - 1) := by decide
  have hhi : units 0x000FFFFFFFFFFFFF = 2 ^ 52 - 1 := by decide
  omega

/-- What lies between two coordinates in range that map to the same fraction is in range, and maps to it too. -/
theorem AxisRange.mapFrac_of_between {W : Nat} {lo hi span u v w : F64} {f : Word} {arith : Config.MapArith}
    (ax : AxisRange W lo hi span) (hu : inRange u lo hi = true) (hw : inRange w lo hi = true)
    (huv : units u ≤ units v) (hvw : units v ≤ units w) (hfu : mapFrac arith u lo span = f)
    (hfw : mapFrac arith w lo span = f) : inRange v lo hi = true ∧ mapFrac arith v lo span = f := by
  have hv : inRange v lo hi = true :=
    ax.inRange_iff.mpr ⟨(ax.inRange_iff.mp hu).1.trans huv, hvw.trans (ax.inRange_iff.mp hw).2⟩
  exact ⟨hv, BitVec.le_antisymm (hfw ▸ ax.mapFrac_mono arith hv hw hvw) (hfu ▸ ax.mapFrac_mono arith hu hv huv)⟩

/-- Settles O31: what is not finite fails the checks, and the subnormals map as the two largest do, between which they
lie. -/
theorem specialValuesMap : Obligations.SpecialValuesMap := by
  refine ⟨fun v h => ⟨latRange.inRange_of_not_finite h, lngRange.inRange_of_not_finite h⟩,
    fun s hw h => fails_maplat hw (latRange.inRange_of_not_finite h),
    fun s hw h => fails_maplng hw (lngRange.inRange_of_not_finite h), ?negativeZero, ?subnormal,
    by decide +kernel, by decide +kernel, by decide +kernel, by decide +kernel⟩
  case negativeZero =>
    exact ⟨by decide +kernel, by decide +kernel, fun arith => by cases arith <;> decide +kernel⟩
  case subnormal =>
    intro v h _
    obtain ⟨hlo, hhi⟩ := units_of_expField h
    obtain ⟨hlat, hmapLat⟩ := latRange.mapFrac_of_between (arith := .binary64) (f := 0x80000000) (by decide +kernel)
      (by decide +kernel) hlo hhi (by decide +kernel) (by decide +kernel)
    obtain ⟨hlng, hmapLng⟩ := lngRange.mapFrac_of_between (arith := .binary64) (f := 0x80000000) (by decide +kernel)
      (by decide +kernel) hlo hhi (by decide +kernel) (by decide +kernel)
    exact ⟨hlat, hlng, hmapLat, hmapLng⟩

/-- The pair leaves LATFRAC as it was (R110). -/
theorem exists_unmaplat_maplat {s : State} (hw : OperandsWritten .unmaplat s.block) :
    ∃ t u, issue (encode .unmaplat) s = .next t ∧ issue (encode .maplat) t = .next u ∧
      statusErr u.block.status = 0 ∧ u.block.latFrac = s.block.latFrac := by
  have hin : checkLat (unmapLat s.block.latFrac) = true := latRange.inRange_unmapFrac _
  have hback : mapLat s.params.mapArith (unmapLat s.block.latFrac) = s.block.latFrac := latRange.mapFrac_unmapFrac _ _
  obtain ⟨t, u, ht, hu, herr, hblock⟩ :=
    exists_issue_issue (j := .maplat) hw rfl (List.Subset.refl _) (by simp [hin])
  exact ⟨t, u, ht, hu, herr, by rw [hblock]; simp [hback]⟩

/-- The pair leaves LNGFRAC as it was (R110). -/
theorem exists_unmaplng_maplng {s : State} (hw : OperandsWritten .unmaplng s.block) :
    ∃ t u, issue (encode .unmaplng) s = .next t ∧ issue (encode .maplng) t = .next u ∧
      statusErr u.block.status = 0 ∧ u.block.lngFrac = s.block.lngFrac := by
  have hin : checkLng (unmapLng s.block.lngFrac) = true := lngRange.inRange_unmapFrac _
  have hback : mapLng s.params.mapArith (unmapLng s.block.lngFrac) = s.block.lngFrac := lngRange.mapFrac_unmapFrac _ _
  obtain ⟨t, u, ht, hu, herr, hblock⟩ :=
    exists_issue_issue (j := .maplng) hw rfl (List.Subset.refl _) (by simp [hin])
  exact ⟨t, u, ht, hu, herr, by rw [hblock]; simp [hback]⟩

/-- Settles O35: unmapping gives the boundary of a cell, whose index is the fraction. -/
theorem mapOfUnmapIsIdentity : Obligations.MapOfUnmapIsIdentity :=
  ⟨fun arith f => ⟨latRange.inRange_unmapFrac f, latRange.mapFrac_unmapFrac arith f, lngRange.inRange_unmapFrac f,
    lngRange.mapFrac_unmapFrac arith f⟩, fun _ => exists_unmaplat_maplat, fun _ => exists_unmaplng_maplng⟩

end Sys2Proof.Machine

/-! The bit interleaver (spec/41_interleave.md): where each bit goes (R132), the inverses (R133), the order of the keys
(R134), and ILV and DILV (R130, R131). -/

namespace Sys2Proof.Machine

open Sys2Proof

section
variable (a b : Word) (k : DWord) {i : Nat}

/-- The latitude bits stand at the even key positions, the longitude bits at the odd ones (R132). -/
theorem interleave_getLsbD_even (hi : i < 32) : (interleave a b).getLsbD (2 * i) = a.getLsbD i := by
  rw [interleave_getLsbD a b (by omega), if_pos (by omega), Nat.mul_div_cancel_left i Nat.two_pos]

theorem interleave_getLsbD_odd (hi : i < 32) : (interleave a b).getLsbD (2 * i + 1) = b.getLsbD i := by
  have hhalf : (2 * i + 1) / 2 = i := by omega
  rw [interleave_getLsbD a b (by omega), if_neg (by omega), hhalf]

/-- The fractions' bits are taken from there (R132). -/
theorem deinterleave_fst_getLsbD (hi : i < 32) : (deinterleave k).1.getLsbD i = k.getLsbD (2 * i) := by
  rw [deinterleave, deinterleaveBits_getLsbD k 0 i 32 le_rfl]
  simp [hi]

theorem deinterleave_snd_getLsbD (hi : i < 32) : (deinterleave k).2.getLsbD i = k.getLsbD (2 * i + 1) := by
  rw [deinterleave, deinterleaveBits_getLsbD k 1 i 32 le_rfl]
  simp [hi]

end

/-- A key bit is decided by the one pair of fraction bits at half its position (R134). -/
theorem interleave_getLsbD_congr {a b c d : Word} {q : Nat} (hq : q < 64) (ha : a.getLsbD (q / 2) = c.getLsbD (q / 2))
    (hb : b.getLsbD (q / 2) = d.getLsbD (q / 2)) : (interleave a b).getLsbD q = (interleave c d).getLsbD q := by
  rw [interleave_getLsbD a b hq, interleave_getLsbD c d hq, ha, hb]

/-- Bit `p` of chunk `j` is key bit 59 - 5j + p, a longitude bit where that position is odd (R132). -/
theorem interleave_chunk_getLsbD (a b : Word) {j p : Nat} (hp : p < 5) :
    ((interleave a b).extractLsb' (59 - 5 * j) 5).getLsbD p =
      if (59 - 5 * j + p) % 2 = 1 then b.getLsbD ((59 - 5 * j + p) / 2) else a.getLsbD ((59 - 5 * j + p) / 2) := by
  rw [BitVec.getLsbD_extractLsb', decide_eq_true hp, Bool.true_and, interleave_getLsbD a b (by omega)]
  rcases Nat.mod_two_eq_zero_or_one (59 - 5 * j + p) with h | h <;> simp [h]

/-- Settles O40: bit by bit. -/
theorem interleaveLayout : Obligations.InterleaveLayout :=
  ⟨fun a b _ hi => ⟨interleave_getLsbD_even a b hi, interleave_getLsbD_odd a b hi⟩,
    fun k _ hi => ⟨deinterleave_fst_getLsbD k hi, deinterleave_snd_getLsbD k hi⟩,
    fun a b _ _ _ hp => interleave_chunk_getLsbD a b hp⟩

/-- Taking the bits back from where they were put gives the fractions (R133). -/
@[simp] theorem deinterleave_interleave (a b : Word) : deinterleave (interleave a b) = (a, b) := by
  refine Prod.ext (BitVec.eq_of_getLsbD_eq fun i hi => ?lat) (BitVec.eq_of_getLsbD_eq fun i hi => ?lng)
  case lat => rw [deinterleave_fst_getLsbD _ hi, interleave_getLsbD_even a b hi]
  case lng => rw [deinterleave_snd_getLsbD _ hi, interleave_getLsbD_odd a b hi]

/-- Every key position is even or odd, so putting the bits back gives the key (R133). -/
@[simp] theorem interleave_deinterleave (k : DWord) : interleave (deinterleave k).1 (deinterleave k).2 = k := by
  refine BitVec.eq_of_getLsbD_eq fun q hq => ?_
  obtain ⟨i, rfl | rfl⟩ := q.even_or_odd'
  · rw [interleave_getLsbD_even _ _ (by omega), deinterleave_fst_getLsbD k (by omega)]
  · rw [interleave_getLsbD_odd _ _ (by omega), deinterleave_snd_getLsbD k (by omega)]

/-- ILV then DILV leaves LATFRAC and LNGFRAC as they were (R133). -/
theorem exists_ilv_dilv {s : State} (hw : OperandsWritten .ilv s.block) :
    ∃ t u, issue (encode .ilv) s = .next t ∧ issue (encode .dilv) t = .next u ∧
      u.block.latFrac = s.block.latFrac ∧ u.block.lngFrac = s.block.lngFrac := by
  obtain ⟨t, u, ht, hu, -, hblock⟩ := exists_issue_issue (j := .dilv) hw rfl (List.Subset.refl _) rfl
  exact ⟨t, u, ht, hu, by simp [hblock], by simp [hblock]⟩

/-- DILV then ILV leaves KEY as it was (R133). -/
theorem exists_dilv_ilv {s : State} (hw : OperandsWritten .dilv s.block) :
    ∃ t u, issue (encode .dilv) s = .next t ∧ issue (encode .ilv) t = .next u ∧ u.block.key = s.block.key := by
  obtain ⟨t, u, ht, hu, -, hblock⟩ := exists_issue_issue (j := .ilv) hw rfl (List.Subset.refl _) rfl
  exact ⟨t, u, ht, hu, by simp [hblock]⟩

/-- Settles O41: bit by bit on the primitives, which the commands' results are. -/
theorem interleaveInverses : Obligations.InterleaveInverses :=
  ⟨deinterleave_interleave, interleave_deinterleave, fun _ => exists_ilv_dilv, fun _ => exists_dilv_ilv⟩

/-- A key bit of the OR is the OR of key bits, at even and at odd positions (R134). -/
theorem interleave_or (a b c d : Word) : interleave (a ||| c) (b ||| d) = interleave a b ||| interleave c d := by
  refine BitVec.eq_of_getLsbD_eq fun q hq => ?_
  rw [BitVec.getLsbD_or, interleave_getLsbD _ _ hq, interleave_getLsbD _ _ hq, interleave_getLsbD _ _ hq]
  split_ifs <;> exact BitVec.getLsbD_or

section
variable {w : Nat} {x y : BitVec w}

/-- The highest bit that differs decides. -/
theorem bitVec_lt_of_getLsbD {q : Nat} (habove : ∀ p, q < p → p < w → x.getLsbD p = y.getLsbD p)
    (hx : x.getLsbD q = false) (hy : y.getLsbD q = true) : x < y := by
  refine BitVec.lt_def.mpr (Nat.lt_of_testBit q hx hy fun p hp => ?_)
  rw [BitVec.testBit_toNat, BitVec.testBit_toNat]
  rcases Nat.lt_or_ge p w with hw | hw
  · exact habove p hp hw
  · rw [BitVec.getLsbD_of_ge x p hw, BitVec.getLsbD_of_ge y p hw]

/-- Two bit vectors that differ have a highest bit that differs, the highest one of their exclusive or. -/
theorem exists_highest_getLsbD_ne (h : x ≠ y) :
    ∃ q < w, (∀ p, q < p → p < w → x.getLsbD p = y.getLsbD p) ∧ x.getLsbD q ≠ y.getLsbD q := by
  have hne : (x ^^^ y).toNat ≠ 0 := by
    rwa [BitVec.toNat_xor, Ne, Nat.xor_eq_zero_iff, BitVec.toNat_inj]
  obtain ⟨q, hq, habove⟩ := Nat.exists_most_significant_bit hne
  refine ⟨q, BitVec.lt_of_getLsbD hq, fun p hp _ => ?agree, ?differ⟩
  case agree => simpa [BitVec.testBit_toNat] using habove p hp
  case differ => simpa [BitVec.testBit_toNat] using hq

/-- Two bit vectors compare as their highest bits that differ. -/
theorem bitVec_lt_iff_getLsbD :
    x < y ↔ ∃ q < w, (∀ p, q < p → p < w → x.getLsbD p = y.getLsbD p) ∧ x.getLsbD q = false ∧ y.getLsbD q = true := by
  constructor
  · intro h
    obtain ⟨q, hq, habove, hdiffer⟩ := exists_highest_getLsbD_ne (BitVec.ne_of_lt h)
    refine ⟨q, hq, habove, ?_⟩
    cases hx : x.getLsbD q with
    | false => exact ⟨rfl, by simpa [hx] using hdiffer⟩
    | true =>
      have hy : y.getLsbD q = false := by simpa [hx] using hdiffer
      have hgt : y < x := bitVec_lt_of_getLsbD (fun p hp hw => (habove p hp hw).symm) hy hx
      exact absurd h (BitVec.lt_asymm hgt)
  · rintro ⟨q, -, habove, hx, hy⟩
    exact bitVec_lt_of_getLsbD habove hx hy

end

/-- Keys compare as their highest pairs (lng, lat) that differ: the highest key bit that differs is the longitude bit of
its pair, or the latitude bit below an equal longitude bit (R134). -/
theorem interleave_lt_iff {a b c d : Word} : interleave a b < interleave c d ↔
    ∃ i < 32, (∀ j, i < j → j < 32 → a.getLsbD j = c.getLsbD j ∧ b.getLsbD j = d.getLsbD j) ∧
      ((b.getLsbD i = false ∧ d.getLsbD i = true) ∨
        (b.getLsbD i = d.getLsbD i ∧ a.getLsbD i = false ∧ c.getLsbD i = true)) := by
  rw [bitVec_lt_iff_getLsbD]
  constructor
  · rintro ⟨q, hq, habove, hkey, hkey'⟩
    have hlat : ∀ j, q < 2 * j → j < 32 → a.getLsbD j = c.getLsbD j := fun j hj hj32 => by
      rw [← interleave_getLsbD_even a b hj32, ← interleave_getLsbD_even c d hj32, habove _ hj (by omega)]
    have hlng : ∀ j, q < 2 * j + 1 → j < 32 → b.getLsbD j = d.getLsbD j := fun j hj hj32 => by
      rw [← interleave_getLsbD_odd a b hj32, ← interleave_getLsbD_odd c d hj32, habove _ hj (by omega)]
    obtain ⟨i, hi⟩ := q.even_or_odd'
    have hi32 : i < 32 := by omega
    refine ⟨i, hi32, fun j hj hj32 => ⟨hlat j (by omega) hj32, hlng j (by omega) hj32⟩, ?_⟩
    rcases hi with rfl | rfl
    · rw [interleave_getLsbD_even _ _ hi32] at hkey hkey'
      exact .inr ⟨hlng i (by omega) hi32, hkey, hkey'⟩
    · rw [interleave_getLsbD_odd _ _ hi32] at hkey hkey'
      exact .inl ⟨hkey, hkey'⟩
  · rintro ⟨i, hi, habove, ⟨hb, hd⟩ | ⟨hlng, ha, hc⟩⟩
    · refine ⟨2 * i + 1, by omega, fun p hp hp64 => ?_, ?_⟩
      · obtain ⟨hlat, hlng⟩ := habove (p / 2) (by omega) (by omega)
        exact interleave_getLsbD_congr hp64 hlat hlng
      · rw [interleave_getLsbD_odd a b hi, interleave_getLsbD_odd c d hi]
        exact ⟨hb, hd⟩
    · refine ⟨2 * i, by omega, fun p hp hp64 => ?_, ?_⟩
      · rcases Nat.eq_or_lt_of_le (Nat.succ_le_of_lt hp) with rfl | hp
        · rw [interleave_getLsbD_odd a b hi, interleave_getLsbD_odd c d hi, hlng]
        · obtain ⟨hlat, hlng⟩ := habove (p / 2) (by omega) (by omega)
          exact interleave_getLsbD_congr hp64 hlat hlng
      · rw [interleave_getLsbD_even a b hi, interleave_getLsbD_even c d hi]
        exact ⟨ha, hc⟩

/-- Settles O42: bit by bit, and the order by the highest key bit that differs. -/
theorem interleaveIsBitwise : Obligations.InterleaveIsBitwise := by
  refine ⟨interleave_or, fun a a' b b' i hi ha hb => ⟨?even, ?odd⟩, fun _ _ _ _ => interleave_lt_iff⟩
  case even => rw [interleave_getLsbD_even a b hi, interleave_getLsbD_even a' b' hi, ha]
  case odd => rw [interleave_getLsbD_odd a b hi, interleave_getLsbD_odd a' b' hi, hb]

theorem completes_ilv {s : State} (hw : OperandsWritten .ilv s.block) :
    Completes .ilv s [.key] fun t => t.block.key = interleave s.block.latFrac s.block.lngFrac :=
  completes_of_success hw rfl (by simp)

theorem completes_dilv {s : State} (hw : OperandsWritten .dilv s.block) :
    Completes .dilv s [.latFrac, .lngFrac] fun t => (t.block.latFrac, t.block.lngFrac) = deinterleave s.block.key :=
  completes_of_success hw rfl (by simp)

/-- Settles O43: no check can fail; the listed STATUS words and corner cases are evaluated. -/
theorem interleaveCommands : Obligations.InterleaveCommands :=
  ⟨⟨rfl, rfl⟩, fun _ => completes_ilv, fun _ => completes_dilv,
    fun _ hs => ⟨exec_of_not_written hs, exec_of_not_written hs⟩, fun _ _ hcmd => reports_iff hcmd (by decide),
    fun _ _ hcmd => reports_iff hcmd (by decide), by decide +kernel, by decide +kernel⟩

end Sys2Proof.Machine

/-! The base-32 codec (spec/42_base32.md): the alphabet (R150), validation (R151), which key bits each character holds
(R153, R154), the laws of the codec (R158), the order of the strings (R159), and K2S, S2K and VALID (R155 to R157). -/

namespace Sys2Proof.Machine

open Sys2Proof

/-- What the search finds is at the index it answers. -/
theorem exists_of_indexFrom_eq_some {c : Byte} {i : BitVec 5} (cs : List Byte) : ∀ n, indexFrom c n cs = some i →
    ∃ (m : Nat) (h : m < cs.length), cs[m] = c ∧ i = BitVec.ofNat 5 (n + m) := by
  induction cs with
  | nil => intro n h; cases h
  | cons x xs ih =>
    intro n h
    by_cases hx : x = c
    · rw [indexFrom, if_pos hx] at h
      exact ⟨0, by simp, hx, (Option.some.inj h).symm⟩
    · rw [indexFrom, if_neg hx] at h
      obtain ⟨m, hm, hc, rfl⟩ := ih (n + 1) h
      exact ⟨m + 1, by simpa using hm, hc, by rw [Nat.add_right_comm, Nat.add_assoc]⟩

/-- The search fails exactly on the bytes that the list does not hold. -/
theorem isSome_indexFrom_iff {c : Byte} (cs : List Byte) : ∀ n, (indexFrom c n cs).isSome = true ↔ c ∈ cs := by
  induction cs with
  | nil => intro n; simp [indexFrom]
  | cons x xs ih =>
    intro n
    by_cases hx : x = c
    · simp [indexFrom, hx]
    · simp [indexFrom, hx, ih, Ne.symm hx]

/-- Every index is one of the alphabet's (R150). -/
theorem alphab_eq_getElem (i : BitVec 5) : alphab i = alphabet[i.toNat]'i.isLt :=
  List.getD_eq_getElem alphabet 0 i.isLt

/-- INDEXB inverts ALPHAB, whose 32 bytes differ (R150). -/
@[simp] theorem indexb_alphab (i : BitVec 5) : indexb (alphab i) = some i := by
  revert i
  decide

/-- ALPHAB inverts INDEXB on the valid characters (R150). -/
theorem alphab_of_indexb {c : Byte} {i : BitVec 5} (h : indexb c = some i) : alphab i = c := by
  obtain ⟨m, hm, hc, rfl⟩ := exists_of_indexFrom_eq_some alphabet 0 h
  have hidx : (BitVec.ofNat 5 (0 + m)).toNat = m := by rw [Nat.zero_add]; exact Nat.mod_eq_of_lt hm
  simp only [alphab_eq_getElem, hidx, hc]

/-- The byte codes are those of the digits, and of the letters from b to z without i, l and o (R150). -/
theorem alphabet_codes : alphabet.map BitVec.toNat =
    List.range' 0x30 10 ++ (List.range' 0x62 25).filter (· ∉ [0x69, 0x6C, 0x6F]) := by
  decide

theorem mem_alphabet_iff {c : Byte} : c ∈ alphabet ↔ (0x30 ≤ c.toNat ∧ c.toNat ≤ 0x39) ∨
    (0x62 ≤ c.toNat ∧ c.toNat ≤ 0x7A ∧ c.toNat ≠ 0x69 ∧ c.toNat ≠ 0x6C ∧ c.toNat ≠ 0x6F) := by
  rw [← List.mem_map_of_injective BitVec.toNat_injective, alphabet_codes]
  simp [Nat.lt_succ_iff, and_assoc]

/-- Settles O44: the two inverses, and the alphabet's codes as ranges. -/
theorem alphabetBytes : Obligations.AlphabetBytes :=
  ⟨by decide, indexb_alphab, fun _ => (isSome_indexFrom_iff alphabet 0).trans mem_alphabet_iff,
    fun _ _ => alphab_of_indexb⟩

theorem alphab_inj {i j : BitVec 5} : alphab i = alphab j ↔ i = j := by
  refine ⟨fun h => ?_, congrArg alphab⟩
  have hsome : some i = some j := by rw [← indexb_alphab i, h, indexb_alphab]
  exact Option.some.inj hsome

/-- The byte codes increase with the index (R159). -/
theorem alphab_lt_alphab {i j : BitVec 5} (h : i < j) : alphab i < alphab j := by
  have hsorted : alphabet.Pairwise (· < ·) := by decide
  rw [alphab_eq_getElem, alphab_eq_getElem]
  exact List.pairwise_iff_getElem.mp hsorted _ _ i.isLt j.isLt h

theorem alphab_lt_iff {i j : BitVec 5} : alphab i < alphab j ↔ i < j := by
  refine ⟨fun h => ?_, alphab_lt_alphab⟩
  rcases BitVec.lt_trichotomy i j with hlt | rfl | hgt
  · exact hlt
  · exact absurd h (BitVec.lt_irrefl _)
  · exact absurd h (BitVec.lt_asymm (alphab_lt_alphab hgt))

/-- `ok` is every byte valid (R151). -/
theorem validate_eq_none_iff {h : Chars} : validate h = none ↔ ∀ j, (hj : j < 12) → indexb h[j] ≠ none := by
  rw [validate, firstInvalid_eq_none_iff]
  constructor
  · intro hall j hj
    exact hall _ (Vector.mem_toList_iff.mpr (Vector.getElem_mem hj))
  · intro hall c hc
    obtain ⟨j, hj, rfl⟩ := Vector.mem_iff_getElem.mp (Vector.mem_toList_iff.mp hc)
    exact hall j hj

/-- Otherwise the first byte that is not, with its index (R151). -/
theorem validate_eq_some_iff {h : Chars} {j : BitVec 4} {c : Byte} : validate h = some (j, c) ↔
    ∃ hj : j.toNat < 12, h[j.toNat] = c ∧ indexb c = none ∧ ∀ k, (hk : k < j.toNat) → indexb h[k] ≠ none := by
  rw [validate, firstInvalid_eq_some_iff]
  constructor
  · rintro ⟨k, hk, hjc, hn, hfirst⟩
    obtain ⟨rfl, rfl⟩ := Prod.mk.inj hjc
    have hk12 : k < 12 := by simpa using hk
    have hidx : (BitVec.ofNat 4 (0 + k)).toNat = k := by rw [Nat.zero_add, BitVec.toNat_ofNat]; omega
    simp only [hidx]
    exact ⟨hk12, rfl, hn, hfirst⟩
  · rintro ⟨hj, rfl, hn, hfirst⟩
    exact ⟨j.toNat, by rwa [Vector.length_toList], by simp, hn, hfirst⟩

/-- Settles O45: by what `validate`'s loop answers. -/
theorem validateReportsFirstInvalid : Obligations.ValidateReportsFirstInvalid :=
  ⟨fun _ => validate_eq_none_iff, fun _ _ _ => validate_eq_some_iff⟩

/-- Chunk m ends where the first m + 1 chunks end, and begins where the first m do. -/
theorem chunk_bounds {m : Nat} (hm : m < 12) : 64 - 5 * (m + 1) = 59 - 5 * m ∧ 59 - 5 * m + 5 = 64 - 5 * m := by
  have h59 : 5 * m ≤ 59 := by omega
  exact ⟨by rw [Nat.mul_succ, Nat.add_comm, Nat.sub_add_eq], (Nat.sub_add_comm h59).symm⟩

section
variable {k l : DWord}

/-- Keys agree from bit n up where they do from bit n + 5 up, and on the chunk between. -/
theorem ushiftRight_eq_iff_chunk (n : Nat) :
    k >>> n = l >>> n ↔ k >>> (n + 5) = l >>> (n + 5) ∧ k.extractLsb' n 5 = l.extractLsb' n 5 := by
  simp only [← BitVec.toNat_inj, BitVec.toNat_ushiftRight, BitVec.extractLsb'_toNat, Nat.shiftRight_eq_div_pow, pow_add,
    ← Nat.div_div_eq_div_mul]
  exact Nat.ext_div_mod_iff (2 ^ 5) _ _

/-- Keys compare from bit n up as they do from bit n + 5 up, then as the chunk between. -/
theorem ushiftRight_lt_iff_chunk (n : Nat) : k >>> n < l >>> n ↔
    k >>> (n + 5) < l >>> (n + 5) ∨ k >>> (n + 5) = l >>> (n + 5) ∧ k.extractLsb' n 5 < l.extractLsb' n 5 := by
  simp only [BitVec.lt_def, ← BitVec.toNat_inj, BitVec.toNat_ushiftRight, BitVec.extractLsb'_toNat, Nat.shiftRight_add]
  omega

/-- The first m chunks are bits [63:64-5m]. -/
theorem ushiftRight_eq_iff_chunks {m : Nat} (hm : m ≤ 12) : k >>> (64 - 5 * m) = l >>> (64 - 5 * m) ↔
    ∀ j < m, k.extractLsb' (59 - 5 * j) 5 = l.extractLsb' (59 - 5 * j) 5 := by
  induction m with
  | zero => simp [BitVec.ushiftRight_eq_zero]
  | succ m ih =>
    obtain ⟨hlow, hhigh⟩ := chunk_bounds hm
    rw [hlow, ushiftRight_eq_iff_chunk, hhigh, ih (Nat.le_of_succ_le hm), Nat.forall_lt_succ_right]

/-- Bits [63:64-5m] compare as the first chunk that differs. -/
theorem ushiftRight_lt_iff_chunks {m : Nat} (hm : m ≤ 12) : k >>> (64 - 5 * m) < l >>> (64 - 5 * m) ↔
    ∃ j < m, (∀ i < j, k.extractLsb' (59 - 5 * i) 5 = l.extractLsb' (59 - 5 * i) 5) ∧
      k.extractLsb' (59 - 5 * j) 5 < l.extractLsb' (59 - 5 * j) 5 := by
  induction m with
  | zero => simp [BitVec.ushiftRight_eq_zero]
  | succ m ih =>
    obtain ⟨hlow, hhigh⟩ := chunk_bounds hm
    rw [hlow, ushiftRight_lt_iff_chunk, hhigh, ih (Nat.le_of_succ_le hm), Nat.exists_lt_succ_right,
      ushiftRight_eq_iff_chunks (Nat.le_of_succ_le hm)]

end

/-- The strings share their first m characters exactly where the keys share bits [63:64-5m] (R159). -/
theorem keyToString_prefix_iff {k l : DWord} {m : Nat} (hm : m ≤ 12) :
    (∀ j, (h : j < 12) → j < m → (keyToString k)[j] = (keyToString l)[j]) ↔
      k >>> (64 - 5 * m) = l >>> (64 - 5 * m) := by
  rw [ushiftRight_eq_iff_chunks hm]
  simp only [keyToString_getElem, alphab_inj]
  exact ⟨fun h j hj => h j (by omega) hj, fun h j _ hj => h j hj⟩

/-- Key bits [3:0] affect no character (R153). -/
theorem keyToString_congr {k l : DWord} (h : k >>> 4 = l >>> 4) : keyToString k = keyToString l :=
  Vector.ext fun j hj => (keyToString_prefix_iff (Nat.le_refl 12)).mpr h j hj hj

/-- Every character is valid (R153). -/
@[simp] theorem validate_keyToString (k : DWord) : validate (keyToString k) = none :=
  validate_eq_none_iff.mpr fun j hj => by simp [keyToString_getElem k j hj]

/-- Settles O46: each character by the loop's invariant; the other two clauses follow. -/
theorem keyToStringChunks : Obligations.KeyToStringChunks :=
  ⟨keyToString_getElem, fun _ _ => keyToString_congr, fun k => validate_eq_none_iff.mp (validate_keyToString k)⟩

/-- Bits that are moved up stand that much higher. -/
theorem extractLsb'_shiftLeft (x : DWord) {n p len : Nat} (h : p + n + len ≤ 64) :
    (x <<< n).extractLsb' (p + n) len = x.extractLsb' p len := by
  refine BitVec.eq_of_getLsbD_eq fun i hi => ?_
  have h64 : p + n + i < 64 := by omega
  have hn : ¬ p + n + i < n := by omega
  have hsub : p + n + i - n = p + i := by omega
  simp only [BitVec.getLsbD_extractLsb', BitVec.getLsbD_shiftLeft, h64, hn, hsub, decide_true, decide_false,
    Bool.not_false, Bool.true_and]

/-- One turn of `stringToKey`'s loop puts the index at bits [4:0] (R154) … -/
theorem shiftLeft_or_chunk_zero (r : DWord) (i : BitVec 5) :
    ((r <<< 5) ||| BitVec.setWidth 64 i).extractLsb' 0 5 = i := by
  refine BitVec.eq_of_getLsbD_eq fun p hp => ?_
  have hp64 : p < 64 := by omega
  simp [hp, hp64]

/-- … and moves the earlier chunks up. -/
theorem shiftLeft_or_chunk_succ (r : DWord) (i : BitVec 5) {p : Nat} (hp : p + 5 + 5 ≤ 64) :
    ((r <<< 5) ||| BitVec.setWidth 64 i).extractLsb' (p + 5) 5 = r.extractLsb' p 5 := by
  have hindex : i.extractLsb' (p + 5) 5 = 0#5 := BitVec.eq_of_getLsbD_eq fun q _ => by
    rw [BitVec.getLsbD_extractLsb', BitVec.getLsbD_of_ge i _ (by omega), Bool.and_false, BitVec.getLsbD_zero]
  rw [BitVec.extractLsb'_or, BitVec.extractLsb'_setWidth_of_le hp, hindex, BitVec.or_zero, extractLsb'_shiftLeft r hp]

/-- The loop's result holds the index of character j at the j-th chunk from its top. -/
theorem stringAccumulate_chunk (r : DWord) (cs : List Byte) : ∀ {p j : Nat} (hj : j < cs.length),
    p + 5 * (j + 1) = 5 * cs.length → p + 5 ≤ 64 → (stringAccumulate r cs).extractLsb' p 5 = (indexb cs[j]).getD 0 := by
  induction cs using List.reverseRecOn with
  | nil => intro p j hj; cases hj
  | append_singleton cs c ih =>
    intro p j hj hpos hp
    rw [stringAccumulate_snoc]
    rw [List.length_append, List.length_singleton] at hj hpos
    rcases Nat.lt_succ_iff_lt_or_eq.mp hj with hlt | rfl
    · obtain ⟨p, rfl⟩ : ∃ q, p = q + 5 := ⟨p - 5, by omega⟩
      rw [shiftLeft_or_chunk_succ _ _ hp, ih hlt (by omega) (by omega), List.getElem_append_left hlt]
    · obtain rfl : p = 0 := by omega
      rw [shiftLeft_or_chunk_zero, List.getElem_concat_length rfl]

/-- Chunk j of the result is the index of character j: the final shift moves the loop's chunks up by 4 (R154). -/
theorem stringToKey_chunk (h : Chars) {j : Nat} (hj : j < 12) :
    (stringToKey h).extractLsb' (59 - 5 * j) 5 = (indexb h[j]).getD 0 := by
  have hlen : h.toList.length = 12 := Vector.length_toList
  obtain ⟨p, hp⟩ : ∃ p, 5 * j + p = 55 := Nat.le.dest (by omega)
  have hpos : 59 - 5 * j = p + 4 := by omega
  rw [stringToKey, hpos, extractLsb'_shiftLeft _ (by omega),
    stringAccumulate_chunk 0 h.toList (j := j) (by omega) (by omega) (by omega), Vector.getElem_toList]

/-- The index of every character of a string that validates (R154). -/
theorem indexb_eq_chunk {h : Chars} (hv : validate h = none) {j : Nat} (hj : j < 12) :
    indexb h[j] = some ((stringToKey h).extractLsb' (59 - 5 * j) 5) := by
  obtain ⟨i, hi⟩ := Option.ne_none_iff_exists'.mp (validate_eq_none_iff.mp hv j hj)
  rw [stringToKey_chunk h hj, hi, Option.getD_some]

/-- The final shift leaves the low 4 bits zero (R154), so that clearing them changes nothing. -/
theorem stringToKey_and_mask (h : Chars) : stringToKey h &&& (0xFFFFFFFFFFFFFFF0 : DWord) = stringToKey h :=
  (BitVec.and_comm _ _).trans (BitVec.allOnes_shiftLeft_and_shiftLeft (n := 4))

theorem stringToKey_and_low (h : Chars) : stringToKey h &&& 0xF = 0 := by
  rw [← stringToKey_and_mask, BitVec.and_assoc]
  exact BitVec.and_zero

/-- Settles O47: each chunk by the loop's invariant, and the low bits by the final shift. -/
theorem stringToKeyChunks : Obligations.StringToKeyChunks := by
  refine fun h hv => ⟨fun j => indexb_eq_chunk hv, BitVec.eq_of_getLsbD_eq fun p hp => ?low⟩
  case low => simp [stringToKey, hp]

/-- Clearing the low 4 bits is moving them out and zeros in. -/
theorem and_mask_eq_shifts (k : DWord) : k &&& (0xFFFFFFFFFFFFFFF0 : DWord) = k >>> 4 <<< 4 :=
  (BitVec.shiftLeft_ushiftRight (x := k) (n := 4)).symm

/-- Each chunk of the key comes back, and the low 4 bits come back zero (R158). -/
@[simp] theorem stringToKey_keyToString (k : DWord) : stringToKey (keyToString k) = k &&& 0xFFFFFFFFFFFFFFF0 := by
  have hhigh : stringToKey (keyToString k) >>> 4 = k >>> 4 := by
    refine (ushiftRight_eq_iff_chunks (Nat.le_refl 12)).mpr fun j hj => ?_
    rw [stringToKey_chunk _ hj, keyToString_getElem k j hj, indexb_alphab, Option.getD_some]
  calc stringToKey (keyToString k) = stringToKey (keyToString k) &&& (0xFFFFFFFFFFFFFFF0 : DWord) :=
        (stringToKey_and_mask _).symm
    _ = stringToKey (keyToString k) >>> 4 <<< 4 := and_mask_eq_shifts _
    _ = k >>> 4 <<< 4 := by rw [hhigh]
    _ = k &&& 0xFFFFFFFFFFFFFFF0 := (and_mask_eq_shifts k).symm

/-- Each valid character comes back (R158). -/
theorem keyToString_stringToKey {h : Chars} (hv : validate h = none) : keyToString (stringToKey h) = h :=
  Vector.ext fun j hj => (keyToString_getElem _ j hj).trans (alphab_of_indexb (indexb_eq_chunk hv hj))

section
variable {s : State}

/-- K2S then S2K clears the low 4 bits of KEY (R158). -/
theorem exists_k2s_s2k (hw : OperandsWritten .k2s s.block) :
    ∃ t u, issue (encode .k2s) s = .next t ∧ issue (encode .s2k) t = .next u ∧
      u.block.key = s.block.key &&& 0xFFFFFFFFFFFFFFF0 := by
  obtain ⟨t, u, ht, hu, -, hblock⟩ := exists_issue_issue (j := .s2k) hw rfl (List.Subset.refl _) (by simp)
  exact ⟨t, u, ht, hu, by simp [hblock]⟩

/-- S2K then K2S restores HASH (R158). -/
theorem exists_s2k_k2s (hw : OperandsWritten .s2k s.block) (hv : validate s.block.hash = none) :
    ∃ t u, issue (encode .s2k) s = .next t ∧ issue (encode .k2s) t = .next u ∧ u.block.hash = s.block.hash := by
  obtain ⟨t, u, ht, hu, -, hblock⟩ := exists_issue_issue (j := .k2s) hw (by simp [hv]) (List.Subset.refl _) rfl
  exact ⟨t, u, ht, hu, by simp [hblock, keyToString_stringToKey hv]⟩

/-- VALID after K2S reports success (R158). -/
theorem exists_k2s_valid (hw : OperandsWritten .k2s s.block) :
    ∃ t u, issue (encode .k2s) s = .next t ∧ issue (encode .valid) t = .next u ∧ u.block.status = 0x80090000 := by
  obtain ⟨t, u, ht, hu, -, hblock⟩ := exists_issue_issue (j := .valid) hw rfl (List.Subset.refl _) (by simp)
  have hword : statusWord (opcodeField (encode .valid)) errOk 0 0 0 = 0x80090000 := by decide
  exact ⟨t, u, ht, hu, by rw [hblock, Block.ok_status, results_cmd, hword]⟩

end

/-- Settles O48: the laws on the primitives, which the commands' results are. -/
theorem codecLaws : Obligations.CodecLaws :=
  ⟨stringToKey_keyToString, fun _ => keyToString_stringToKey, validate_keyToString, fun _ => exists_k2s_s2k,
    fun _ => exists_s2k_k2s, fun _ => exists_k2s_valid⟩

/-- The order of the strings is the order of key bits [63:4] (R159): the first character that differs is the first chunk
that differs. -/
theorem keyToString_lt_iff {k l : DWord} : (keyToString k).toList < (keyToString l).toList ↔ k >>> 4 < l >>> 4 := by
  refine Iff.trans ?_ (ushiftRight_lt_iff_chunks (Nat.le_refl 12)).symm
  simp only [List.lt_iff_exists, Vector.length_toList, Vector.getElem_toList, keyToString_getElem, alphab_inj, alphab_lt_iff,
    Nat.lt_irrefl, and_false, false_or, exists_prop, and_self_left]

/-- Settles O49: prefixes by the chunks that the characters encode, the order by the first that differs. -/
theorem stringOrderIsKeyOrder : Obligations.StringOrderIsKeyOrder :=
  ⟨fun _ _ _ => keyToString_prefix_iff, fun _ _ => alphab_lt_alphab, fun _ _ => keyToString_lt_iff⟩

section
variable {s : State} {j : BitVec 4} {c : Byte}

theorem completes_k2s (hw : OperandsWritten .k2s s.block) :
    Completes .k2s s [.hash] fun t => t.block.hash = keyToString s.block.key :=
  completes_of_success hw rfl (by simp)

theorem completes_s2k (hw : OperandsWritten .s2k s.block) (hv : validate s.block.hash = none) :
    Completes .s2k s [.key] fun t => t.block.key = stringToKey s.block.hash ∧ t.block.key &&& 0xF = 0 :=
  completes_of_success hw (by simp [hv]) ⟨rfl, stringToKey_and_low _⟩

theorem completes_valid (hw : OperandsWritten .valid s.block) (hv : validate s.block.hash = none) :
    Completes .valid s [] fun t => t.block.hash = s.block.hash :=
  completes_of_success hw (by simp [hv]) rfl

theorem fails_s2k (hw : OperandsWritten .s2k s.block) (hv : validate s.block.hash = some (j, c)) :
    Fails .s2k s 2 0 j c :=
  fails_of_error (e := .invalidCharacter j c) hw (by simp [hv]) rfl

theorem fails_valid (hw : OperandsWritten .valid s.block) (hv : validate s.block.hash = some (j, c)) :
    Fails .valid s 2 0 j c :=
  fails_of_error (e := .invalidCharacter j c) hw (by simp [hv]) rfl

end

/-- Settles O50: no check can fail; the listed STATUS word and corner cases are evaluated. -/
theorem k2sCommand : Obligations.K2sCommand :=
  ⟨rfl, fun _ => completes_k2s, fun _ => exec_of_not_written, fun _ _ hcmd => reports_iff hcmd (by decide),
    by decide⟩

/-- Settles O51: what `validate` answers decides; the listed STATUS words and corner cases are evaluated. -/
theorem s2kCommand : Obligations.S2kCommand :=
  ⟨rfl, fun _ => completes_s2k, fun _ _ _ => fails_s2k, fun _ => exec_of_not_written,
    fun _ _ hcmd => ⟨reports_iff hcmd (by decide), reports_iff hcmd (by decide)⟩, by decide⟩

/-- Settles O52: what `validate` answers decides; the listed STATUS words and corner cases are evaluated. -/
theorem validCommand : Obligations.ValidCommand :=
  ⟨rfl, fun _ => completes_valid, fun _ _ _ => fails_valid, fun _ => exec_of_not_written,
    fun _ _ hcmd => ⟨reports_iff hcmd (by decide), reports_iff hcmd (by decide), reports_iff hcmd (by decide),
      reports_iff hcmd (by decide)⟩, by decide⟩

end Sys2Proof.Machine

/-! What a command word that completes leaves, as an equation: the command's results, with CMD and STATUS beside them
(spec/30_encoding.md R82, spec/10_state.md R30). No command looks at CMD or STATUS for its results, so a sequence of commands
leaves the results of its parts, one on the other. -/

namespace Sys2Proof.Machine

open Sys2Proof

/-- The block with this CMD and STATUS. -/
def Block.withReport (b : Block) (w status : Word) : Block := { b with cmd := w, status := status }

/-- The machine after a CMD write of the command `i` whose checks find no error (R82, R201). -/
def State.completed (s : State) (i : Instr) : State :=
  { s with
    block := (results s.params.mapArith i s.block).withReport (encode i)
      (statusWord (opcodeField (encode i)) errOk 0 0 0) }

section
variable (b : Block) (w status : Word)

@[simp] theorem Block.withReport_cmd : (b.withReport w status).cmd = w := by rfl
@[simp] theorem Block.withReport_status : (b.withReport w status).status = status := by rfl
@[simp] theorem Block.withReport_lat : (b.withReport w status).lat = b.lat := by rfl
@[simp] theorem Block.withReport_lng : (b.withReport w status).lng = b.lng := by rfl
@[simp] theorem Block.withReport_latFrac : (b.withReport w status).latFrac = b.latFrac := by rfl
@[simp] theorem Block.withReport_lngFrac : (b.withReport w status).lngFrac = b.lngFrac := by rfl
@[simp] theorem Block.withReport_key : (b.withReport w status).key = b.key := by rfl
@[simp] theorem Block.withReport_hash : (b.withReport w status).hash = b.hash := by rfl
@[simp] theorem Block.withReport_marks : (b.withReport w status).marks = b.marks := by rfl
@[simp] theorem Block.withReport_withReport (w' status' : Word) :
    (b.withReport w status).withReport w' status' = b.withReport w' status' := by rfl
@[simp] theorem Block.withReport_written (o n : Nat) : (b.withReport w status).written o n = b.written o n := by rfl
@[simp] theorem Block.withReport_ok :
    (b.withReport w status).ok = b.withReport w (statusWord (opcodeField w) errOk 0 0 0) := by rfl

@[simp] theorem checkError_withReport (i : Instr) : checkError i (b.withReport w status) = checkError i b := by
  cases i <;> rfl

/-- Reporting before a register is written is reporting after it. -/
@[simp] theorem Block.writeLat_withReport (v : F64) :
    (b.withReport w status).writeLat v = (b.writeLat v).withReport w status := by rfl
@[simp] theorem Block.writeLng_withReport (v : F64) :
    (b.withReport w status).writeLng v = (b.writeLng v).withReport w status := by rfl
@[simp] theorem Block.writeLatFrac_withReport (v : Word) :
    (b.withReport w status).writeLatFrac v = (b.writeLatFrac v).withReport w status := by rfl
@[simp] theorem Block.writeLngFrac_withReport (v : Word) :
    (b.withReport w status).writeLngFrac v = (b.writeLngFrac v).withReport w status := by rfl
@[simp] theorem Block.writeKey_withReport (v : DWord) :
    (b.withReport w status).writeKey v = (b.writeKey v).withReport w status := by rfl
@[simp] theorem Block.writeHash_withReport (v : Chars) :
    (b.withReport w status).writeHash v = (b.writeHash v).withReport w status := by rfl

@[simp] theorem results_withReport (arith : Config.MapArith) (i : Instr) :
    results arith i (b.withReport w status) = (results arith i b).withReport w status := by
  cases i <;> simp [Block.writeEncoded, Block.writeDecoded]

end

theorem State.storeCmd_block (s : State) (w : Word) :
    (s.storeCmd w).block = s.block.withReport w s.block.status := by rfl

section
variable {i j : Instr} {s : State}

/-- A command word whose operands are written and whose checks find no error completes. -/
theorem issue_eq_completed (hw : OperandsWritten i s.block) (h : checkError i s.block = none) :
    issue (encode i) s = .next (s.completed i) := by
  rw [issue_of_success hw h, State.storeCmd_block, results_withReport, Block.withReport_ok, State.completed]

/-- One whose checks find an error raises it (R201). -/
theorem issue_of_error {e : CommandError} (hw : OperandsWritten i s.block) (h : checkError i s.block = some e) :
    issue (encode i) s = .next { s with block := (s.storeCmd (encode i)).block.raise e } := by
  have hc : checkError i (s.storeCmd (encode i)).block = some e := by rwa [checkError_storeCmd]
  rw [issue_encode, exec_of_written (operandsWritten_storeCmd.mpr hw), effect_of_checkError_some hc]
  rfl

@[simp] theorem State.completed_params : (s.completed i).params = s.params := by rfl

@[simp] theorem State.completed_block : (s.completed i).block = (results s.params.mapArith i s.block).withReport (encode i)
    (statusWord (opcodeField (encode i)) errOk 0 0 0) := by rfl

/-- A completed command has written its results, and clears no mark (R34). -/
theorem written_completed {r : DataReg} (h : r ∈ writes i ∨ s.block.written r.offset r.bytes = true) :
    (s.completed i).block.written r.offset r.bytes = true := by
  have hregs := writesRegs_results s.params.mapArith i s.block
  rw [State.completed_block, Block.withReport_written]
  rcases h with hmem | hw
  · exact hregs.written hmem
  · rw [Block.written_iff] at hw ⊢
    exact fun k hk => hregs.keepsMarks _ (hw k hk)

theorem operandsWritten_completed (h : ∀ r ∈ reads j, r ∈ writes i ∨ s.block.written r.offset r.bytes = true) :
    OperandsWritten j (s.completed i).block :=
  fun r hr => written_completed (h r hr)

end

end Sys2Proof.Machine

/-! The interleaver and the mapper on the keys that DEC makes, whose low 4 bits are 0 (spec/43_composed.md R181): each
fraction has lost its low 2 bits, so each coordinate up to 3 cells more than by mapping (R184). -/

namespace Sys2Proof.Machine

open Sys2Proof Sys2Proof.Machine.Float64

/-- Deinterleaving is bitwise. -/
theorem deinterleave_and (k l : DWord) : deinterleave (k &&& l) =
    ((deinterleave k).1 &&& (deinterleave l).1, (deinterleave k).2 &&& (deinterleave l).2) := by
  refine Prod.ext (BitVec.eq_of_getLsbD_eq fun i hi => ?lat) (BitVec.eq_of_getLsbD_eq fun i hi => ?lng)
  case lat => simp only [deinterleave_fst_getLsbD _ hi, BitVec.getLsbD_and]
  case lng => simp only [deinterleave_snd_getLsbD _ hi, BitVec.getLsbD_and]

/-- The low 4 bits of a key are the low 2 bits of each fraction. -/
theorem deinterleave_and_mask (k : DWord) : deinterleave (k &&& 0xFFFFFFFFFFFFFFF0#64) =
    ((deinterleave k).1 &&& 0xFFFFFFFC, (deinterleave k).2 &&& 0xFFFFFFFC) := by
  have hmask : deinterleave 0xFFFFFFFFFFFFFFF0#64 = (0xFFFFFFFC, 0xFFFFFFFC) := by decide +kernel
  rw [deinterleave_and, hmask]

theorem deinterleave_stringToKey_and_low (h : Chars) :
    (deinterleave (stringToKey h)).1 &&& 0x3 = 0 ∧ (deinterleave (stringToKey h)).2 &&& 0x3 = 0 := by
  have hlow : deinterleave 0xF = (0x3, 0x3) := by decide +kernel
  have hzero : deinterleave (stringToKey h &&& 0xF) = (0, 0) := by rw [stringToKey_and_low]; decide +kernel
  rw [deinterleave_and, hlow] at hzero
  exact Prod.mk.inj hzero

/-- Clearing the low 2 bits of a fraction makes it smaller by at most 3. -/
theorem toNat_and_mask (f : Word) : (f &&& 0xFFFFFFFC).toNat ≤ f.toNat ∧ f.toNat ≤ (f &&& 0xFFFFFFFC).toNat + 3 := by
  have hshift : f &&& (0xFFFFFFFC : Word) = f >>> 2 <<< 2 := (BitVec.shiftLeft_ushiftRight (x := f) (n := 2)).symm
  have hf := f.isLt
  rw [hshift, BitVec.toNat_shiftLeft, BitVec.toNat_ushiftRight, Nat.shiftLeft_eq, Nat.shiftRight_eq_div_pow]
  omega

section
variable {W : Nat} {lo hi span v : F64} (ax : AxisRange W lo hi span)
include ax

/-- The error of unmapping a mapped coordinate, under either arithmetic: at most 2^-43 below, at most a cell above
(R111). -/
theorem AxisRange.map_error (arith : Config.MapArith) (h : inRange v lo hi = true) :
    -(one : Int) ≤ 2 ^ 43 * (units v - units (unmapFrac (mapFrac arith v lo span) lo span)) ∧
      units v - units (unmapFrac (mapFrac arith v lo span) lo span) ≤ (cellWidth W : Int) := by
  constructor
  · cases arith with
    | binary64 => exact (ax.binary64_error h).1
    | exact =>
      have hpos := (ax.exact_error h).1
      omega
  · have hcell := (ax.offset_le_succ arith h).1
    rw [ax.units_sub_unmapFrac arith h]
    omega

/-- A fraction whose low 2 bits are cleared is unmapped to at most 3 cells below. -/
theorem AxisRange.unmapFrac_and_mask (f : Word) :
    units (unmapFrac (f &&& 0xFFFFFFFC) lo span) ≤ units (unmapFrac f lo span) ∧
      units (unmapFrac f lo span) ≤ units (unmapFrac (f &&& 0xFFFFFFFC) lo span) + 3 * (cellWidth W : Int) := by
  obtain ⟨hle, hge⟩ := toNat_and_mask f
  have hcells := Nat.mul_le_mul_right (cellWidth W) hle
  have hcells' := Nat.mul_le_mul_right (cellWidth W) hge
  have hf := ax.units_unmapFrac f
  have hg := ax.units_unmapFrac (f &&& 0xFFFFFFFC)
  rw [Nat.add_mul] at hcells'
  omega

/-- Value first, through the string (R184): the two errors added are at most 4 cells. -/
theorem AxisRange.string_error (arith : Config.MapArith) (h : inRange v lo hi = true) :
    -(one : Int) ≤ 2 ^ 43 * (units v - units (unmapFrac (mapFrac arith v lo span &&& 0xFFFFFFFC) lo span)) ∧
      2 ^ 30 * (units v - units (unmapFrac (mapFrac arith v lo span &&& 0xFFFFFFFC) lo span)) ≤
        ((2 * W : Nat) : Int) * (one : Int) := by
  obtain ⟨hlo, hhi⟩ := ax.map_error arith h
  obtain ⟨hle, hge⟩ := ax.unmapFrac_and_mask (mapFrac arith v lo span)
  rw [natCast_span_eq_cells]
  omega

/-- The highest coordinate comes back from 4 cells below (R184), which is more than the bound without the string. -/
theorem AxisRange.string_error_of_max (hmax : units v = ((W * one : Nat) : Int)) :
    2 ^ 30 * (units v - units (unmapFrac 0xFFFFFFFC lo span)) = ((2 * W : Nat) : Int) * (one : Int) ∧
      ((2 * W : Nat) : Int) * (one : Int) < 2 ^ 32 * (units v - units (unmapFrac 0xFFFFFFFC lo span)) := by
  have hpos := ax.cellWidth_pos
  have hspan := span_eq_cells W
  have hunits := ax.units_unmapFrac 0xFFFFFFFC
  have hnat : (0xFFFFFFFC : Word).toNat = 2 ^ 32 - 4 := rfl
  rw [Nat.mul_assoc] at hspan
  rw [hnat] at hunits
  rw [natCast_span_eq_cells]
  omega

end

/-- What is unmapped is in range and maps back (R110), on each axis. -/
@[simp] theorem checkLat_unmapLat (f : Word) : checkLat (unmapLat f) = true := latRange.inRange_unmapFrac f
@[simp] theorem checkLng_unmapLng (f : Word) : checkLng (unmapLng f) = true := lngRange.inRange_unmapFrac f
@[simp] theorem mapLat_unmapLat (arith : Config.MapArith) (f : Word) : mapLat arith (unmapLat f) = f :=
  latRange.mapFrac_unmapFrac arith f
@[simp] theorem mapLng_unmapLng (arith : Config.MapArith) (f : Word) : mapLng arith (unmapLng f) = f :=
  lngRange.mapFrac_unmapFrac arith f

end Sys2Proof.Machine

/-! ENC, DEC and NOP (spec/43_composed.md R180, R181, R182). -/

namespace Sys2Proof.Machine

open Sys2Proof

section
variable {b : Block}

theorem checkError_enc_of_inRange (hlat : checkLat b.lat = true) (hlng : checkLng b.lng = true) :
    checkError .enc b = none := by
  simp [hlat, hlng]

theorem checkError_dec_of_valid (hv : validate b.hash = none) : checkError .dec b = none := by
  simp [hv]

end

section
variable {s : State} {j : BitVec 4} {c : Byte}

theorem completes_enc (hw : OperandsWritten .enc s.block) (hlat : checkLat s.block.lat = true)
    (hlng : checkLng s.block.lng = true) : Completes .enc s [.latFrac, .lngFrac, .key, .hash] fun t =>
      t.block.latFrac = mapLat s.params.mapArith s.block.lat ∧ t.block.lngFrac = mapLng s.params.mapArith s.block.lng ∧
      t.block.key = interleave t.block.latFrac t.block.lngFrac ∧ t.block.hash = keyToString t.block.key :=
  completes_of_success hw (checkError_enc_of_inRange hlat hlng) (by simp [Block.writeEncoded])

theorem fails_enc_lat (hw : OperandsWritten .enc s.block) (hlat : checkLat s.block.lat = false) :
    Fails .enc s 1 0 0 0 :=
  fails_of_error (e := .range 0) hw (by simp [hlat]) rfl

theorem fails_enc_lng (hw : OperandsWritten .enc s.block) (hlat : checkLat s.block.lat = true)
    (hlng : checkLng s.block.lng = false) : Fails .enc s 1 1 0 0 :=
  fails_of_error (e := .range 1) hw (by simp [hlat, hlng]) rfl

theorem completes_dec (hw : OperandsWritten .dec s.block) (hv : validate s.block.hash = none) :
    Completes .dec s [.key, .latFrac, .lngFrac, .lat, .lng] fun t =>
      t.block.key = stringToKey s.block.hash ∧ (t.block.latFrac, t.block.lngFrac) = deinterleave t.block.key ∧
      t.block.lat = unmapLat t.block.latFrac ∧ t.block.lng = unmapLng t.block.lngFrac ∧
      t.block.key &&& 0xF = 0 ∧ t.block.latFrac &&& 0x3 = 0 ∧ t.block.lngFrac &&& 0x3 = 0 := by
  obtain ⟨hlat, hlng⟩ := deinterleave_stringToKey_and_low s.block.hash
  exact completes_of_success hw (checkError_dec_of_valid hv)
    (by simpa [Block.writeDecoded] using ⟨stringToKey_and_low _, hlat, hlng⟩)

theorem fails_dec (hw : OperandsWritten .dec s.block) (hv : validate s.block.hash = some (j, c)) :
    Fails .dec s 2 0 j c :=
  fails_of_error (e := .invalidCharacter j c) hw (by simp [hv]) rfl

theorem completes_nop (s : State) : Completes .nop s [] fun t => t.block.hash = s.block.hash :=
  completes_of_success (i := .nop) (by simp [OperandsWritten, reads]) rfl rfl

end

/-- What ENC leaves where the values of its primitives are known (R180). -/
theorem exec_enc_of_values {s t : State} {arith : Config.MapArith} {lat lng : F64} {f g : Word} {k : DWord} {str : Chars}
    (ht : exec .enc s = .next t) (harith : s.params.mapArith = arith) (hb : s.block.lat = lat ∧ s.block.lng = lng)
    (hcheck : checkLat lat = true ∧ checkLng lng = true) (hmap : mapLat arith lat = f ∧ mapLng arith lng = g)
    (hcodec : interleave f g = k ∧ keyToString k = str) :
    t.block.latFrac = f ∧ t.block.lngFrac = g ∧ t.block.key = k ∧ t.block.hash = str := by
  obtain ⟨rfl, rfl⟩ := hb
  obtain ⟨rfl, rfl⟩ := hmap
  obtain ⟨rfl, rfl⟩ := hcodec
  rw [exec_next_block ht, effect_of_checkError_none (checkError_enc_of_inRange hcheck.1 hcheck.2), harith]
  simp [Block.writeEncoded]

/-- What DEC leaves where the values of its primitives are known (R181). -/
theorem exec_dec_of_values {s t : State} {lat lng : F64} {f g : Word} {k : DWord} {str : Chars}
    (ht : exec .dec s = .next t) (hb : s.block.hash = str) (hv : validate str = none)
    (hcodec : stringToKey str = k ∧ deinterleave k = (f, g)) (hunmap : unmapLat f = lat ∧ unmapLng g = lng) :
    t.block.key = k ∧ t.block.latFrac = f ∧ t.block.lngFrac = g ∧ t.block.lat = lat ∧ t.block.lng = lng := by
  obtain rfl := hb
  obtain ⟨rfl, hfrac⟩ := hcodec
  obtain ⟨rfl, rfl⟩ := hunmap
  rw [exec_next_block ht, effect_of_checkError_none (checkError_dec_of_valid hv)]
  simp [Block.writeDecoded, hfrac]

/-- The corner cases and the example of ENC (R180). -/
theorem exists_enc_vectors {s : State} {lat lng : F64} (hw : OperandsWritten .enc s.block)
    (harith : s.params.mapArith = .binary64) (hlat : s.block.lat = lat) (hlng : s.block.lng = lng) :
    ∃ t, exec .enc s = .next t ∧
      (lat = 0xC056800000000000 ∧ lng = 0xC066800000000000 → t.block.hash = Vector.replicate 12 0x30) ∧
      (lat = 0x4056800000000000 ∧ lng = 0x4066800000000000 →
        t.block.key = 0xFFFFFFFFFFFFFFFF ∧ t.block.hash = Vector.replicate 12 0x7A) ∧
      (lat = 0x0000000000000000 ∧ lng = 0x0000000000000000 → t.block.key = 0xC000000000000000 ∧
        t.block.hash = #v[0x73, 0x30, 0x30, 0x30, 0x30, 0x30, 0x30, 0x30, 0x30, 0x30, 0x30, 0x30]) ∧
      (lat = 0x4035071DE69AD42C ∧ lng = 0x405A7563886594AF →
        t.block.latFrac = 0x9DE7FD03 ∧ t.block.lngFrac = 0xCB428734 ∧ t.block.key = 0xE1DB741DD57B0A25 ∧
        t.block.hash = #v[0x77, 0x37, 0x65, 0x72, 0x38, 0x37, 0x66, 0x70, 0x67, 0x64, 0x35, 0x32]) := by
  have ht := exec_of_written hw
  refine ⟨_, ht, ?lowest, ?highest, ?zero, ?worked⟩
  case lowest =>
    rintro ⟨rfl, rfl⟩
    obtain ⟨-, -, -, hhash⟩ := exec_enc_of_values (f := 0) (g := 0) (k := 0) (str := Vector.replicate 12 0x30) ht harith
      ⟨hlat, hlng⟩ (by decide +kernel) (by decide +kernel) (by decide +kernel)
    exact hhash
  case highest =>
    rintro ⟨rfl, rfl⟩
    obtain ⟨-, -, hcodec⟩ := exec_enc_of_values (f := 0xFFFFFFFF) (g := 0xFFFFFFFF) (k := 0xFFFFFFFFFFFFFFFF)
      (str := Vector.replicate 12 0x7A) ht harith ⟨hlat, hlng⟩ (by decide +kernel) (by decide +kernel) (by decide +kernel)
    exact hcodec
  case zero =>
    rintro ⟨rfl, rfl⟩
    obtain ⟨-, -, hcodec⟩ := exec_enc_of_values (f := 0x80000000) (g := 0x80000000) (k := 0xC000000000000000)
      (str := #v[0x73, 0x30, 0x30, 0x30, 0x30, 0x30, 0x30, 0x30, 0x30, 0x30, 0x30, 0x30]) ht harith ⟨hlat, hlng⟩
      (by decide +kernel) (by decide +kernel) (by decide +kernel)
    exact hcodec
  case worked =>
    rintro ⟨rfl, rfl⟩
    exact exec_enc_of_values ht harith ⟨hlat, hlng⟩ (by decide +kernel) (by decide +kernel) (by decide +kernel)

/-- The corner cases and the example of DEC (R181). -/
theorem exists_dec_vectors {s : State} (hw : OperandsWritten .dec s.block) :
    ∃ t, exec .dec s = .next t ∧
      (s.block.hash = Vector.replicate 12 0x30 → t.block.lat = 0xC056800000000000 ∧ t.block.lng = 0xC066800000000000) ∧
      (s.block.hash = Vector.replicate 12 0x7A → t.block.key = 0xFFFFFFFFFFFFFFF0 ∧ t.block.latFrac = 0xFFFFFFFC ∧
        t.block.lngFrac = 0xFFFFFFFC ∧ t.block.lat = 0x40567FFFFF4C0000 ∧ t.block.lng = 0x40667FFFFF4C0000) ∧
      (s.block.hash = #v[0x73, 0x30, 0x30, 0x30, 0x30, 0x30, 0x30, 0x30, 0x30, 0x30, 0x30, 0x30] →
        t.block.lat = 0x0000000000000000 ∧ t.block.lng = 0x0000000000000000) ∧
      (s.block.hash = #v[0x77, 0x37, 0x65, 0x72, 0x38, 0x37, 0x66, 0x70, 0x67, 0x64, 0x35, 0x32] →
        t.block.key = 0xE1DB741DD57B0A20 ∧ t.block.latFrac = 0x9DE7FD00 ∧ t.block.lngFrac = 0xCB428734 ∧
        t.block.lat = 0x4035071DE4000000 ∧ t.block.lng = 0x405A756388480000) := by
  have ht := exec_of_written hw
  refine ⟨_, ht, fun hh => ?lowest, fun hh => ?highest, fun hh => ?zero, fun hh => ?worked⟩
  case lowest =>
    obtain ⟨-, -, -, hcoords⟩ := exec_dec_of_values (f := 0) (g := 0) (k := 0) (lat := 0xC056800000000000)
      (lng := 0xC066800000000000) ht hh (by decide +kernel) (by decide +kernel) (by decide +kernel)
    exact hcoords
  case highest => exact exec_dec_of_values ht hh (by decide +kernel) (by decide +kernel) (by decide +kernel)
  case zero =>
    obtain ⟨-, -, -, hcoords⟩ := exec_dec_of_values (f := 0x80000000) (g := 0x80000000) (k := 0xC000000000000000)
      (lat := 0) (lng := 0) ht hh (by decide +kernel) (by decide +kernel) (by decide +kernel)
    exact hcoords
  case worked => exact exec_dec_of_values ht hh (by decide +kernel) (by decide +kernel) (by decide +kernel)

/-- Settles O53: the range checks decide, latitude first; the listed STATUS words and vectors are evaluated. -/
theorem encCommand : Obligations.EncCommand :=
  ⟨rfl, fun _ => completes_enc, fun _ => fails_enc_lat, fun _ => fails_enc_lng, fun _ => exec_of_not_written,
    fun _ _ hcmd => ⟨reports_iff hcmd (by decide), reports_iff hcmd (by decide), reports_iff hcmd (by decide)⟩,
    by decide +kernel, fun _ _ _ => exists_enc_vectors⟩

/-- Settles O54: what `validate` answers decides; the listed STATUS words and vectors are evaluated. -/
theorem decCommand : Obligations.DecCommand :=
  ⟨rfl, fun _ => completes_dec, fun _ _ _ => fails_dec, fun _ => exec_of_not_written,
    fun _ _ hcmd => ⟨reports_iff hcmd (by decide), reports_iff hcmd (by decide)⟩, fun _ => exists_dec_vectors⟩

/-- The word 0 reports success, whatever STATUS was, and nothing else (R182). -/
theorem exists_issue_nop (s : State) :
    ∃ t, issue 0x00000000 s = .next t ∧ t.block.status = 0x80000000 ∧ OnlyChanges [] (s.storeCmd 0) t := by
  obtain ⟨t, ht, -, hreport, hframe, -⟩ := completes_nop (s.storeCmd 0)
  exact ⟨t, (issue_encode .nop s).trans ht, (reports_iff (State.storeCmd_cmd s 0) (by decide)).mp hreport, hframe⟩

/-- The word 0x00000100 has a reserved bit set: it is no NOP (R84, R182). -/
theorem exists_issue_nop_with_reserved_bit (s : State) :
    ∃ t, issue 0x00000100 s = .next t ∧ t.block.status = 0x80000003 ∧ OnlyChanges [] (s.storeCmd 0x00000100) t := by
  obtain ⟨t, ht, -, hstatus, hframe⟩ := exists_issue_of_not_wellFormed (w := 0x00000100) (by decide) s
  exact ⟨t, ht, hstatus.trans (by decide), hframe⟩

/-- Settles O55: NOP has no operand, no check and no result, and 0x00000100 selects no command. -/
theorem nopCommand : Obligations.NopCommand := ⟨rfl, completes_nop, exists_issue_nop, exists_issue_nop_with_reserved_bit⟩

end Sys2Proof.Machine

/-! ENC and DEC as their sequences of commands (spec/43_composed.md R183). -/

namespace Sys2Proof.Machine

open Sys2Proof

/-- ENC's results are those of MAPLAT; MAPLNG; ILV; K2S (R183). -/
theorem results_enc_eq_sequence (arith : Config.MapArith) (b : Block) : results arith .enc b =
    results arith .k2s (results arith .ilv (results arith .maplng (results arith .maplat b))) := by
  simp [Block.writeEncoded]

/-- DEC's results are those of S2K; DILV; UNMAPLAT; UNMAPLNG (R183). -/
theorem results_dec_eq_sequence (arith : Config.MapArith) (b : Block) : results arith .dec b =
    results arith .unmaplng (results arith .unmaplat (results arith .dilv (results arith .s2k b))) := by
  simp [Block.writeDecoded]

section
variable {s : State}

/-- A command and a sequence of four with the same results leave the same state but for CMD and STATUS (R183). -/
theorem completed_eq_sequence {i i1 i2 i3 i4 : Instr} (h : ∀ arith b, results arith i b =
      results arith i4 (results arith i3 (results arith i2 (results arith i1 b)))) :
    s.completed i = { (((s.completed i1).completed i2).completed i3).completed i4 with
      block := { ((((s.completed i1).completed i2).completed i3).completed i4).block with
        cmd := (s.completed i).block.cmd, status := (s.completed i).block.status } } := by
  simp only [State.completed, h, results_withReport, Block.withReport_withReport]
  rfl

/-- With ENC's operands written, MAPLAT has its operand, and MAPLNG still has its own after it. -/
theorem operandsWritten_maplat_maplng (hw : OperandsWritten .enc s.block) :
    OperandsWritten .maplat s.block ∧ OperandsWritten .maplng (s.completed .maplat).block := by
  have hlat : reads .maplat ⊆ reads .enc := by decide
  have hlng : reads .maplng ⊆ reads .enc := by decide
  exact ⟨fun r hr => hw r (hlat hr), operandsWritten_completed fun r hr => .inr (hw r (hlng hr))⟩

/-- Without an error, ENC and MAPLAT; MAPLNG; ILV; K2S (R183). -/
theorem exists_enc_sequence (hw : OperandsWritten .enc s.block) (hlat : checkLat s.block.lat = true)
    (hlng : checkLng s.block.lng = true) :
    ∃ t1 t2 t3 t u, issue (encode .maplat) s = .next t1 ∧ issue (encode .maplng) t1 = .next t2 ∧
      issue (encode .ilv) t2 = .next t3 ∧ issue (encode .k2s) t3 = .next t ∧ issue (encode .enc) s = .next u ∧
      u = { t with block := { t.block with cmd := u.block.cmd, status := u.block.status } } ∧
      t.block.status = statusWord 0x07 0 0 0 0 ∧ u.block.status = statusWord 0x0A 0 0 0 0 := by
  obtain ⟨hwlat, hwlng⟩ := operandsWritten_maplat_maplng hw
  have hwilv : OperandsWritten .ilv ((s.completed .maplat).completed .maplng).block := by
    have hlatFrac := written_completed (i := .maplat) (s := s) (r := .latFrac) (.inl (by decide))
    exact operandsWritten_completed (List.forall_mem_cons.mpr ⟨.inr hlatFrac, fun r hr => .inl hr⟩)
  have hwk2s : OperandsWritten .k2s (((s.completed .maplat).completed .maplng).completed .ilv).block :=
    operandsWritten_completed fun r hr => .inl hr
  exact ⟨_, _, _, _, _, issue_eq_completed hwlat (by simp [hlat]), issue_eq_completed hwlng (by simp [hlng]),
    issue_eq_completed hwilv rfl, issue_eq_completed hwk2s rfl,
    issue_eq_completed hw (checkError_enc_of_inRange hlat hlng), completed_eq_sequence results_enc_eq_sequence, rfl, rfl⟩

/-- Without an error, DEC and S2K; DILV; UNMAPLAT; UNMAPLNG (R183). -/
theorem exists_dec_sequence (hw : OperandsWritten .dec s.block) (hv : validate s.block.hash = none) :
    ∃ t1 t2 t3 t u, issue (encode .s2k) s = .next t1 ∧ issue (encode .dilv) t1 = .next t2 ∧
      issue (encode .unmaplat) t2 = .next t3 ∧ issue (encode .unmaplng) t3 = .next t ∧ issue (encode .dec) s = .next u ∧
      u = { t with block := { t.block with cmd := u.block.cmd, status := u.block.status } } ∧
      t.block.status = statusWord 0x04 0 0 0 0 ∧ u.block.status = statusWord 0x0B 0 0 0 0 := by
  have hwdilv : OperandsWritten .dilv (s.completed .s2k).block := operandsWritten_completed fun r hr => .inl hr
  have hlatFrac : reads .unmaplat ⊆ writes .dilv := by decide
  have hlngFrac : reads .unmaplng ⊆ writes .dilv := by decide
  have hwunmaplat : OperandsWritten .unmaplat ((s.completed .s2k).completed .dilv).block :=
    operandsWritten_completed fun r hr => .inl (hlatFrac hr)
  have hwunmaplng : OperandsWritten .unmaplng (((s.completed .s2k).completed .dilv).completed .unmaplat).block :=
    operandsWritten_completed fun r hr => .inr (written_completed (.inl (hlngFrac hr)))
  exact ⟨_, _, _, _, _, issue_eq_completed (i := .s2k) hw (by simp [hv]), issue_eq_completed hwdilv rfl,
    issue_eq_completed hwunmaplat rfl, issue_eq_completed hwunmaplng rfl,
    issue_eq_completed hw (checkError_dec_of_valid hv), completed_eq_sequence results_dec_eq_sequence, rfl, rfl⟩

/-- With longitude alone out of range, MAPLAT has written LATFRAC when MAPLNG fails, and ENC nothing (R183). -/
theorem exists_enc_sequence_lng_error (hw : OperandsWritten .enc s.block) (hlat : checkLat s.block.lat = true)
    (hlng : checkLng s.block.lng = false) :
    ∃ t1 t u, issue (encode .maplat) s = .next t1 ∧ issue (encode .maplng) t1 = .next t ∧ issue (encode .enc) s = .next u ∧
      statusErr t.block.status = 1 ∧ t.block.latFrac = mapLat s.params.mapArith s.block.lat ∧
      statusErr u.block.status = 1 ∧ OnlyChanges [] (s.storeCmd (encode .enc)) u := by
  obtain ⟨hwlat, hwlng⟩ := operandsWritten_maplat_maplng hw
  obtain ⟨u, hu, hreport, hframe⟩ := fails_enc_lng (s := s.storeCmd (encode .enc)) hw hlat hlng
  have hmaplng : checkError .maplng (s.completed .maplat).block = some (.range 1) := by simp [hlng]
  exact ⟨_, _, u, issue_eq_completed hwlat (by simp [hlat]), issue_of_error hwlng hmaplng,
    (issue_encode .enc s).trans hu, by simp [errRange], by simp, by rw [hreport, statusErr_statusWord], hframe⟩

end

/-- Settles O56: ENC's and DEC's results are their sequences', and an error of ENC changes STATUS only. -/
theorem composedCommandsAreTheirSequences : Obligations.ComposedCommandsAreTheirSequences :=
  ⟨fun _ => exists_enc_sequence, fun _ => exists_dec_sequence, fun _ => exists_enc_sequence_lng_error⟩

end Sys2Proof.Machine

/-! The round trips through the string: ENC then DEC, and DEC then ENC (spec/43_composed.md R184, R185). -/

namespace Sys2Proof.Machine

open Sys2Proof Sys2Proof.Machine.Float64

section
variable {s : State}

/-- ENC then DEC completes, with each coordinate unmapped from its fraction without the low 2 bits. -/
theorem exists_enc_dec (hw : OperandsWritten .enc s.block) (hlat : checkLat s.block.lat = true)
    (hlng : checkLng s.block.lng = true) :
    ∃ t u, issue (encode .enc) s = .next t ∧ issue (encode .dec) t = .next u ∧ statusErr u.block.status = 0 ∧
      u.block.lat = unmapLat (mapLat s.params.mapArith s.block.lat &&& 0xFFFFFFFC) ∧
      u.block.lng = unmapLng (mapLng s.params.mapArith s.block.lng &&& 0xFFFFFFFC) := by
  have hsub : reads .dec ⊆ writes .enc := by decide
  refine ⟨_, _, issue_eq_completed hw (checkError_enc_of_inRange hlat hlng),
    issue_eq_completed (operandsWritten_completed fun r hr => .inl (hsub hr)) (checkError_dec_of_valid ?valid), ?registers⟩
  case valid => simp [Block.writeEncoded]
  case registers => simp [Block.writeEncoded, Block.writeDecoded, deinterleave_and_mask, errOk]

/-- DEC then ENC completes, and restores what DEC read and wrote. -/
theorem exists_dec_enc (hw : OperandsWritten .dec s.block) (hv : validate s.block.hash = none) :
    ∃ t u, issue (encode .dec) s = .next t ∧ issue (encode .enc) t = .next u ∧ statusErr u.block.status = 0 ∧
      u.block.hash = s.block.hash ∧ u.block.key = t.block.key ∧ u.block.latFrac = t.block.latFrac ∧
      u.block.lngFrac = t.block.lngFrac := by
  have hsub : reads .enc ⊆ writes .dec := by decide
  refine ⟨_, _, issue_eq_completed hw (checkError_dec_of_valid hv),
    issue_eq_completed (operandsWritten_completed fun r hr => .inl (hsub hr)) (checkError_enc_of_inRange ?lat ?lng),
    ?registers⟩
  case lat => simp [Block.writeDecoded]
  case lng => simp [Block.writeDecoded]
  case registers => simp [Block.writeEncoded, Block.writeDecoded, keyToString_stringToKey hv, errOk]

end

/-- Settles O58: DEC's coordinates map back to its fractions, those interleave to its key, and the key to HASH. -/
theorem encAfterDecRestoresHash : Obligations.EncAfterDecRestoresHash := fun _ => exists_dec_enc

/-- Settles O57: mapping costs at most a cell and 2^-43, and clearing the low 2 bits of the fraction at most 3 cells. -/
theorem stringRoundTripIsNear : Obligations.StringRoundTripIsNear := by
  intro s hw hlat hlng
  obtain ⟨t, u, ht, hu, herr, hulat, hulng⟩ := exists_enc_dec hw hlat hlng
  obtain ⟨hlatLo, hlatHi⟩ := latRange.string_error s.params.mapArith hlat
  obtain ⟨hlngLo, hlngHi⟩ := lngRange.string_error s.params.mapArith hlng
  refine ⟨t, u, ht, hu, herr, by rw [hulat]; exact hlatLo, by rw [hulat]; exact hlatHi, by rw [hulng]; exact hlngLo,
    by rw [hulng]; exact hlngHi, fun hmax => ?lat, fun hmax => ?lng⟩
  case lat =>
    have hfrac : mapLat s.params.mapArith latMax = 0xFFFFFFFF :=
      latRange.mapFrac_of_max _ (hmax ▸ hlat : checkLat latMax = true) latRange.hiUnits
    have hback : u.block.lat = unmapLat 0xFFFFFFFC := by rw [hulat, hmax, hfrac]; rfl
    rw [hback, hmax]
    exact ⟨by decide +kernel, latRange.string_error_of_max latRange.hiUnits⟩
  case lng =>
    have hfrac : mapLng s.params.mapArith lngMax = 0xFFFFFFFF :=
      lngRange.mapFrac_of_max _ (hmax ▸ hlng : checkLng lngMax = true) lngRange.hiUnits
    have hback : u.block.lng = unmapLng 0xFFFFFFFC := by rw [hulng, hmax, hfrac]; rfl
    rw [hback, hmax]
    exact ⟨by decide +kernel, lngRange.string_error_of_max lngRange.hiUnits⟩

end Sys2Proof.Machine

/-! The errors (spec/60_exceptions.md R201, R202, R204): what a command word that reports one leaves, and of which words and
operands each is reported. -/

namespace Sys2Proof.Machine

open Sys2Proof

/-- Raising an error writes STATUS only (R201). -/
theorem raise_eq (b : Block) (e : CommandError) : b.raise e = b.withStatus (outcomeWord (opcodeField b.cmd) (some e)) := by
  cases e <;> rfl

/-- A command word that reports an error has raised it on the block with CMD stored, and done nothing else to the block
(R201). -/
theorem issue_block_of_error {w : Word} {s t : State} {e : CommandError} (h : issue w s = .next t)
    (he : wordError w s.block = some e) : t.block = (s.storeCmd w).block.raise e := by
  cases hdec : decode w with
  | command i =>
    obtain rfl := decode_eq_command_iff.mp hdec
    have hc : checkError i (s.storeCmd (encode i)).block = some e := by rwa [checkError_storeCmd, ← wordError_encode]
    rw [issue_encode] at h
    rw [exec_next_block h, effect_of_checkError_some hc]
  | illegal why =>
    obtain rfl : CommandError.illegalCommand = e := Option.some.inj ((wordError_of_illegal hdec _).symm.trans he)
    rw [issue, execute_of_illegal hdec] at h
    cases h
    rfl

/-- All that a command word can do to the recorded model fault: nothing, or UnwrittenOperand where its command's operands are
not written (R203). -/
theorem issue_modelFault {w : Word} {s t : State} (h : issue w s = .next t) : t.modelFault = s.modelFault ∨
    (∃ i, decode w = .command i ∧ ¬ OperandsWritten i s.block) ∧
      t.modelFault = s.modelFault.or (some .unwrittenOperand) := by
  cases hdec : decode w with
  | command i =>
    rw [issue, execute_of_command hdec] at h
    by_cases hw : OperandsWritten i (s.storeCmd w).block
    · exact .inl (exec_modelFault_of_written (s := s.storeCmd w) h hw)
    · exact .inr ⟨⟨i, rfl, mt operandsWritten_storeCmd.mpr hw⟩, exec_modelFault_of_not_written (s := s.storeCmd w) h hw⟩
  | illegal why =>
    rw [issue, execute_of_illegal hdec] at h
    cases h
    exact .inl rfl

/-- The STATUS word of every outcome is the one that its own fields make (R30). -/
theorem outcomeWord_eq_statusWord (op : Byte) (e : Option CommandError) :
    outcomeWord op e = statusWord op (statusErr (outcomeWord op e)) (statusAxis (outcomeWord op e))
      (statusIdx (outcomeWord op e)) (statusChar (outcomeWord op e)) := by
  rcases e with _ | _ | _ | _ <;> simp

/-- Settles O24: the block is the one on which the error is raised, and beside it only the recorded fault can change, where
an operand is not written and the run does not stop. -/
theorem errorsChangeStatusOnly : Obligations.ErrorsChangeStatusOnly := by
  intro w s t h herr
  obtain ⟨heq, -, hstatus, hstop⟩ := issue_next h
  rw [hstatus, Ne, statusErr_outcomeWord_eq_zero_iff] at herr
  obtain ⟨e, he⟩ := Option.ne_none_iff_exists'.mp herr
  refine ⟨?state, by rw [hstatus]; exact outcomeWord_eq_statusWord _ _, ?fault⟩
  case state =>
    have hblock : t.block = { s.block with cmd := w, status := t.block.status } := by
      rw [issue_block_of_error h he, raise_eq]
      rfl
    rw [← hblock]
    exact heq
  case fault =>
    rintro (hwritten | hs)
    · obtain hsame | ⟨⟨i, hdec, hnot⟩, -⟩ := issue_modelFault h
      · exact hsame
      · exact absurd (hwritten i hdec) hnot
    · exact hstop hs

/-- Of which commands and operands RANGE_ERROR is reported, and with which axis: ENC checks latitude first (R202, R204). -/
theorem checkError_eq_range_iff {i : Instr} {b : Block} {axis : BitVec 1} :
    checkError i b = some (.range axis) ↔
      (i = .maplat ∧ checkLat b.lat = false ∧ axis = 0 ∨
       i = .maplng ∧ checkLng b.lng = false ∧ axis = 1 ∨
       i = .enc ∧ checkLat b.lat = false ∧ axis = 0 ∨
       i = .enc ∧ checkLat b.lat = true ∧ checkLng b.lng = false ∧ axis = 1) := by
  cases i with
  | maplat => cases h : checkLat b.lat <;> simp [h, eq_comm (a := axis)]
  | maplng => cases h : checkLng b.lng <;> simp [h, eq_comm (a := axis)]
  | enc => cases hlat : checkLat b.lat <;> cases hlng : checkLng b.lng <;> simp [hlat, hlng, eq_comm (a := axis)]
  | s2k | valid | dec | nop | unmaplat | unmaplng | ilv | dilv | k2s => simp

/-- Of which commands and operands INVALID_CHARACTER is reported, and with which information (R202). -/
theorem checkError_eq_invalidCharacter_iff {i : Instr} {b : Block} {j : BitVec 4} {c : Byte} :
    checkError i b = some (.invalidCharacter j c) ↔ i ∈ mayInvalidCharacter ∧ validate b.hash = some (j, c) := by
  refine ⟨checkError_eq_invalidCharacter, fun ⟨hi, hv⟩ => ?_⟩
  simp only [mayInvalidCharacter, List.mem_cons, List.not_mem_nil, or_false] at hi
  rcases hi with rfl | rfl | rfl <;> simp [hv]

/-- An error other than ILLEGAL_COMMAND is the one that the checks of the word's command find. -/
theorem wordError_eq_some_iff {w : Word} {b : Block} {e : CommandError} (he : e ≠ .illegalCommand) :
    wordError w b = some e ↔ ∃ i, w = encode i ∧ checkError i b = some e := by
  refine ⟨fun h => exists_of_wordError h he, ?_⟩
  rintro ⟨i, rfl, hcheck⟩
  rwa [wordError_encode]

theorem wordError_eq_range_iff {w : Word} {b : Block} {axis : BitVec 1} : wordError w b = some (.range axis) ↔
    (w = encode .maplat ∧ checkLat b.lat = false ∧ axis = 0 ∨
     w = encode .maplng ∧ checkLng b.lng = false ∧ axis = 1 ∨
     w = encode .enc ∧ checkLat b.lat = false ∧ axis = 0 ∨
     w = encode .enc ∧ checkLat b.lat = true ∧ checkLng b.lng = false ∧ axis = 1) := by
  rw [wordError_eq_some_iff (by simp)]
  simp [checkError_eq_range_iff, and_or_left, exists_or]

theorem wordError_eq_invalidCharacter_iff {w : Word} {b : Block} {j : BitVec 4} {c : Byte} :
    wordError w b = some (.invalidCharacter j c) ↔
      (w = encode .s2k ∨ w = encode .valid ∨ w = encode .dec) ∧ validate b.hash = some (j, c) := by
  rw [wordError_eq_some_iff (by simp)]
  simp [checkError_eq_invalidCharacter_iff, mayInvalidCharacter, or_and_right, and_or_left, exists_or]

/-- Where ERR is RANGE_ERROR, the error is the one of the axis that STATUS reads (R28). -/
theorem statusErr_outcomeWord_eq_range_iff_axis {op : Byte} {e : Option CommandError} :
    statusErr (outcomeWord op e) = errRange ↔ e = some (.range (statusAxis (outcomeWord op e))) := by
  rcases e with _ | _ | _ | _ <;> simp [errOk, errRange, errInvalidCharacter, errIllegalCommand]

/-- Where ERR is INVALID_CHARACTER, the error is the one of the index and the byte that STATUS reads (R28). -/
theorem statusErr_outcomeWord_eq_invalidCharacter_iff_fields {op : Byte} {e : Option CommandError} :
    statusErr (outcomeWord op e) = errInvalidCharacter ↔
      e = some (.invalidCharacter (statusIdx (outcomeWord op e)) (statusChar (outcomeWord op e))) := by
  rcases e with _ | _ | _ | _ <;> simp [errOk, errRange, errInvalidCharacter, errIllegalCommand]

/-- Settles O25: STATUS is the outcome of the word, whose error is that of its command's checks. -/
theorem errorsComeFromTheirConditions : Obligations.ErrorsComeFromTheirConditions := by
  intro w s t h
  obtain ⟨-, -, hstatus, -⟩ := issue_next h
  obtain ⟨-, -, hop⟩ := outcomeWord_fields (opcodeField w) (wordError w s.block)
  rw [hstatus]
  refine ⟨?range, ?invalid, ?illegal, ?codes, hop⟩
  case range => exact statusErr_outcomeWord_eq_range_iff_axis.trans wordError_eq_range_iff
  case invalid =>
    refine (statusErr_outcomeWord_eq_invalidCharacter_iff_fields.trans wordError_eq_invalidCharacter_iff).trans
      (and_congr_right fun _ => ⟨fun hv => ⟨_, _, hv, rfl, rfl⟩, ?_⟩)
    rintro ⟨j, c, hv, rfl, rfl⟩
    exact hv
  case illegal => exact statusErr_outcomeWord_eq_illegalCommand_iff.trans wordError_eq_illegalCommand_iff
  case codes =>
    rcases statusErr_outcomeWord_cases (op := opcodeField w) (e := wordError w s.block) with herr | herr | herr | herr <;>
      rw [herr] <;> decide

/-- A command that validates HASH reports the first invalid byte that `validate` finds (R202). -/
theorem fails_of_invalid {i : Instr} {s : State} (hi : i ∈ mayInvalidCharacter) (hw : OperandsWritten i s.block)
    {j : BitVec 4} {c : Byte} (hv : validate s.block.hash = some (j, c)) : Fails i s 2 0 j c :=
  fails_of_error hw (checkError_eq_invalidCharacter_iff.mpr ⟨hi, hv⟩) rfl

/-- The lowest index whose byte is invalid is the one that `validate` answers (R151, R204). -/
theorem validate_of_first_invalid {h : Chars} {j : Nat} (hj : j < 12) (hfirst : ∀ k, (hk : k < j) → indexb h[k] ≠ none)
    (hn : indexb h[j] = none) : validate h = some (BitVec.ofNat 4 j, h[j]) := by
  have hidx : (BitVec.ofNat 4 j).toNat = j := by rw [BitVec.toNat_ofNat]; omega
  simpa only [validate_eq_some_iff, hidx, true_and, exists_prop] using ⟨hj, hn, hfirst⟩

/-- Settles O28: an illegal word reads no operand, an unwritten operand stops the command before its checks, ENC checks
latitude first, and `validate` finds the lowest invalid index. -/
theorem outcomesHaveTheirPriority : Obligations.OutcomesHaveTheirPriority := by
  refine ⟨?decode, ?operands, fun s => fails_enc_lat, fun s => fails_enc_lng, ?invalid⟩
  case decode =>
    intro w s hw
    obtain ⟨t, ht, -, hstatus, hframe⟩ := exists_issue_of_not_wellFormed hw s
    exact ⟨t, ht, by rw [hstatus, statusErr_statusWord], hframe.modelFault⟩
  case operands =>
    intro i s hs hw
    rw [issue_encode]
    exact exec_of_not_written (s := s.storeCmd (encode i)) hs (mt operandsWritten_storeCmd.mp hw)
  case invalid =>
    intro s i j hj hi hw hfirst hn
    exact fails_of_invalid (by simpa [mayInvalidCharacter] using hi) hw (validate_of_first_invalid hj hfirst hn)

end Sys2Proof.Machine

/-! The idle block (spec/60_exceptions.md R215), and the recorded model fault along a run (R203): only a use of an unwritten
byte records one, and nothing clears it. -/

namespace Sys2Proof.Machine

open Sys2Proof

/-- Settles O3: with no arrival, `step` answers the state it is given. -/
theorem idleBlockHolds : Obligations.IdleBlockHolds := fun _ => step_of_idle

/-- The next arrival uses an unwritten byte, from which the model fault `f` arises: a CMD write whose command has an operand
byte that is not written, or a read that covers one (R34, R203). -/
def UsesUnwritten (s : State) (f : Fault) : Prop :=
  (f = .unwrittenOperand ∧ ∃ host v rest i, s.inbox = .access host (.write s.params.base 4 v) :: rest ∧
    decode (v.setWidth 32) = .command i ∧ ¬ OperandsWritten i s.block) ∨
  ∃ host addr n rest, f = .unwrittenRead host ∧ s.inbox = .access host (.read addr n) :: rest ∧
    s.params.base ≤ addr ∧ (rowOf (addr - s.params.base)).isData = true ∧
    ∃ k < n, s.block.markAt (addr - s.params.base + k) = false

/-- All that a step can do to the recorded model fault: nothing, or the fault of a use of an unwritten byte arises, and is
recorded unless one was before (R203). -/
theorem step_modelFault {s t : State} (h : step s = .next t) : t.modelFault = s.modelFault ∨
    ∃ f, UsesUnwritten s f ∧ t.modelFault = s.modelFault.or (some f) := by
  cases stepDoes_of_next h with
  | idle | reset | outside | ignored | store => exact .inl rfl
  | @read host addr n rest hi hw =>
    cases hr : readWritten s.block (addr - s.params.base) n with
    | true => exact .inl rfl
    | false =>
      obtain ⟨hd, hk⟩ := readWritten_eq_false_iff.mp hr
      exact .inr ⟨.unwrittenRead host, .inr ⟨host, addr, n, rest, rfl, hi, (inWindow_iff.mp hw).1, hd, hk⟩, rfl⟩
  | @command host v rest u hi hu =>
    obtain hsame | ⟨⟨i, hdec, hnot⟩, hrec⟩ := issue_modelFault hu
    · exact .inl hsame
    · exact .inr ⟨.unwrittenOperand, .inl ⟨rfl, host, v, rest, i, hi, hdec, hnot⟩, hrec⟩

/-- No step clears a recorded fault (R203). -/
theorem step_modelFault_of_some {s t : State} {f : Fault} (h : step s = .next t) (hf : s.modelFault = some f) :
    t.modelFault = some f := by
  obtain hsame | ⟨g, -, hrec⟩ := step_modelFault h
  · rw [hsame, hf]
  · rw [hrec, hf, Option.some_or]

/-- Neither does a run. -/
theorem run_modelFault_of_some {f : Fault} {t : State} : ∀ {k : Nat} {s : State}, s.modelFault = some f →
    Sys2Proof.core.run k s = .next t → t.modelFault = some f := by
  intro k
  induction k with
  | zero =>
    intro s hf h
    cases h
    exact hf
  | succ k ih =>
    intro s hf h
    obtain ⟨u, hu, hrun⟩ := run_succ_eq_next_iff.mp h
    exact ih (step_modelFault_of_some hu hf) hrun

/-- A run that goes on goes on at every earlier step. -/
theorem exists_run_of_run_add {t : State} {m : Nat} : ∀ {j : Nat} {s : State}, Sys2Proof.core.run (j + m) s = .next t →
    ∃ u, Sys2Proof.core.run j s = .next u ∧ Sys2Proof.core.run m u = .next t := by
  intro j
  induction j with
  | zero =>
    intro s h
    exact ⟨s, rfl, by rwa [Nat.zero_add] at h⟩
  | succ j ih =>
    intro s h
    rw [Nat.succ_add] at h
    obtain ⟨v, hv, hrun⟩ := run_succ_eq_next_iff.mp h
    obtain ⟨u, hu, hrest⟩ := ih hrun
    exact ⟨u, run_succ_eq_next_iff.mpr ⟨v, hv, hu⟩, hrest⟩

/-- A run that succeeds has succeeded at every earlier step: a fault recorded there would still be (R203). -/
theorem SucceedsIn.of_le {j k : Nat} {s : State} (h : SucceedsIn k s) (hjk : j ≤ k) : SucceedsIn j s := by
  obtain ⟨m, rfl⟩ := Nat.exists_eq_add_of_le hjk
  obtain ⟨t, ht, hnone⟩ := h
  obtain ⟨u, hu, hrest⟩ := exists_run_of_run_add ht
  refine ⟨u, hu, Option.eq_none_iff_forall_ne_some.mpr fun f hf => ?_⟩
  rw [run_modelFault_of_some hf hrest] at hnone
  cases hnone

/-- Settles O60: by what a step can do to the recorded fault, and what it keeps of it along a run. -/
theorem modelFaultsAreNeverCleared : Obligations.ModelFaultsAreNeverCleared := by
  refine ⟨fun _ _ _ _ => run_modelFault_of_some, fun _ _ hs h => step_modelFault_of_stop h hs, ?recorded,
    fun _ _ _ => SucceedsIn.of_le⟩
  case recorded =>
    intro s t f hnone h hf
    obtain hsame | ⟨g, huse, hrec⟩ := step_modelFault h
    · rw [hsame, hnone] at hf
      cases hf
    · rw [hrec, hnone, Option.none_or] at hf
      cases hf
      exact huse

end Sys2Proof.Machine

/-! The block after a reset event (spec/70_reset_and_hazards.md R230): what does not depend on the free values of the data
registers. -/

namespace Sys2Proof.Machine

open Sys2Proof

@[simp] theorem Block.afterReset_cmd (k : Nat) : (Block.afterReset k).cmd = 0 := rfl
@[simp] theorem Block.afterReset_status (k : Nat) : (Block.afterReset k).status = 0 := rfl
@[simp] theorem Block.afterReset_marks (k : Nat) : (Block.afterReset k).marks = Vector.replicate 44 false := rfl

/-- Settles O2: the step is `resetEvent`, whose block has clear registers and marks and which keeps the other fields. -/
theorem resetEventClearsControl : Obligations.ResetEventClearsControl := by
  intro s rest h
  refine ⟨_, step_of_reset h, ?cmd, ?status, ?marks, ?reserved, rfl, rfl, rfl, rfl, rfl⟩
  case cmd => simp
  case status => simp
  case marks => exact fun o _ => markAt_of_clear (by simp) o
  case reserved => exact fun o _ => windowByte_of_reserved

end Sys2Proof.Machine
